-- ==== Sys2Proof/Word.lean ====
section
/-! DEFINITION. The one word type of the framer: the byte of the wire, of the control tables and of PDU memory. -/
namespace Sys2Proof

/-- A byte is 8 bits (R6; the spec marks the width as general knowledge, G1: log entry 18). Bytes are only
compared, copied and moved (R9: no signed quantity, no arithmetic on them). -/
abbrev Byte := BitVec 8

end Sys2Proof
end

