-- ==== Sys2Proof/Config.lean ====
section
/-! DEFINITION. The build-time parameters of R6, and the answers of the environment that the spec leaves free. -/
namespace Sys2Proof

/-- The build-time parameters the spec leaves OPEN (R6). A State carries its parameters as plain data that no rule
writes, so that a statement about every state is a statement about every value of them (log entry 1). -/
structure Params where
  /-- `N_CTL`, capacity of the control table -/
  nCtl    : Nat
  /-- `LEN_W`, width of every length, capacity and position -/
  lenW    : Nat
  /-- `ADDR_W`, width of a buffer pointer -/
  addrW   : Nat
  /-- `HANDLE_W`, width of the transport handle -/
  handleW : Nat
  /-- `HAS_CONT`, whether a continuation is attached (R27) -/
  hasCont : Bool
  deriving DecidableEq, Repr

/-- The legal parameter values of R6 (`HANDLE_W` and `HAS_CONT` are not limited). -/
abbrev Params.Legal (P : Params) : Prop := 3 ≤ P.nCtl ∧ 1 ≤ P.lenW ∧ 1 ≤ P.addrW

/-- Width of `num`: ceil(log2(N_CTL+1)) bits (R20). -/
def Params.numW (P : Params) : Nat := P.nCtl.log2 + 1

/-- Width of `tx_escid`: ceil(log2(N_CTL)) bits (R20; `N_CTL` is at least 3). -/
def Params.escidW (P : Params) : Nat := (P.nCtl - 1).log2 + 1

/-- One answer of the continuation port (R145): `more`, `data'`, `len'`, `pos'`, and the PDU memory it wrote
between the request and the answer, in the order written. -/
structure ContAnswer where
  more   : Bool
  data   : Nat
  len    : Nat
  pos    : Nat
  writes : List (Nat × Byte)
  deriving DecidableEq, Repr, Inhabited

/-- What a continuation owes the framer (R145): with `more = 1`, `data' != 0` and `pos' <= len'`. -/
abbrev ContAnswer.Obliging (a : ContAnswer) : Prop := a.more = true → a.data ≠ 0 ∧ a.pos ≤ a.len

/-- The parameters State.reset carries: DESIGN CHOICE (log entry 1), the spec fixes none of them. The control table
holds the four identifiers that CFG_B needs; no continuation is attached, as in the spec's vectors. -/
def Config.default : Params :=
  { nCtl := 4, lenW := 16, addrW := 32, handleW := 8, hasCont := false }

/-- Answer of the n-th freely answered "read one byte" request: `none` is failure, `some b` is success with `b`
(R215, U8: any value). Free value: log entry 8. -/
opaque Config.freeRead : Nat → Option Byte

/-- Answer of the n-th freely answered "write one byte" request (R215, U7: any value). Free value: log entry 8. -/
opaque Config.freeWrite : Nat → Bool

/-- What the n-th freely answered continuation request is answered from (R145, U11: any value). Free value: log entry 9. -/
opaque Config.freeCont : Nat → ContAnswer

end Sys2Proof
end

