-- ==== Sys2Proof/Syntax.lean ====
section
/-! DEFINITION. The commands of R95 with the operands of R96, the reserved opcodes of R98, and the two internal
micro-operations TXBYTE (R141) and RXBYTE (R171): one constructor for each row of the opcode table. -/
namespace Sys2Proof

/-- One operation of the framer. Lengths, pointers, handles and counts are unsigned integers (R9). -/
inductive Instr where
  /-- CONFIGURE: `cfg.ctl`, `cfg.esc`, `cfg.num` -/
  | configure (ctl esc : List Byte) (num : Nat)
  /-- BIND: `handle` -/
  | bind (handle : Nat)
  /-- SUBMIT: `pdu_null`, `data`, `len` -/
  | submit (pduNull : Bool) (data len : Nat)
  /-- SUPPLY: `pdu_null`, `data`, `cap` -/
  | supply (pduNull : Bool) (data cap : Nat)
  | gettx
  | clrtx
  | getrx
  | clrrx
  | step
  /-- reserved opcode 0x0 -/
  | reserved0
  /-- reserved opcodes 0xA and 0xB; `x` is opcode bit 0 -/
  | reservedAB (x : BitVec 1)
  /-- reserved opcodes 0xC to 0xF; `x` is opcode bits 1:0 -/
  | reservedCF (x : BitVec 2)
  /-- TXBYTE, internal, no opcode and no operands -/
  | txbyte
  /-- RXBYTE, internal, no opcode; `b` is the byte read from the transport -/
  | rxbyte (b : Byte)
  deriving DecidableEq, Repr

/-- TXBYTE and RXBYTE have no opcode (R95): only STEP invokes them, and no command word stands for them. -/
def Instr.internal : Instr → Bool
  | .configure .. | .bind .. | .submit .. | .supply .. | .gettx | .clrtx | .getrx | .clrrx | .step
  | .reserved0 | .reservedAB _ | .reservedCF _ => false
  | .txbyte | .rxbyte _ => true

end Sys2Proof
end

