-- ==== Sys2Proof/WellFormed.lean ====
section
/-! DEFINITION. Which operands fit the command port: the widths of R96 under given build-time parameters. Legality of
a configuration (R22) is no part of it: CONFIGURE loads whatever it is given (R120). -/
namespace Sys2Proof

/-- CONFIGURE's tables hold `N_CTL` bytes each and `cfg.num` fits the width of `num` (R96). -/
def wfConfigure (P : Params) (ctl esc : List Byte) (num : Nat) : Bool :=
  ctl.length == P.nCtl && esc.length == P.nCtl && decide (num < 2 ^ P.numW)

/-- A PDU operand's pointer fits `ADDR_W` bits and its size fits `LEN_W` bits (R96). -/
def wfPdu (P : Params) (data size : Nat) : Bool :=
  decide (data < 2 ^ P.addrW) && decide (size < 2 ^ P.lenW)

/-- The operands fit their ports. -/
def Instr.wf (P : Params) : Instr → Bool
  | .configure ctl esc num => wfConfigure P ctl esc num
  | .bind h => decide (h < 2 ^ P.handleW)
  | .submit _ data len => wfPdu P data len
  | .supply _ data cap => wfPdu P data cap
  | .gettx => true
  | .clrtx => true
  | .getrx => true
  | .clrrx => true
  | .step => true
  | .reserved0 => true
  | .reservedAB _ => true
  | .reservedCF _ => true
  | .txbyte => true
  | .rxbyte _ => true

end Sys2Proof
end

