-- ==== Sys2Proof/Decode.lean ====
section
/-! DEFINITION. The command port's bit layout. A command is its opcode nibble followed by its operand values in the
order of R96 (R95, R101); the layout on one word (opcode in bits 3:0, each operand above the one before it, low bits
first, tables entry 0 first) is the model's DESIGN CHOICE, log entry 10. -/
namespace Sys2Proof

/-- Why a word is no command. -/
inductive DecodeError where
  /-- a bit is set above the operand bundle of the word's opcode, where the port has no line -/
  | excessBits
  deriving DecidableEq, Repr

/-- Read `n` table entries of 8 bits, entry 0 in the lowest bits; the rest of the word comes back beside them. -/
def takeBytes : Nat → Nat → List Byte × Nat
  | 0, w => ([], w)
  | n + 1, w =>
    let r := takeBytes n (w / 256)
    (BitVec.ofNat 8 w :: r.1, r.2)

/-- The instruction, when nothing of the word is left above its operands. -/
def closed (rest : Nat) (i : Instr) : Except DecodeError Instr :=
  if rest = 0 then .ok i else .error .excessBits

/-- CONFIGURE's operands, in the order `cfg.ctl`, `cfg.esc`, `cfg.num` (R96). -/
def decodeConfigure (P : Params) (r : Nat) : Except DecodeError Instr :=
  let c := takeBytes P.nCtl r
  let e := takeBytes P.nCtl c.2
  closed (e.2 / 2 ^ P.numW) (.configure c.1 e.1 (e.2 % 2 ^ P.numW))

/-- A PDU operand, in the order `pdu_null`, `data`, `len` or `cap` (R96). -/
def decodePdu (P : Params) (r : Nat) (mk : Bool → Nat → Nat → Instr) : Except DecodeError Instr :=
  let d := r / 2
  let l := d / 2 ^ P.addrW
  closed (l / 2 ^ P.lenW) (mk (r % 2 == 1) (d % 2 ^ P.addrW) (l % 2 ^ P.lenW))

/-- The instruction a command word stands for: the opcode map of R95 and R98. Every opcode selects an instruction. -/
def decode (P : Params) (w : Nat) : Except DecodeError Instr :=
  let r := w / 16
  match w % 16 with
  | 0x0 => closed r .reserved0
  | 0x1 => decodeConfigure P r
  | 0x2 => closed (r / 2 ^ P.handleW) (.bind (r % 2 ^ P.handleW))
  | 0x3 => decodePdu P r .submit
  | 0x4 => decodePdu P r .supply
  | 0x5 => closed r .gettx
  | 0x6 => closed r .clrtx
  | 0x7 => closed r .getrx
  | 0x8 => closed r .clrrx
  | 0x9 => closed r .step
  | 0xA => closed r (.reservedAB 0)
  | 0xB => closed r (.reservedAB 1)
  | 0xC => closed r (.reservedCF 0)
  | 0xD => closed r (.reservedCF 1)
  | 0xE => closed r (.reservedCF 2)
  | _   => closed r (.reservedCF 3)

/-- The opcode of R95 and R98; the internal micro-operations have none. -/
def Instr.opcode : Instr → Option Nat
  | .configure .. => some 0x1
  | .bind _ => some 0x2
  | .submit .. => some 0x3
  | .supply .. => some 0x4
  | .gettx => some 0x5
  | .clrtx => some 0x6
  | .getrx => some 0x7
  | .clrrx => some 0x8
  | .step => some 0x9
  | .reserved0 => some 0x0
  | .reservedAB x => some (0xA + x.toNat)
  | .reservedCF x => some (0xC + x.toNat)
  | .txbyte => none
  | .rxbyte _ => none

/-- Table entries of 8 bits on top of each other, entry 0 lowest, with `rest` above the last one. -/
def putBytes : List Byte → Nat → Nat
  | [], rest => rest
  | b :: bs, rest => b.toNat + 256 * putBytes bs rest

/-- The operand bundle of R96, as it stands above the opcode nibble. -/
def Instr.bundle (P : Params) : Instr → Nat
  | .configure ctl esc num => putBytes ctl (putBytes esc num)
  | .bind h => h
  | .submit n d l => n.toNat + 2 * (d + 2 ^ P.addrW * l)
  | .supply n d c => n.toNat + 2 * (d + 2 ^ P.addrW * c)
  | .gettx => 0
  | .clrtx => 0
  | .getrx => 0
  | .clrrx => 0
  | .step => 0
  | .reserved0 => 0
  | .reservedAB _ => 0
  | .reservedCF _ => 0
  | .txbyte => 0
  | .rxbyte _ => 0

/-- The command word of an instruction (R95, R101); none for the internal micro-operations. -/
def encode (P : Params) (i : Instr) : Option Nat :=
  i.opcode.map fun op => op + 16 * i.bundle P

/-- The instruction the decoder reads, under State.reset's parameters, from the low `nbits` bits of `w`, every bit
above them 0. -/
def decodeTableWord (nbits w : Nat) : Option Instr :=
  match decode Config.default (w % 2 ^ nbits) with
  | .ok i => some i
  | .error _ => none

end Sys2Proof
end

