-- ==== Sys2Proof/Machine/State.lean ====
section
/-! DEFINITION. The complete state of one channel (R20), the environment it acts on as plain data (R7: transport,
continuation, PDU memory, host), the reasons a step can stop, and the state after reset (R35). -/
namespace Sys2Proof.Machine

/-- Why the machine stops with a fault. -/
inductive Fault where
  /-- TXBYTE or RXBYTE forms a PDU memory address past `2^ADDR_W - 1`: the buffer wraps the address space (R63, R64,
  R74, U5). Raised by STEP, TXBYTE, RXBYTE. Safe. -/
  | addressOutsideSpace
  /-- TXBYTE reads, or RXBYTE stores to, an address where no byte is placed: memory is exactly the bytes of the supplied
  buffers, and an access outside them has no step (R67, U5). Raised by STEP, TXBYTE, RXBYTE. Safe. -/
  | unplacedByte
  deriving DecidableEq, Repr

/-- Why a step gives the run no meaning. -/
inductive Refusal where
  /-- The instruction has no meaning in the model yet. Raised by exec's arms only. Safe. -/
  | notModelled (mnemonic : String)
  /-- A rule reads a control table entry that does not exist: a lookup scans past entry `N_CTL - 1`, which an
  illegal configuration with `num > N_CTL` can make it do (R22, U1). Raised by STEP, TXBYTE, RXBYTE. Safe. -/
  | tableEntryAbsent
  /-- The loaded configuration is illegal, and a claim reads the run as R22 and U1 ask (log entry 4). Raised by
  stepUnderLegalCfg of Safety.lean alone, by no instruction. Safe. -/
  | illegalConfiguration
  /-- A command word has a bit set where the command port has no line (R95, R96). Raised by the step alone. Safe. -/
  | excessCommandBits
  deriving DecidableEq, Repr

/-- `tx_state` (R24). Code 7 is never written, so it has no constructor (U12). -/
inductive TxState where
  | config | idle | sof | data | esc | eof | finished
  deriving DecidableEq, Repr

/-- `rx_state` (R28). Codes 6 and 7 are never written, so they have no constructor (U12). -/
inductive RxState where
  | idle | sof | data | esc | finished | error
  deriving DecidableEq, Repr

/-- The Status type (R33). -/
inductive Status where
  | ok | pending | byteReceived | frameFinished | invalidArgument
  deriving DecidableEq, Repr

/-- The configuration (R21): `ctl[0..N_CTL-1]`, `esc[0..N_CTL-1]`, `num`. -/
structure CfgRegs where
  ctl : List Byte
  esc : List Byte
  num : Nat
  deriving DecidableEq, Repr

/-- The transmit group (R24, R25, R26). -/
structure TxRegs where
  state : TxState
  data  : Nat
  len   : Nat
  pos   : Nat
  escid : Nat
  deriving DecidableEq, Repr

/-- The receive group (R28, R29, R30). -/
structure RxRegs where
  state : RxState
  buf   : Nat
  cap   : Nat
  pos   : Nat
  len   : Nat
  deriving DecidableEq, Repr

/-- Which elements were written since reset (R35), one flag for the elements that are always written together. The
model's own bookkeeping of the spec's "unwritten", read by claims and by no meaning (log entry 3). -/
structure Written where
  /-- `ctl[]`, `esc[]`, `num` -/
  cfg    : Bool
  /-- `tp_handle` -/
  handle : Bool
  /-- `tx_data`, `tx_len`, `tx_pos` -/
  tx     : Bool
  /-- `tx_escid` -/
  escid  : Bool
  /-- `rx_buf`, `rx_cap`, `rx_pos` -/
  rx     : Bool
  /-- `rx_len` -/
  rxLen  : Bool
  deriving DecidableEq, Repr

/-- PDU memory (R60): the bytes of the supplied buffers (U5), addresses strictly rising. An address not listed holds no
value, and the framer reaches none. Log entry 6. -/
abbrev Memory := List Host.Cell

/-- What the outside world does to the channel between commands. -/
inductive Input where
  /-- the host issues a command, as the word on the command port (R95) -/
  | command (w : Nat)
  /-- the reset input is asserted (R260) -/
  | reset
  /-- the host writes one byte of PDU memory, which it owns (R7, R69, R72 (b)) -/
  | hostWrite (a : Nat) (v : Byte)
  deriving DecidableEq, Repr

/-- One request of the framer on a port, with the answer it got (R10, R68). -/
inductive Event where
  | memRead (a : Nat) (v : Byte)
  | memWrite (a : Nat) (v : Byte)
  /-- `TpWrite(h, b)`; `ok` is the answer -/
  | tpWrite (h : Nat) (b : Byte) (ok : Bool)
  /-- `TpRead(h)`; `none` is failure -/
  | tpRead (h : Nat) (r : Option Byte)
  /-- `Cont(tx_data, tx_len, tx_pos)` and its answer -/
  | cont (data len pos : Nat) (a : ContAnswer)
  deriving DecidableEq, Repr

/-- What an operation returns: the status of R97 and, for TXBYTE alone, the byte it hands back (R10, R141). -/
structure Response where
  status : Status
  byte   : Option Byte
  deriving DecidableEq, Repr

/-- The environment as plain data (R7, R32): memory, what the host does next, what the transport and the continuation
answer next, and what the framer has put on its ports. Log entries 6, 8, 9, 11, 12. -/
structure Env where
  mem          : Memory
  /-- what arrives at the channel next, oldest first -/
  inputs       : List Input
  /-- the transport's next answers to "read one byte" -/
  readAnswers  : List (Option Byte)
  /-- the transport's next answers to "write one byte" -/
  writeAnswers : List Bool
  /-- the continuation's next answers -/
  contAnswers  : List ContAnswer
  /-- how many requests were answered by a free value of Config -/
  draws        : Nat
  /-- every request made on a port, oldest first -/
  trace        : List Event
  /-- the response port: what the last operation returned, none before the first one -/
  response     : Option Response
  deriving DecidableEq, Repr

/-- The state of one channel (R20) with its build-time parameters (R6) and its environment (R7). -/
structure State where
  params  : Params
  cfg     : CfgRegs
  /-- `tp_bound` (R23) -/
  bound   : Bool
  /-- `tp_handle` (R23) -/
  handle  : Nat
  tx      : TxRegs
  rx      : RxRegs
  /-- `rx_last` (R31) -/
  rxLast  : Status
  written : Written
  env     : Env
  deriving DecidableEq, Repr

/-- The machine right after reset (R35, R260). The registers that R35 leaves "unwritten" hold zero and are marked not
written: DESIGN CHOICE, log entries 2 and 3. Nothing is placed in memory and no input waits. -/
def State.reset : State :=
  { params  := Config.default
    cfg     := { ctl := List.replicate Config.default.nCtl 0, esc := List.replicate Config.default.nCtl 0, num := 0 }
    bound   := false
    handle  := 0
    tx      := { state := .config, data := 0, len := 0, pos := 0, escid := 0 }
    rx      := { state := .idle, buf := 0, cap := 0, pos := 0, len := 0 }
    rxLast  := .ok
    written := { cfg := false, handle := false, tx := false, escid := false, rx := false, rxLen := false }
    env     := { mem := [], inputs := [], readAnswers := [], writeAnswers := [], contAnswers := [], draws := 0,
                 trace := [], response := none } }

end Sys2Proof.Machine
end

