-- ==== Sys2Proof/Machine/Ops.lean ====
section
/-! DEFINITION. The named operations over the state that the meanings share: PDU memory, the configuration tables, the
transport and continuation ports, the response, entering and leaving ERROR, reset. -/
namespace Sys2Proof.Machine

/-- The result of a part of an operation: a value, or the reason the step stops. -/
abbrev Res (α : Type) := Host.Outcome α Fault Refusal

/-- Go on with the value of `x`, or stop as `x` stops. -/
def andThen {α β : Type} (x : Res α) (f : α → Res β) : Res β :=
  match x with
  | .next a => f a
  | .fault r => .fault r
  | .refused r => .refused r

/-! ### PDU memory (R60 to R65, R74) -/

/-- The byte placed at `a`, if one is. -/
def memGet : Memory → Nat → Option Byte
  | [], _ => none
  | (k, v) :: m, a => if a = k then some v else memGet m a

/-- Place `v` at `a`, keeping the addresses rising. -/
def memPut : Memory → Nat → Byte → Memory
  | [], a, v => [(a, v)]
  | (k, w) :: m, a, v =>
    if a < k then (a, v) :: (k, w) :: m
    else if a = k then (a, v) :: m
    else (k, w) :: memPut m a v

/-- Place the bytes of a list in its order. -/
def memPutAll : Memory → List (Nat × Byte) → Memory
  | m, [] => m
  | m, (a, v) :: ws => memPutAll (memPut m a v) ws

/-- Every address of `m` is above `lo`, or `m` starts anywhere when `lo` is none; addresses strictly rise. -/
def risingFrom : Option Nat → Memory → Bool
  | _, [] => true
  | none, (k, _) :: m => risingFrom (some k) m
  | some lo, (k, _) :: m => decide (lo < k) && risingFrom (some k) m

/-- The canonical form: addresses strictly rise. An unlisted address holds no value, so no entry can equal it. -/
def memWf (m : Memory) : Bool := risingFrom none m

/-- Note a request on the ports' record. -/
def note (e : Event) (s : State) : State := { s with env.trace := s.env.trace ++ [e] }

/-- An address the framer forms is `base + index`; past `2^ADDR_W - 1` there is none (R63, R74 (a), U5). -/
def inSpace (P : Params) (a : Nat) : Bool := decide (a < 2 ^ P.addrW)

/-- The byte at an address the framer reaches: inside the space and placed (R67, U5). -/
def placedByte (a : Nat) (s : State) : Res Byte :=
  if inSpace s.params a then
    match memGet s.env.mem a with
    | some v => .next v
    | none => .fault .unplacedByte
  else .fault .addressOutsideSpace

/-- `MemRead(a, 1)` (R63): the byte, with the request noted. -/
def memRead (a : Nat) (s : State) : Res (Byte × State) :=
  andThen (placedByte a s) fun v => .next (v, note (.memRead a v) s)

/-- `MemWrite(a, 1, v)` (R64): `v` takes the place of the byte there. -/
def memWrite (a : Nat) (v : Byte) (s : State) : Res State :=
  andThen (placedByte a s) fun _ => .next (note (.memWrite a v) { s with env.mem := memPut s.env.mem a v })

/-! ### The configuration (R21, R92) -/

/-- Entry `i` of a table; a table holds `N_CTL` entries and no more. -/
def entryAt (tbl : List Byte) (i : Nat) : Res Byte :=
  match tbl[i]? with
  | some b => .next b
  | none => .refused .tableEntryAbsent

/-- `ctl[i]`. Before any CONFIGURE it is what the register holds since reset (log entry 3). -/
def readCtl (i : Nat) (s : State) : Res Byte := entryAt s.cfg.ctl i

/-- `esc[i]` -/
def readEsc (i : Nat) (s : State) : Res Byte := entryAt s.cfg.esc i

/-- The least index at or above `i` whose entry is `b`, looking at `bound` entries of `tbl`, the first being entry `i`. -/
def scanTable : List Byte → Nat → Byte → Nat → Res (Option Nat)
  | _, 0, _, _ => .next none
  | [], _ + 1, _, _ => .refused .tableEntryAbsent
  | x :: xs, n + 1, b, i => if x = b then .next (some i) else scanTable xs n b (i + 1)

/-- `LookupCtl(b)` (R92) -/
def lookupCtl (b : Byte) (s : State) : Res (Option Nat) := scanTable s.cfg.ctl s.cfg.num b 0

/-- `LookupEsc(b)` (R92) -/
def lookupEsc (b : Byte) (s : State) : Res (Option Nat) := scanTable s.cfg.esc s.cfg.num b 0

/-- The control identifiers SOF, ESC, EOF as indices (R21, D5). -/
def idSOF : Nat := 0
def idESC : Nat := 1
def idEOF : Nat := 2

/-! ### The transport ports (R215): the next scripted answer, or a free one when the script is used up -/

/-- The answer to the next "write one byte" request. -/
def drawWrite (s : State) : Bool × State :=
  match s.env.writeAnswers with
  | a :: rest => (a, { s with env.writeAnswers := rest })
  | [] => (Config.freeWrite s.env.draws, { s with env.draws := s.env.draws + 1 })

/-- The answer to the next "read one byte" request. -/
def drawRead (s : State) : Option Byte × State :=
  match s.env.readAnswers with
  | a :: rest => (a, { s with env.readAnswers := rest })
  | [] => (Config.freeRead s.env.draws, { s with env.draws := s.env.draws + 1 })

/-- `TpWrite(tp_handle, b)`: the answer changes no state element (R211). -/
def tpWrite (b : Byte) (s : State) : State :=
  let r := drawWrite s
  note (.tpWrite s.handle b r.1) r.2

/-- `TpRead(tp_handle)` -/
def tpRead (s : State) : Option Byte × State :=
  let r := drawRead s
  (r.1, note (.tpRead s.handle r.1) r.2)

/-! ### The continuation port (R145) -/

/-- An answer as the port's lines carry it: each value in the width of the register it replaces. -/
def onPort (P : Params) (a : ContAnswer) : ContAnswer :=
  { more := a.more
    data := a.data % 2 ^ P.addrW
    len := a.len % 2 ^ P.lenW
    pos := a.pos % 2 ^ P.lenW
    writes := a.writes.map fun w => (w.1 % 2 ^ P.addrW, w.2) }

/-- A free answer brought within the obligations of R145. Every obliging answer in the ports' widths is itself under
it, so a free answer may be any of them and no other. -/
def obliging (P : Params) (a : ContAnswer) : ContAnswer :=
  let len := a.len % 2 ^ P.lenW
  { more := a.more
    data := if a.data % 2 ^ P.addrW = 0 then 1 else a.data % 2 ^ P.addrW
    len := len
    pos := a.pos % (len + 1)
    writes := a.writes.map fun w => (w.1 % 2 ^ P.addrW, w.2) }

/-- The answer to the next continuation request. -/
def drawCont (s : State) : ContAnswer × State :=
  match s.env.contAnswers with
  | a :: rest => (onPort s.params a, { s with env.contAnswers := rest })
  | [] => (obliging s.params (Config.freeCont s.env.draws), { s with env.draws := s.env.draws + 1 })

/-- `Cont(tx_data, tx_len, tx_pos)`: the continuation sees the three registers, may write PDU memory, and answers. -/
def contRequest (s : State) : ContAnswer × State :=
  let r := drawCont s
  (r.1, note (.cont s.tx.data s.tx.len s.tx.pos r.1) { r.2 with env.mem := memPutAll r.2.env.mem r.1.writes })

/-! ### Responses (R97) -/

/-- The command completes with status `st`; a command returns no data (R97). -/
def respond (st : Status) (s : State) : State := { s with env.response := some { status := st, byte := none } }

/-- TXBYTE completes with `(st, b)` (R10, R141). -/
def respondByte (st : Status) (b : Option Byte) (s : State) : State :=
  { s with env.response := some { status := st, byte := b } }

/-! ### The ERROR state: the one event with an entry sequence (R230, R238, R239) -/

/-- Receive overflow: `rx_state <- ERROR`; nothing is saved and nothing else is written (R182, R238). -/
def enterError (s : State) : State := { s with rx.state := .error }

/-- The end of the overflowed frame: `rx_pos <- 0`, `rx_state <- IDLE`; nothing is restored (R180, R239). -/
def leaveError (s : State) : State := { s with rx.pos := 0, rx.state := .idle }

/-! ### Reset and the host's memory writes -/

/-- The reset input (R35, R260): the elements R35 gives a value take it, the others become unwritten; memory, the
ports' scripts and the record are the environment's and stay. No command has been answered since. -/
def hwReset (s : State) : State :=
  { s with
    cfg := { ctl := List.replicate s.params.nCtl 0, esc := List.replicate s.params.nCtl 0, num := 0 }
    bound := false
    handle := 0
    tx := { state := .config, data := 0, len := 0, pos := 0, escid := 0 }
    rx := { state := .idle, buf := 0, cap := 0, pos := 0, len := 0 }
    rxLast := .ok
    written := { cfg := false, handle := false, tx := false, escid := false, rx := false, rxLen := false }
    env.response := none }

/-- The host writes a byte of PDU memory (R69, R72 (b)); the address is as wide as the space. -/
def hostWrite (a : Nat) (v : Byte) (s : State) : State :=
  { s with env.mem := memPut s.env.mem (a % 2 ^ s.params.addrW) v }

/-- Take the oldest input off the list of inputs. -/
def nextInput (s : State) : Option (Input × State) :=
  match s.env.inputs with
  | [] => none
  | i :: rest => some (i, { s with env.inputs := rest })

end Sys2Proof.Machine
end

