-- ==== Sys2Proof/Machine/Operands.lean ====
section
/-! DEFINITION. The operand checks of the commands (R96, R121, R140, R170) and the status port's element names (R20). -/
namespace Sys2Proof.Machine

/-- A PDU operand that SUBMIT and SUPPLY accept: not null, non-null data, non-zero length or capacity. A null pointer
is the value 0 (R96; general knowledge G2, log entry 18). With `pdu_null = 1` the other two are not examined. -/
def pduAccepted (pduNull : Bool) (data size : Nat) : Bool := !pduNull && (data != 0 && size != 0)

/-- No transmit frame is in flight, or none was ever possible: BIND's condition (R121). -/
def bindAllowed : TxState → Bool
  | .config | .idle | .finished => true
  | .sof | .data | .esc | .eof => false

/-- SUBMIT's condition on `tx_state` (R140). -/
def submitAllowed : TxState → Bool
  | .idle | .finished => true
  | .config | .sof | .data | .esc | .eof => false

/-- SUPPLY's condition on `rx_state` (R170). -/
def supplyAllowed : RxState → Bool
  | .idle | .finished => true
  | .sof | .data | .esc | .error => false

/-- The state elements of R20, as the status port names them. -/
inductive Element where
  | ctl (i : Nat) | esc (i : Nat) | num
  | tpBound | tpHandle
  | txState | txData | txLen | txPos | txEscid
  | rxState | rxBuf | rxCap | rxPos | rxLen
  | rxLast
  deriving DecidableEq, Repr

end Sys2Proof.Machine
end

