-- ==== Sys2Proof/Machine/Flags.lean ====
section
/-! DEFINITION. The statuses, the framer's only flags (R33): what GETTX and GETRX report, the numeric codes of the
states and statuses, and the status port. -/
namespace Sys2Proof.Machine

/-- What GETTX answers (R149). -/
def txStatus : TxState → Status
  | .finished => .frameFinished
  | .config | .idle | .sof | .data | .esc | .eof => .pending

/-- What GETRX answers (R183). -/
def rxStatus : RxState → Status
  | .finished => .frameFinished
  | .idle => .ok
  | .sof | .data | .esc | .error => .pending

/-- The codes of R24 (D4). -/
def txCode : TxState → Nat
  | .config => 0 | .idle => 1 | .sof => 2 | .data => 3 | .esc => 4 | .eof => 5 | .finished => 6

/-- The codes of R28 (D4). -/
def rxCode : RxState → Nat
  | .idle => 0 | .sof => 1 | .data => 2 | .esc => 3 | .finished => 4 | .error => 5

/-- The codes of R33 (D3). -/
def statusCode : Status → Nat
  | .ok => 0 | .pending => 1 | .byteReceived => 2 | .frameFinished => 3 | .invalidArgument => 4

/-- The host reads one element on the status port (R20, R242): no side effect, so the state is no part of the answer.
An element nothing has written since reset reads as its register too (log entry 3). A table has `N_CTL` entries and no
more (log entry 5). -/
def statusPort (s : State) : Element → Res Nat
  | .ctl i => andThen (readCtl i s) fun b => .next b.toNat
  | .esc i => andThen (readEsc i s) fun b => .next b.toNat
  | .num => .next s.cfg.num
  | .tpBound => .next s.bound.toNat
  | .tpHandle => .next s.handle
  | .txState => .next (txCode s.tx.state)
  | .txData => .next s.tx.data
  | .txLen => .next s.tx.len
  | .txPos => .next s.tx.pos
  | .txEscid => .next s.tx.escid
  | .rxState => .next (rxCode s.rx.state)
  | .rxBuf => .next s.rx.buf
  | .rxCap => .next s.rx.cap
  | .rxPos => .next s.rx.pos
  | .rxLen => .next s.rx.len
  | .rxLast => .next (statusCode s.rxLast)

/-- Whether an element holds a value a program may rely on: one the reset gives it, or one written since (R35). -/
def elementWritten (s : State) : Element → Bool
  | .ctl _ | .esc _ | .num => s.written.cfg
  | .tpHandle => s.written.handle
  | .txData | .txLen | .txPos => s.written.tx
  | .txEscid => s.written.escid
  | .rxBuf | .rxCap | .rxPos => s.written.rx
  | .rxLen => s.written.rxLen
  | .tpBound | .txState | .rxState | .rxLast => true

end Sys2Proof.Machine
end

