-- ==== Sys2Proof/Machine/Receive.lean ====
section
/-! DEFINITION. The receive engine: SUPPLY (R170), RXBYTE (R171 to R180), RxStore (R182), GETRX (R183), CLRRX (R184). -/
namespace Sys2Proof.Machine

/-- SUPPLY (R170). -/
def execSupply (pduNull : Bool) (data cap : Nat) (s : State) : Res State :=
  if supplyAllowed s.rx.state && (pduAccepted pduNull data cap && s.bound) then
    .next (respond .ok { s with
      rx.buf := data, rx.cap := cap, rx.pos := 0, rx.state := .sof, written.rx := true })
  else .next (respond .invalidArgument s)

/-- RxStore (R182): store at the cursor, or enter ERROR when the buffer is full. -/
def rxStore (v : Byte) (s : State) : Res State :=
  if s.rx.pos < s.rx.cap then
    andThen (memWrite (s.rx.buf + s.rx.pos) v s) fun t => .next { t with rx.pos := s.rx.pos + 1 }
  else .next (enterError s)

/-- What RXBYTE hands back to its caller beside the state: the status. -/
abbrev RxResult := State × Status

/-- RXBYTE in SOF (R173). -/
def rxSof (b : Byte) (s : State) : Res RxResult :=
  andThen (readCtl idSOF s) fun c =>
    if b = c then .next ({ s with rx.pos := 0, rx.state := .data }, .byteReceived)
    else .next (s, .byteReceived)

/-- RXBYTE in DATA: SOF, then ESC, then EOF, then data (R174 to R177, R237 (b)). -/
def rxData (b : Byte) (s : State) : Res RxResult :=
  andThen (readCtl idSOF s) fun sof =>
    if b = sof then .next ({ s with rx.pos := 0 }, .byteReceived)
    else
      andThen (readCtl idESC s) fun esc =>
        if b = esc then .next ({ s with rx.state := .esc }, .byteReceived)
        else
          andThen (readCtl idEOF s) fun eof =>
            if b = eof then
              .next ({ s with rx.len := s.rx.pos, rx.state := .finished, written.rxLen := true }, .frameFinished)
            else andThen (rxStore b s) fun t => .next (t, .byteReceived)

/-- The data byte that the second byte of an escape pair stands for (R179). -/
def unescape (b : Byte) (s : State) : Res Byte :=
  andThen (lookupEsc b s) fun m =>
    match m with
    | some i => readCtl i s
    | none => .next b

/-- RXBYTE in ESC (R179): an overflow wins over the return to DATA. -/
def rxEsc (b : Byte) (s : State) : Res RxResult :=
  andThen (unescape b s) fun v =>
    andThen (rxStore v { s with rx.state := .data }) fun t => .next (t, .byteReceived)

/-- RXBYTE in ERROR (R180). -/
def rxError (b : Byte) (s : State) : Res RxResult :=
  andThen (readCtl idEOF s) fun eof =>
    if b = eof then .next (leaveError s, .frameFinished) else .next (s, .byteReceived)

/-- RXBYTE (R171): consume one wire byte. -/
def rxByte (b : Byte) (s : State) : Res RxResult :=
  match s.rx.state with
  | .idle => .next (s, .byteReceived)
  | .sof => rxSof b s
  | .data => rxData b s
  | .esc => rxEsc b s
  | .finished => .next (s, .frameFinished)
  | .error => rxError b s

/-- RXBYTE as an operation of its own: the status it returns stands on the response port; only STEP records it in
`rx_last` (R31, R212; log entry 13). -/
def execRxbyte (b : Byte) (s : State) : Res State :=
  andThen (rxByte b s) fun r => .next (respond r.2 r.1)

/-- GETRX (R183). -/
def execGetrx (s : State) : Res State := .next (respond (rxStatus s.rx.state) s)

/-- CLRRX (R184). -/
def execClrrx (s : State) : Res State :=
  if s.rx.state = .finished then .next (respond .ok { s with rx.state := .idle })
  else .next (respond .ok s)

end Sys2Proof.Machine
end

