-- ==== Sys2Proof/Machine/Transmit.lean ====
section
/-! DEFINITION. The transmit engine: SUBMIT (R140), TXBYTE (R141 to R148), GETTX (R149), CLRTX (R150). -/
namespace Sys2Proof.Machine

/-- SUBMIT (R140). -/
def execSubmit (pduNull : Bool) (data len : Nat) (s : State) : Res State :=
  if submitAllowed s.tx.state && (pduAccepted pduNull data len && s.bound) then
    .next (respond .ok { s with
      tx.data := data, tx.len := len, tx.pos := 0, tx.state := .sof, written.tx := true })
  else .next (respond .invalidArgument s)

/-- What TXBYTE hands back to its caller beside the state: the status and the byte (R10, R141). -/
abbrev TxResult := State × Status × Option Byte

/-- TXBYTE in SOF (R143). -/
def txSof (s : State) : Res TxResult :=
  andThen (readCtl idSOF s) fun b => .next ({ s with tx.state := .data }, .ok, some b)

/-- What becomes of the payload byte TXBYTE has taken (R144): the byte itself, or ESC with the identifier remembered. -/
def txEmit (b : Byte) (s : State) : Res TxResult :=
  andThen (lookupCtl b s) fun m =>
    match m with
    | some i =>
      andThen (readCtl idESC s) fun e =>
        .next ({ s with tx.escid := i, tx.state := .esc, written.escid := true }, .ok, some e)
    | none => .next (s, .ok, some b)

/-- TXBYTE in DATA with payload remaining (R144). -/
def txTake (s : State) : Res TxResult :=
  andThen (memRead (s.tx.data + s.tx.pos) s) fun r => txEmit r.1 { r.2 with tx.pos := s.tx.pos + 1 }

/-- TXBYTE in the transient state EOF (R147). -/
def txEof (s : State) : Res TxResult :=
  andThen (readCtl idEOF s) fun b => .next ({ s with tx.state := .finished }, .ok, some b)

/-- The frame ends: through the transient EOF state to FINISHED (R146, R147). -/
def txEnd (s : State) : Res TxResult := txEof { s with tx.state := .eof }

/-- The continuation's values replace pointer, length and position at once (R146). -/
def contLoad (a : ContAnswer) (s : State) : State :=
  { s with tx.data := a.data, tx.len := a.len, tx.pos := a.pos, written.tx := true }

/-- TXBYTE in DATA with payload exhausted (R146): the continuation is asked at most once. -/
def txExhausted (s : State) : Res TxResult :=
  if s.params.hasCont then
    let r := contRequest s
    if r.1.more then
      if r.1.pos < r.1.len then txTake (contLoad r.1 r.2) else txEnd (contLoad r.1 r.2)
    else txEnd r.2
  else txEnd s

/-- TXBYTE in ESC (R148). -/
def txEsc (s : State) : Res TxResult :=
  andThen (readEsc s.tx.escid s) fun b => .next ({ s with tx.state := .data }, .ok, some b)

/-- TXBYTE (R141): at most one wire byte. -/
def txByte (s : State) : Res TxResult :=
  match s.tx.state with
  | .config => .next (s, .pending, none)
  | .idle => .next (s, .pending, none)
  | .sof => txSof s
  | .data => if s.tx.pos < s.tx.len then txTake s else txExhausted s
  | .esc => txEsc s
  | .eof => txEof s
  | .finished => .next (s, .pending, none)

/-- TXBYTE as an operation of its own: the pair it returns stands on the response port (log entry 13). -/
def execTxbyte (s : State) : Res State :=
  andThen (txByte s) fun r => .next (respondByte r.2.1 r.2.2 r.1)

/-- GETTX (R149). -/
def execGettx (s : State) : Res State := .next (respond (txStatus s.tx.state) s)

/-- CLRTX (R150). -/
def execClrtx (s : State) : Res State :=
  if s.tx.state = .finished then .next (respond .ok { s with tx.state := .idle })
  else .next (respond .ok s)

end Sys2Proof.Machine
end

