-- ==== Sys2Proof/Machine/Driver.lean ====
section
/-! DEFINITION. The cyclic driver STEP (R210 to R213) and the reserved opcodes (R98). -/
namespace Sys2Proof.Machine

/-- A frame is in flight, so a transmit byte is ready (R211; C6 settles CONFIG). -/
def txReady : TxState → Bool
  | .sof | .data | .esc | .eof => true
  | .config | .idle | .finished => false

/-- The transmit half of STEP (R211): the write's answer changes nothing. -/
def txHalf (s : State) : Res State :=
  if txReady s.tx.state then
    andThen (txByte s) fun r =>
      match r.2.2 with
      | some b => .next (tpWrite b r.1)
      | none => .next r.1
  else .next s

/-- What the driver does with the answer of its read (R212): feed the byte and record the status, or nothing. -/
def rxFeedAnswer (a : Option Byte) (s : State) : Res State :=
  match a with
  | some b => andThen (rxByte b s) fun r => .next { r.1 with rxLast := r.2 }
  | none => .next s

/-- The receive half of STEP (R212): one read in every state but IDLE. -/
def rxHalf (s : State) : Res State :=
  if s.rx.state = .idle then .next s
  else
    let r := tpRead s
    rxFeedAnswer r.1 r.2

/-- STEP (R210): the transmit half, then the receive half (R213). -/
def execStep (s : State) : Res State :=
  andThen (txHalf s) fun t => andThen (rxHalf t) fun u => .next (respond .ok u)

/-- A reserved opcode: no effect, INVALID_ARGUMENT (R98). -/
def reservedCommand (s : State) : Res State := .next (respond .invalidArgument s)

/-- Reserved opcode 0x0. -/
def execReserved0 (s : State) : Res State := reservedCommand s

/-- Reserved opcodes 0xA, 0xB. -/
def execReservedAB (_x : BitVec 1) (s : State) : Res State := reservedCommand s

/-- Reserved opcodes 0xC to 0xF. -/
def execReservedCF (_x : BitVec 2) (s : State) : Res State := reservedCommand s

end Sys2Proof.Machine
end

