-- ==== Sys2Proof/Machine/Setup.lean ====
section
/-! DEFINITION. The setup commands CONFIGURE (R120) and BIND (R121). -/
namespace Sys2Proof.Machine

/-- CONFIGURE (R120): accepted in every state, checks nothing, writes exactly the elements of its pseudocode. -/
def execConfigure (ctl esc : List Byte) (num : Nat) (s : State) : Res State :=
  .next (respond .ok { s with
    cfg := { ctl := ctl, esc := esc, num := num }
    rx.state := .idle
    tx.state := .config
    bound := false
    rxLast := .ok
    written.cfg := true })

/-- BIND (R121): `rx_state` is neither examined nor written, and any handle is accepted. -/
def execBind (h : Nat) (s : State) : Res State :=
  if bindAllowed s.tx.state then
    .next (respond .ok { s with handle := h, bound := true, tx.state := .idle, written.handle := true })
  else .next (respond .invalidArgument s)

end Sys2Proof.Machine
end

