-- ==== Sys2Proof/Machine/Dispatch.lean ====
section
/-! DEFINITION. One arm for each constructor of Instr. -/
namespace Sys2Proof.Machine

def exec (i : Instr) (s : State) : Host.Outcome State Fault Refusal :=
  match i with
  | .configure ctl esc num => Sys2Proof.Machine.execConfigure ctl esc num s
  | .bind h => Sys2Proof.Machine.execBind h s
  | .submit n d l => Sys2Proof.Machine.execSubmit n d l s
  | .supply n d c => Sys2Proof.Machine.execSupply n d c s
  | .gettx => Sys2Proof.Machine.execGettx s
  | .clrtx => Sys2Proof.Machine.execClrtx s
  | .getrx => Sys2Proof.Machine.execGetrx s
  | .clrrx => Sys2Proof.Machine.execClrrx s
  | .step => Sys2Proof.Machine.execStep s
  | .reserved0 => Sys2Proof.Machine.execReserved0 s
  | .reservedAB x => Sys2Proof.Machine.execReservedAB x s
  | .reservedCF x => Sys2Proof.Machine.execReservedCF x s
  | .txbyte => Sys2Proof.Machine.execTxbyte s
  | .rxbyte b => Sys2Proof.Machine.execRxbyte b s

end Sys2Proof.Machine
end

