-- ==== Sys2Proof/Machine/Step.lean ====
section
/-! DEFINITION. One step of the channel: take the oldest input and act on it. The framer has no program counter (R37)
and executes nothing until a command arrives (R35). Log entry 11. -/
namespace Sys2Proof.Machine

/-- Run the command on the command port. -/
def runCommand (w : Nat) (s : State) : Host.Outcome State Fault Refusal :=
  match decode s.params w with
  | .ok i => exec i s
  | .error .excessBits => .refused .excessCommandBits

/-- One input, to completion (R8); with no input the framer holds its state (R245). -/
def step (s : State) : Host.Outcome State Fault Refusal :=
  match nextInput s with
  | none => .next s
  | some (.command w, t) => runCommand w t
  | some (.reset, t) => .next (hwReset t)
  | some (.hostWrite a v, t) => .next (hostWrite a v t)

/-- `s` with the low `nbits` bits of `w` as the command that arrives next. -/
def State.withFetchWord (s : State) (nbits w : Nat) : State :=
  { s with env.inputs := .command (w % 2 ^ nbits) :: s.env.inputs }

end Sys2Proof.Machine
end

