-- ==== Sys2Proof/Safety.lean ====
section
/-! DEFINITION. The terms claims about the framer are stated in: legal configurations (R22), the invariant (R34), what
the wire carries for a payload (R90, R91), runs of the engines, and the premises on the environment (U5, R278). -/
namespace Sys2Proof.Machine

/-! ### Configurations -/

/-- The least `i < num` with `tbl[i] = b`, or none (R92). -/
def lookupIn (tbl : List Byte) (num : Nat) (b : Byte) : Option Nat := (tbl.take num).findIdx? (fun x => x == b)

/-- A legal configuration: clauses (a) to (d) of R22. -/
structure CfgLegal (P : Params) (c : CfgRegs) : Prop where
  numInRange  : 3 ≤ c.num ∧ c.num ≤ P.nCtl
  ctlDistinct : ∀ i < c.num, ∀ j < c.num, i ≠ j → c.ctl[i]? ≠ c.ctl[j]?
  escNotCtl   : ∀ i < c.num, ∀ j < c.num, c.esc[i]? ≠ c.ctl[j]?
  escDistinct : ∀ i < c.num, ∀ j < c.num, i ≠ j → c.esc[i]? ≠ c.esc[j]?

/-- `CfgLegal` as a computation. -/
def cfgLegal (P : Params) (c : CfgRegs) : Bool :=
  decide (3 ≤ c.num ∧ c.num ≤ P.nCtl) &&
    (decide (∀ i < c.num, ∀ j < c.num, i ≠ j → c.ctl[i]? ≠ c.ctl[j]?) &&
      (decide (∀ i < c.num, ∀ j < c.num, c.esc[i]? ≠ c.ctl[j]?) &&
        decide (∀ i < c.num, ∀ j < c.num, i ≠ j → c.esc[i]? ≠ c.esc[j]?)))

/-- The step as the last clause of R22 and U1 have a claim read it: a run has no meaning once an illegal configuration
is loaded. The hardware itself goes on, as R120 (d) says, and so does `step` (log entry 4). -/
def stepUnderLegalCfg (s : State) : Host.Outcome State Fault Refusal :=
  if s.written.cfg && !cfgLegal s.params s.cfg then .refused .illegalConfiguration else step s

/-- Every entry that `num` lets a lookup reach exists: the upper half of clause (a) of R22. -/
def Configured (s : State) : Prop := s.cfg.num ≤ s.params.nCtl

/-! ### Memory the framer reaches -/

/-- A byte is placed at `a`, inside the address space (U5). -/
abbrev placed (P : Params) (m : Memory) (a : Nat) : Prop := a < 2 ^ P.addrW ∧ (memGet m a).isSome = true

/-- An access to `a` stops with `f` (R67, R74, U5; which fault is the model's: log entries 6 and 7). -/
abbrev stopsAt (P : Params) (m : Memory) (a : Nat) (f : Fault) : Prop :=
  (2 ^ P.addrW ≤ a ∧ f = .addressOutsideSpace) ∨ (a < 2 ^ P.addrW ∧ memGet m a = none ∧ f = .unplacedByte)

/-- The host supplied `n` bytes of memory at `base`. -/
abbrev bufferAt (P : Params) (m : Memory) (base n : Nat) : Prop := ∀ i < n, placed P m (base + i)

/-! ### The invariant -/

/-- Every listed address is inside the address space of `P`. -/
def memInSpace (P : Params) (m : Memory) : Prop := ∀ c ∈ m, c.1 < 2 ^ P.addrW

/-- Every element has the width R20 gives it, and memory has its canonical form. -/
structure Shape (s : State) : Prop where
  params : s.params.Legal
  ctl    : s.cfg.ctl.length = s.params.nCtl
  esc    : s.cfg.esc.length = s.params.nCtl
  num    : s.cfg.num < 2 ^ s.params.numW
  handle : s.handle < 2 ^ s.params.handleW
  txData : s.tx.data < 2 ^ s.params.addrW
  txLen  : s.tx.len < 2 ^ s.params.lenW
  txPos  : s.tx.pos < 2 ^ s.params.lenW
  escid  : s.tx.escid < 2 ^ s.params.escidW
  rxBuf  : s.rx.buf < 2 ^ s.params.addrW
  rxCap  : s.rx.cap < 2 ^ s.params.lenW
  rxPos  : s.rx.pos < 2 ^ s.params.lenW
  rxLen  : s.rx.len < 2 ^ s.params.lenW
  mem    : memWf s.env.mem = true
  space  : memInSpace s.params s.env.mem

/-- The clauses (a) to (g) of R34; clause (f) also says that the remembered identifier has a table entry. -/
structure Coherent (s : State) : Prop where
  /-- (a) -/
  boundIff    : s.bound = true ↔ s.tx.state ≠ .config
  /-- (b) -/
  rxBound     : s.rx.state ≠ .idle → s.bound = true
  /-- (c) -/
  txPosLe     : s.tx.state = .sof ∨ s.tx.state = .data ∨ s.tx.state = .esc → s.tx.pos ≤ s.tx.len
  /-- (d) -/
  rxPosLe     : s.rx.state ≠ .idle → s.rx.pos ≤ s.rx.cap
  rxFinished  : s.rx.state = .finished → s.rx.len = s.rx.pos
  /-- (e) -/
  notEof      : s.tx.state ≠ .eof
  /-- (f) -/
  escidFound  : s.tx.state = .esc → s.tx.escid < s.cfg.num ∧ s.tx.escid < s.params.nCtl ∧ s.written.escid = true
  /-- (g) -/
  txWritten   : s.tx.state ≠ .config → s.tx.state ≠ .idle → s.written.tx = true
  rxWritten   : s.rx.state ≠ .idle → s.written.rx = true

/-- The premise R34 (c) puts on the continuation: every answer it still has to give keeps the obligations of R145 in
the width of the port. -/
def ContsOblige (s : State) : Prop := ∀ a ∈ s.env.contAnswers, (onPort s.params a).Obliging

/-- The invariant of the channel: R34 with the widths of R20, and the premise on the continuation carried along. -/
structure ChanInv (s : State) : Prop where
  shape    : Shape s
  coherent : Coherent s
  conts    : ContsOblige s

/-! ### What one operation asks of the environment -/

/-- TXBYTE would ask the continuation in `s` (R146). -/
def contAsked (s : State) : Bool :=
  s.tx.state == .data && (!decide (s.tx.pos < s.tx.len) && s.params.hasCont)

/-- What the continuation would write to PDU memory inside TXBYTE in `s`; nothing when it is not asked (R145). -/
def contWrites (s : State) : List (Nat × Byte) := if contAsked s then (contRequest s).1.writes else []

/-- The address TXBYTE would read in `s`, and the memory it would read it from (R63, R144, R146). -/
def txReads (s : State) : Option (Nat × Memory) :=
  if s.tx.state = .data ∧ s.tx.pos < s.tx.len then some (s.tx.data + s.tx.pos, s.env.mem)
  else if contAsked s = true ∧ (contRequest s).1.more = true ∧ (contRequest s).1.pos < (contRequest s).1.len then
    some ((contRequest s).1.data + (contRequest s).1.pos, (contRequest s).2.env.mem)
  else none

/-- The payload byte TXBYTE would read is placed (U5). -/
def TxReadable (s : State) : Prop := ∀ r, txReads s = some r → placed s.params r.2 r.1

/-- The address RxStore stores to in `s` (R64, R182). -/
def rxStoreAddr (s : State) : Nat := s.rx.buf + s.rx.pos

/-- The byte RxStore would store, if any, goes where a byte is placed (U5). -/
def RxWritable (s : State) : Prop := s.rx.pos < s.rx.cap → placed s.params s.env.mem (rxStoreAddr s)

/-- The requests made between `s` and `t`, in order. -/
def newEvents (s t : State) : List Event := t.env.trace.drop s.env.trace.length

/-- The bytes among some requests that the framer handed to the transport, in order (R211). -/
def wireBytes : List Event → List Byte
  | [] => []
  | .tpWrite _ b _ :: es => b :: wireBytes es
  | .memRead _ _ :: es => wireBytes es
  | .memWrite _ _ :: es => wireBytes es
  | .tpRead _ _ :: es => wireBytes es
  | .cont _ _ _ _ :: es => wireBytes es

/-- The requests of one kind among some requests. -/
def Event.isMemRead : Event → Bool
  | .memRead _ _ => true
  | .memWrite _ _ | .tpWrite _ _ _ | .tpRead _ _ | .cont _ _ _ _ => false
def Event.isMemWrite : Event → Bool
  | .memWrite _ _ => true
  | .memRead _ _ | .tpWrite _ _ _ | .tpRead _ _ | .cont _ _ _ _ => false
def Event.isTpWrite : Event → Bool
  | .tpWrite _ _ _ => true
  | .memRead _ _ | .memWrite _ _ | .tpRead _ _ | .cont _ _ _ _ => false
def Event.isTpRead : Event → Bool
  | .tpRead _ _ => true
  | .memRead _ _ | .memWrite _ _ | .tpWrite _ _ _ | .cont _ _ _ _ => false
def Event.isCont : Event → Bool
  | .cont _ _ _ _ => true
  | .memRead _ _ | .memWrite _ _ | .tpWrite _ _ _ | .tpRead _ _ => false

/-! ### What STEP asks of the transport -/

/-- No transmit frame is in flight (R211; C6 settles CONFIG). -/
abbrev TxQuiet (s : State) : Prop := s.tx.state = .config ∨ s.tx.state = .idle ∨ s.tx.state = .finished

/-- A transmit frame is in flight (R211). -/
abbrev TxInFlight (s : State) : Prop :=
  s.tx.state = .sof ∨ s.tx.state = .data ∨ s.tx.state = .esc ∨ s.tx.state = .eof

/-- `t` is `s` after the transport was asked to write `b` to `tp_handle` and answered `ok`: its next scripted answer, or
a free one past the script (R211, R215). -/
def WriteAnswered (b : Byte) (ok : Bool) (s t : State) : Prop :=
  (∃ rest, s.env.writeAnswers = ok :: rest ∧
    t = { s with env.writeAnswers := rest, env.trace := s.env.trace ++ [.tpWrite s.handle b ok] }) ∨
  (s.env.writeAnswers = [] ∧ ok = Config.freeWrite s.env.draws ∧
    t = { s with env.draws := s.env.draws + 1, env.trace := s.env.trace ++ [.tpWrite s.handle b ok] })

/-- `t` is `s` after the transport was asked for one byte of `tp_handle` and answered `a`: its next scripted answer, or
a free one past the script (R212, R215). -/
def ReadAnswered (a : Option Byte) (s t : State) : Prop :=
  (∃ rest, s.env.readAnswers = a :: rest ∧
    t = { s with env.readAnswers := rest, env.trace := s.env.trace ++ [.tpRead s.handle a] }) ∨
  (s.env.readAnswers = [] ∧ a = Config.freeRead s.env.draws ∧
    t = { s with env.draws := s.env.draws + 1, env.trace := s.env.trace ++ [.tpRead s.handle a] })

/-- `t` is `s` after the transmit half of STEP (R211): `s` itself with no frame in flight, else what TXBYTE leaves with
the byte it produced written to the transport; the command has not answered yet. -/
def TransmitHalfLeaves (s t : State) : Prop :=
  (TxQuiet s ∧ t = s) ∨
  (TxInFlight s ∧ ∃ u st b ok, exec .txbyte s = .next u ∧ u.env.response = some { status := st, byte := some b } ∧
    WriteAnswered b ok { u with env.response := s.env.response } t)

/-! ### Frames -/

/-- `Stuff(b)` (R91), for a configuration whose tables reach identifier 2 and every found identifier. -/
def stuffOf (c : CfgRegs) (b : Byte) : List Byte :=
  match lookupIn c.ctl c.num b with
  | some i => [c.ctl.getD idESC 0, c.esc.getD i 0]
  | none => [b]

/-- The frame of a payload on the wire (R90). -/
def frameOf (c : CfgRegs) (p : List Byte) : List Byte :=
  c.ctl.getD idSOF 0 :: (p.flatMap (stuffOf c) ++ [c.ctl.getD idEOF 0])

/-- How many bytes of a payload equal some `ctl[i]`, `i < num`: the `k` of R94. -/
def escapesIn (c : CfgRegs) (p : List Byte) : Nat := p.countP fun b => (lookupIn c.ctl c.num b).isSome

/-- `p` stands in memory at `base` (R61: byte `i` of a buffer is at `base + i`). -/
def holdsAt (m : Memory) (base : Nat) (p : List Byte) : Prop := ∀ i < p.length, memGet m (base + i) = p[i]?

/-! ### Runs -/

/-- `n` calls of TXBYTE and what they return, in order. -/
def txPull : Nat → State → Res (State × List (Status × Option Byte))
  | 0, s => .next (s, [])
  | n + 1, s =>
    andThen (txByte s) fun r => andThen (txPull n r.1) fun q => .next (q.1, r.2 :: q.2)

/-- RXBYTE fed the bytes of a list in order, and what the calls return. -/
def rxFeed : List Byte → State → Res (State × List Status)
  | [], s => .next (s, [])
  | b :: bs, s =>
    andThen (rxByte b s) fun r => andThen (rxFeed bs r.1) fun q => .next (q.1, r.2 :: q.2)

/-- `n` STEP commands in a row. -/
def stepRun : Nat → State → Res State
  | 0, s => .next s
  | n + 1, s => andThen (exec .step s) (stepRun n)

/-! ### Premises on the environment that progress needs (R278) -/

/-- Fairness of the continuation: one of the answers it still has to give declines (U11). -/
def ContinuationDeclines (s : State) : Prop := ∃ a ∈ s.env.contAnswers, a.more = false

/-- Fairness of the transport: one of the answers it still has to give to reads brings `b` (U8). -/
def TransportBrings (b : Byte) (s : State) : Prop := some b ∈ s.env.readAnswers

/-- The bytes the transport's answers bring, in order; a failed read brings none (R215). -/
def bytesBrought (s : State) : List Byte := s.env.readAnswers.filterMap id

/-- Along every run of STEPs from `s` the bytes STEP would touch are placed (the host's side of U5). -/
def BuffersStayPlaced (s : State) : Prop := ∀ n t, stepRun n s = .next t → TxReadable t ∧ RxWritable t

end Sys2Proof.Machine
end

