-- ==== Sys2Proof/Certificates/Slice0/Obligations.lean ====
section
/-! DEFINITION. The statements for the provers. Each docstring names the rule it formalises; where a clause rests on a
decision of the spec (92_eei_decisions.md) or on the model's own choice (a log entry), it says so. -/

open Sys2Proof Sys2Proof.Machine

/-! ### Encoding -/

/-- R95, R96, R101 under the model's word layout (log entry 10): a well-formed command has a word and its word decodes
to it, every operand included; exactly the internal micro-operations have no word. -/
def Obligations.DecodeOfEncodedCommand : Prop :=
  ∀ (P : Params) (i : Instr), i.wf P = true →
    (i.internal = true ∧ encode P i = none) ∨
    (i.internal = false ∧ ∃ w, encode P i = some w ∧ decode P w = .ok i)

/-- R95, R96 under the model's word layout (log entry 10): a word that decodes stands for a well-formed instruction,
and it is that instruction's word, so no two words stand for one instruction. -/
def Obligations.EncodeOfDecodedWord : Prop :=
  ∀ (P : Params) (w : Nat) (i : Instr), decode P w = .ok i → i.wf P = true ∧ encode P i = some w

/-- A few words written out from R95 and R96 under State.reset's parameters and the word layout of log entry 10. -/
def Obligations.WordsOfTheOpcodeTable : Prop :=
  decode Config.default
      (0x1 + 16 * (0x11031B02 + 2 ^ 32 * 0x58464553 + 2 ^ 64 * 4)) =
    .ok (.configure [0x02, 0x1B, 0x03, 0x11] [0x53, 0x45, 0x46, 0x58] 4) ∧
  decode Config.default (0x2 + 16 * 1) = .ok (.bind 1) ∧
  decode Config.default (0x3 + 16 * (0 + 2 * (0x1000 + 2 ^ 32 * 5))) = .ok (.submit false 0x1000 5) ∧
  decode Config.default (0x4 + 16 * (1 + 2 * (0x2000 + 2 ^ 32 * 4))) = .ok (.supply true 0x2000 4) ∧
  decode Config.default 0x5 = .ok .gettx ∧
  decode Config.default 0x6 = .ok .clrtx ∧
  decode Config.default 0x7 = .ok .getrx ∧
  decode Config.default 0x8 = .ok .clrrx ∧
  decode Config.default 0x9 = .ok .step ∧
  decode Config.default 0x0 = .ok .reserved0 ∧
  decode Config.default 0xB = .ok (.reservedAB 1) ∧
  decode Config.default 0xE = .ok (.reservedCF 2) ∧
  decode Config.default 0x15 = .error .excessBits

/-! ### The step of the channel and reset -/

/-- R8, R35, log entry 11: when the oldest input is a command whose word decodes to `i`, the step is `exec i` with that
input taken. The second clause, that a word with excess bits is refused, is the model's choice (log entry 10): the spec
gives the command port no line for such a bit. The last two say that the step as R22 and U1 have a claim read it is
refused exactly once an illegal configuration is loaded, and is the step otherwise; that the step itself then goes on,
as R120 (d) says, is log entry 4. -/
def Obligations.StepRunsTheDecodedCommand : Prop :=
  ∀ (s : State),
    (∀ w rest, s.env.inputs = .command w :: rest →
      (∀ i, decode s.params w = .ok i → step s = exec i { s with env.inputs := rest }) ∧
      (decode s.params w = .error .excessBits → step s = .refused .excessCommandBits)) ∧
    (s.written.cfg = true → ¬ CfgLegal s.params s.cfg → stepUnderLegalCfg s = .refused .illegalConfiguration) ∧
    ((s.written.cfg = true → CfgLegal s.params s.cfg) → stepUnderLegalCfg s = step s)

/-- R35, R245, R69, R260 (D23, D28), log entry 11: with no input the framer holds its state; a host write between
commands changes that byte of memory and nothing else; the reset input puts every state element at the value of R35,
or back to unwritten, from any state, and makes no request: memory and the record of requests stay. -/
def Obligations.StepOnOtherInputs : Prop :=
  ∀ (s : State),
    (s.env.inputs = [] → step s = .next s) ∧
    (∀ a v rest, s.env.inputs = .hostWrite a v :: rest → a < 2 ^ s.params.addrW →
      step s = .next { s with env.inputs := rest, env.mem := memPut s.env.mem a v }) ∧
    (∀ rest, s.env.inputs = .reset :: rest →
      ∃ t, step s = .next t ∧ (∀ e, elementWritten t e = elementWritten State.reset e) ∧
        t.tx.state = .config ∧ t.rx.state = .idle ∧ t.bound = false ∧ t.rxLast = .ok ∧
        t.params = s.params ∧ t.env.mem = s.env.mem ∧ t.env.trace = s.env.trace ∧ t.env.inputs = rest)

/-- The table of R35 (D23) as the status port of R20 shows it: four elements have a value after reset, and exactly the
others are unwritten. What an unwritten element reads as is the model's choice (log entries 2 and 3) and no clause. -/
def Obligations.ResetStateOnTheStatusPort : Prop :=
  statusPort State.reset .txState = .next 0 ∧ statusPort State.reset .rxState = .next 0 ∧
  statusPort State.reset .tpBound = .next 0 ∧ statusPort State.reset .rxLast = .next 0 ∧
  ∀ e : Element, elementWritten State.reset e = true ↔ e = .txState ∨ e = .rxState ∨ e = .tpBound ∨ e = .rxLast

/-- R20, R242 with the codes of R24 and R28 (D4) and of R33 (D3): in every state the host reads every element on the
status port, a table entry for each entry the table has. That an element nothing has written since reset (`rx_len`
before a frame has finished, the tables before CONFIGURE) reads as its register too, where R35 and U2 advise a model to
fault, is the model's choice (log entry 3). -/
def Obligations.StatusPortShowsTheRegisters : Prop :=
  ∀ (s : State),
    (∀ i b, s.cfg.ctl[i]? = some b → statusPort s (.ctl i) = .next b.toNat) ∧
    (∀ i b, s.cfg.esc[i]? = some b → statusPort s (.esc i) = .next b.toNat) ∧
    statusPort s .num = .next s.cfg.num ∧
    statusPort s .tpBound = .next (if s.bound = true then 1 else 0) ∧ statusPort s .tpHandle = .next s.handle ∧
    statusPort s .txState = .next (match s.tx.state with
      | .config => 0 | .idle => 1 | .sof => 2 | .data => 3 | .esc => 4 | .eof => 5 | .finished => 6) ∧
    statusPort s .txData = .next s.tx.data ∧ statusPort s .txLen = .next s.tx.len ∧
    statusPort s .txPos = .next s.tx.pos ∧ statusPort s .txEscid = .next s.tx.escid ∧
    statusPort s .rxState = .next (match s.rx.state with
      | .idle => 0 | .sof => 1 | .data => 2 | .esc => 3 | .finished => 4 | .error => 5) ∧
    statusPort s .rxBuf = .next s.rx.buf ∧ statusPort s .rxCap = .next s.rx.cap ∧
    statusPort s .rxPos = .next s.rx.pos ∧ statusPort s .rxLen = .next s.rx.len ∧
    statusPort s .rxLast = .next (match s.rxLast with
      | .ok => 0 | .pending => 1 | .byteReceived => 2 | .frameFinished => 3 | .invalidArgument => 4)

/-! ### Setup commands -/

/-- R120: CONFIGURE in any state and for any tables writes exactly these elements (`rx_last` and the status are D20,
D3), and then SUBMIT and SUPPLY fail. -/
def Obligations.ConfigureLoadsAndDisarms : Prop :=
  ∀ (s : State) (ctl esc : List Byte) (num : Nat),
    ∃ t, exec (.configure ctl esc num) s = .next t ∧
      t = { s with
        cfg := { ctl := ctl, esc := esc, num := num }, rx.state := .idle, tx.state := .config, bound := false,
        rxLast := .ok, written.cfg := true, env.response := some { status := .ok, byte := none } } ∧
      ∀ n d l,
        exec (.submit n d l) t = .next { t with env.response := some { status := .invalidArgument, byte := none } } ∧
        exec (.supply n d l) t = .next { t with env.response := some { status := .invalidArgument, byte := none } }

/-- R121 (the statuses are D10): BIND in CONFIG, IDLE, FINISHED attaches any handle; in SOF, DATA, ESC, EOF it is
refused and writes nothing. -/
def Obligations.BindResult : Prop :=
  ∀ (s : State) (h : Nat),
    (s.tx.state = .config ∨ s.tx.state = .idle ∨ s.tx.state = .finished →
      exec (.bind h) s = .next { s with
        handle := h, bound := true, tx.state := .idle, written.handle := true,
        env.response := some { status := .ok, byte := none } }) ∧
    (s.tx.state = .sof ∨ s.tx.state = .data ∨ s.tx.state = .esc ∨ s.tx.state = .eof →
      exec (.bind h) s = .next { s with env.response := some { status := .invalidArgument, byte := none } })

/-! ### Transmit engine -/

/-- R140 (the wrong-state status is C2, D12): SUBMIT accepts exactly under its five conditions, and else writes no
state element. -/
def Obligations.SubmitResult : Prop :=
  ∀ (s : State) (pduNull : Bool) (data len : Nat),
    ((s.tx.state = .idle ∨ s.tx.state = .finished) ∧ pduNull = false ∧ data ≠ 0 ∧ len ≠ 0 ∧ s.bound = true →
      exec (.submit pduNull data len) s = .next { s with
        tx.data := data, tx.len := len, tx.pos := 0, tx.state := .sof, written.tx := true,
        env.response := some { status := .ok, byte := none } }) ∧
    (¬ ((s.tx.state = .idle ∨ s.tx.state = .finished) ∧ pduNull = false ∧ data ≠ 0 ∧ len ≠ 0 ∧ s.bound = true) →
      exec (.submit pduNull data len) s =
        .next { s with env.response := some { status := .invalidArgument, byte := none } })

/-- R142 (CONFIG is C6, D13): TXBYTE with nothing to send answers PENDING and writes nothing. -/
def Obligations.TxbyteWithNothingToSend : Prop :=
  ∀ (s : State), s.tx.state = .config ∨ s.tx.state = .idle ∨ s.tx.state = .finished →
    exec .txbyte s = .next { s with env.response := some { status := .pending, byte := none } }

/-- R143: TXBYTE in SOF produces `ctl[SOF]` and goes to DATA. -/
def Obligations.TxbyteSendsSof : Prop :=
  ∀ (s : State) (b : Byte), s.tx.state = .sof → s.cfg.ctl[0]? = some b →
    exec .txbyte s = .next { s with tx.state := .data, env.response := some { status := .ok, byte := some b } }

/-- R144: TXBYTE in DATA with payload remaining reads the byte at `tx_data + tx_pos` once, takes it, and sends it, or
sends `ctl[ESC]` and remembers the identifier that matched. -/
def Obligations.TxbyteTakesAPayloadByte : Prop :=
  ∀ (s : State) (v : Byte), s.tx.state = .data → s.tx.pos < s.tx.len →
    s.tx.data + s.tx.pos < 2 ^ s.params.addrW → memGet s.env.mem (s.tx.data + s.tx.pos) = some v →
    (∀ i e, lookupIn s.cfg.ctl s.cfg.num v = some i → s.cfg.ctl[1]? = some e →
      exec .txbyte s = .next { s with
        tx.pos := s.tx.pos + 1, tx.escid := i, tx.state := .esc, written.escid := true,
        env.trace := s.env.trace ++ [.memRead (s.tx.data + s.tx.pos) v],
        env.response := some { status := .ok, byte := some e } }) ∧
    (lookupIn s.cfg.ctl s.cfg.num v = none → s.cfg.num ≤ s.cfg.ctl.length →
      exec .txbyte s = .next { s with
        tx.pos := s.tx.pos + 1,
        env.trace := s.env.trace ++ [.memRead (s.tx.data + s.tx.pos) v],
        env.response := some { status := .ok, byte := some v } })

/-- R92 (the order is D6): a lookup answers the least `i < num` whose entry is the byte, or none when there is none;
the model refuses only when it would have to look at an entry the table does not have (log entry 5). Under a legal
configuration (R22) the match is the only one and no substitute is a control value, so no order of the scan (D6) or of
the comparisons (D7) shows; U1 asks claims that rest on an order to take that premise. -/
def Obligations.LookupIsTheLeastMatch : Prop :=
  ∀ (s : State) (b : Byte),
    (∀ i, lookupCtl b s = .next (some i) ↔
      i < s.cfg.num ∧ s.cfg.ctl[i]? = some b ∧ ∀ j < i, s.cfg.ctl[j]? ≠ some b) ∧
    (∀ i, lookupEsc b s = .next (some i) ↔
      i < s.cfg.num ∧ s.cfg.esc[i]? = some b ∧ ∀ j < i, s.cfg.esc[j]? ≠ some b) ∧
    (s.cfg.num ≤ s.cfg.ctl.length → (lookupCtl b s = .next none ↔ ∀ j < s.cfg.num, s.cfg.ctl[j]? ≠ some b)) ∧
    (s.cfg.num ≤ s.cfg.esc.length → (lookupEsc b s = .next none ↔ ∀ j < s.cfg.num, s.cfg.esc[j]? ≠ some b)) ∧
    (s.cfg.ctl.length < s.cfg.num → b ∉ s.cfg.ctl → lookupCtl b s = .refused .tableEntryAbsent) ∧
    (s.cfg.esc.length < s.cfg.num → b ∉ s.cfg.esc → lookupEsc b s = .refused .tableEntryAbsent) ∧
    (CfgLegal s.params s.cfg → ∀ i < s.cfg.num,
      (s.cfg.ctl[i]? = some b → lookupCtl b s = .next (some i)) ∧
      (s.cfg.esc[i]? = some b → lookupEsc b s = .next (some i) ∧ ∀ j < s.cfg.num, s.cfg.ctl[j]? ≠ some b))

/-- R146, R147 (D14): with the payload exhausted and no continuation attached, and in the transient state EOF, TXBYTE
produces `ctl[EOF]` and goes to FINISHED. -/
def Obligations.TxbyteEndsTheFrame : Prop :=
  ∀ (s : State) (b : Byte), s.cfg.ctl[2]? = some b →
    (s.tx.state = .data ∧ ¬ s.tx.pos < s.tx.len ∧ s.params.hasCont = false) ∨ s.tx.state = .eof →
    exec .txbyte s = .next { s with tx.state := .finished, env.response := some { status := .ok, byte := some b } }

/-- R146 with a continuation (D15): it is asked once; if it declines, or continues without a byte, the frame ends with
its values kept; if it supplies a byte, the same TXBYTE goes on as R144 says on the new values. -/
def Obligations.TxbyteAsksTheContinuation : Prop :=
  ∀ (s : State) (b : Byte), s.tx.state = .data → ¬ s.tx.pos < s.tx.len → s.params.hasCont = true →
    s.cfg.ctl[2]? = some b →
    ((contRequest s).1.more = false →
      exec .txbyte s = .next { (contRequest s).2 with
        tx.state := .finished, env.response := some { status := .ok, byte := some b } }) ∧
    ((contRequest s).1.more = true → ¬ (contRequest s).1.pos < (contRequest s).1.len →
      exec .txbyte s = .next { (contRequest s).2 with
        tx.data := (contRequest s).1.data, tx.len := (contRequest s).1.len, tx.pos := (contRequest s).1.pos,
        tx.state := .finished, written.tx := true, env.response := some { status := .ok, byte := some b } }) ∧
    ((contRequest s).1.more = true → (contRequest s).1.pos < (contRequest s).1.len →
      exec .txbyte s = exec .txbyte { (contRequest s).2 with
        tx.data := (contRequest s).1.data, tx.len := (contRequest s).1.len, tx.pos := (contRequest s).1.pos,
        written.tx := true })

/-- R145: the request shows the three registers, the continuation's writes are in memory afterwards, no register is
written by the request itself, and, whichever answer comes, scripted or free, it keeps its obligations in the ports'
widths when the scripted ones do (log entry 9). -/
def Obligations.ContinuationRequest : Prop :=
  ∀ (s : State),
    (contRequest s).2.env.trace =
      s.env.trace ++ [.cont s.tx.data s.tx.len s.tx.pos (contRequest s).1] ∧
    (contRequest s).2.env.mem = memPutAll s.env.mem (contRequest s).1.writes ∧
    (contRequest s).2.tx = s.tx ∧ (contRequest s).2.rx = s.rx ∧ (contRequest s).2.cfg = s.cfg ∧
    (contRequest s).2.bound = s.bound ∧ (contRequest s).2.handle = s.handle ∧ (contRequest s).2.rxLast = s.rxLast ∧
    (s.params.Legal → ContsOblige s →
      (contRequest s).1.Obliging ∧ (contRequest s).1.data < 2 ^ s.params.addrW ∧
      (contRequest s).1.len < 2 ^ s.params.lenW ∧ (contRequest s).1.pos < 2 ^ s.params.lenW ∧
      ∀ w ∈ (contRequest s).1.writes, w.1 < 2 ^ s.params.addrW)

/-- R148: TXBYTE in ESC produces the substitute of the remembered identifier and goes back to DATA. -/
def Obligations.TxbyteSendsTheSubstitute : Prop :=
  ∀ (s : State) (b : Byte), s.tx.state = .esc → s.cfg.esc[s.tx.escid]? = some b →
    exec .txbyte s = .next { s with tx.state := .data, env.response := some { status := .ok, byte := some b } }

/-- R151: with a configuration loaded and a readable payload, TXBYTE in SOF, DATA and ESC, a continuation asked or
not, completes with exactly one byte. -/
def Obligations.TxbyteYieldsOneByteInFlight : Prop :=
  ∀ (s : State), ChanInv s → Configured s → TxReadable s →
    s.tx.state = .sof ∨ s.tx.state = .data ∨ s.tx.state = .esc →
    ∃ t b, exec .txbyte s = .next t ∧ t.env.response = some { status := .ok, byte := some b }

/-- R149, R150, R184 (the mapping of GETTX is D16; no effect outside FINISHED and IDLE is D17): GETTX reports
FRAME_FINISHED in FINISHED and PENDING else, and writes nothing; CLRTX and CLRRX take FINISHED to IDLE in their own
direction and write nothing else; in IDLE they are no-ops without error. -/
def Obligations.StatusAndClearCommandsResult : Prop :=
  ∀ (s : State),
    exec .gettx s = .next { s with env.response := some {
      status := if s.tx.state = .finished then .frameFinished else .pending, byte := none } } ∧
    exec .clrtx s = .next { s with
      tx.state := if s.tx.state = .finished then .idle else s.tx.state,
      env.response := some { status := .ok, byte := none } } ∧
    exec .clrrx s = .next { s with
      rx.state := if s.rx.state = .finished then .idle else s.rx.state,
      env.response := some { status := .ok, byte := none } }

/-! ### Receive engine -/

/-- R170 (failures write nothing: D25; the wrong-state status is D12): SUPPLY arms the receiver exactly under its five
conditions. -/
def Obligations.SupplyResult : Prop :=
  ∀ (s : State) (pduNull : Bool) (data cap : Nat),
    ((s.rx.state = .idle ∨ s.rx.state = .finished) ∧ pduNull = false ∧ data ≠ 0 ∧ cap ≠ 0 ∧ s.bound = true →
      exec (.supply pduNull data cap) s = .next { s with
        rx.buf := data, rx.cap := cap, rx.pos := 0, rx.state := .sof, written.rx := true,
        env.response := some { status := .ok, byte := none } }) ∧
    (¬ ((s.rx.state = .idle ∨ s.rx.state = .finished) ∧ pduNull = false ∧ data ≠ 0 ∧ cap ≠ 0 ∧ s.bound = true) →
      exec (.supply pduNull data cap) s =
        .next { s with env.response := some { status := .invalidArgument, byte := none } })

/-- R172, R178 (D19), R180 (the recovery's status is D32, the other D18): RXBYTE in IDLE and in FINISHED discards the
byte and writes nothing; in ERROR only `ctl[EOF]` is recognised; it resets the position and disarms the receiver. -/
def Obligations.RxbyteDiscards : Prop :=
  ∀ (s : State) (b : Byte),
    (s.rx.state = .idle →
      exec (.rxbyte b) s = .next { s with env.response := some { status := .byteReceived, byte := none } }) ∧
    (s.rx.state = .finished →
      exec (.rxbyte b) s = .next { s with env.response := some { status := .frameFinished, byte := none } }) ∧
    (∀ c, s.rx.state = .error → s.cfg.ctl[2]? = some c →
      (b = c → exec (.rxbyte b) s = .next { s with
        rx.pos := 0, rx.state := .idle, env.response := some { status := .frameFinished, byte := none } }) ∧
      (b ≠ c → exec (.rxbyte b) s = .next { s with
        env.response := some { status := .byteReceived, byte := none } }))

/-- R173 (the status of an accepted SOF is D18): RXBYTE in SOF hunts for `ctl[SOF]`. -/
def Obligations.RxbyteHuntsForSof : Prop :=
  ∀ (s : State) (b c : Byte), s.rx.state = .sof → s.cfg.ctl[0]? = some c →
    (b = c → exec (.rxbyte b) s = .next { s with
      rx.pos := 0, rx.state := .data, env.response := some { status := .byteReceived, byte := none } }) ∧
    (b ≠ c → exec (.rxbyte b) s = .next { s with env.response := some { status := .byteReceived, byte := none } })

/-- R174, R175 (the statuses are D18, the order is D7): `ctl[SOF]` in DATA restarts the frame in place, and
`ctl[ESC]` opens an escape pair, whatever room the buffer has. -/
def Obligations.RxbyteControlByteInData : Prop :=
  ∀ (s : State) (b sof esc : Byte), s.rx.state = .data →
    s.cfg.ctl[0]? = some sof → s.cfg.ctl[1]? = some esc →
    (b = sof → exec (.rxbyte b) s = .next { s with
      rx.pos := 0, env.response := some { status := .byteReceived, byte := none } }) ∧
    (b ≠ sof → b = esc → exec (.rxbyte b) s = .next { s with
      rx.state := .esc, env.response := some { status := .byteReceived, byte := none } })

/-- R176: `ctl[EOF]` in DATA, being neither `ctl[SOF]` nor `ctl[ESC]`, finalises the length at the current position
and finishes the frame, whatever room the buffer has; nothing else is written. -/
def Obligations.RxbyteFinishesTheFrame : Prop :=
  ∀ (s : State) (b sof esc : Byte), s.rx.state = .data →
    s.cfg.ctl[0]? = some sof → s.cfg.ctl[1]? = some esc → s.cfg.ctl[2]? = some b → b ≠ sof → b ≠ esc →
    exec (.rxbyte b) s = .next { s with
      rx.len := s.rx.pos, rx.state := .finished, written.rxLen := true,
      env.response := some { status := .frameFinished, byte := none } }

/-- R182: the store primitive stores `v` at `rx_buf + rx_pos` while the cursor is below the capacity, and else enters
ERROR and stores nothing. -/
def Obligations.RxStoreStoresOrOverflows : Prop :=
  ∀ (s : State) (v : Byte),
    (s.rx.pos < s.rx.cap → placed s.params s.env.mem (s.rx.buf + s.rx.pos) →
      rxStore v s = .next { s with
        rx.pos := s.rx.pos + 1, env.mem := memPut s.env.mem (s.rx.buf + s.rx.pos) v,
        env.trace := s.env.trace ++ [.memWrite (s.rx.buf + s.rx.pos) v] }) ∧
    (¬ s.rx.pos < s.rx.cap → rxStore v s = .next { s with rx.state := .error })

/-- R177 with R182 (the status is D18): any other byte in DATA is stored, or overflows into ERROR. -/
def Obligations.RxbyteStoresADataByte : Prop :=
  ∀ (s : State) (b sof esc eof : Byte), s.rx.state = .data →
    s.cfg.ctl[0]? = some sof → s.cfg.ctl[1]? = some esc → s.cfg.ctl[2]? = some eof → b ≠ sof → b ≠ esc → b ≠ eof →
    (s.rx.pos < s.rx.cap → placed s.params s.env.mem (rxStoreAddr s) →
      exec (.rxbyte b) s = .next { s with
        rx.pos := s.rx.pos + 1, env.mem := memPut s.env.mem (rxStoreAddr s) b,
        env.trace := s.env.trace ++ [.memWrite (rxStoreAddr s) b],
        env.response := some { status := .byteReceived, byte := none } }) ∧
    (¬ s.rx.pos < s.rx.cap →
      exec (.rxbyte b) s = .next { s with
        rx.state := .error, env.response := some { status := .byteReceived, byte := none } })

/-- R179 (pass-through is D33, overflow over DATA is C9, the status is D18): the second byte of an escape pair stores
the control byte of the least matching substitute, or itself when none matches. -/
def Obligations.RxbyteUnescapes : Prop :=
  ∀ (s : State) (b v : Byte), s.rx.state = .esc →
    (∃ i, lookupIn s.cfg.esc s.cfg.num b = some i ∧ s.cfg.ctl[i]? = some v) ∨
      (lookupIn s.cfg.esc s.cfg.num b = none ∧ s.cfg.num ≤ s.cfg.esc.length ∧ v = b) →
    (s.rx.pos < s.rx.cap → placed s.params s.env.mem (rxStoreAddr s) →
      exec (.rxbyte b) s = .next { s with
        rx.pos := s.rx.pos + 1, rx.state := .data, env.mem := memPut s.env.mem (rxStoreAddr s) v,
        env.trace := s.env.trace ++ [.memWrite (rxStoreAddr s) v],
        env.response := some { status := .byteReceived, byte := none } }) ∧
    (¬ s.rx.pos < s.rx.cap →
      exec (.rxbyte b) s = .next { s with
        rx.state := .error, env.response := some { status := .byteReceived, byte := none } })

/-- R183: GETRX reports the state and writes nothing. -/
def Obligations.GetrxResult : Prop :=
  ∀ (s : State),
    exec .getrx s = .next { s with env.response := some {
      status := if s.rx.state = .finished then .frameFinished else if s.rx.state = .idle then .ok else .pending,
      byte := none } }

/-! ### Driver and reserved opcodes -/

/-- R210 (a), (b) (the status is D22): STEP with no frame in flight and an idle receiver does nothing at all, before
any CONFIGURE too. -/
def Obligations.StepCommandWithNothingToDo : Prop :=
  ∀ (s : State), s.tx.state = .config ∨ s.tx.state = .idle ∨ s.tx.state = .finished → s.rx.state = .idle →
    exec .step s = .next { s with env.response := some { status := .ok, byte := none } }

/-- R211 (ready is C6, D13): with the receiver idle, STEP hands the byte TXBYTE produces to the transport with
`tp_handle`, in one write, whose answer changes no state element. -/
def Obligations.StepCommandTransmitHalf : Prop :=
  ∀ (s u : State) (st : Status) (b : Byte), s.rx.state = .idle →
    s.tx.state = .sof ∨ s.tx.state = .data ∨ s.tx.state = .esc ∨ s.tx.state = .eof →
    exec .txbyte s = .next u → u.env.response = some { status := st, byte := some b } →
    ∃ t ok, exec .step s = .next t ∧
      t.env.trace = u.env.trace ++ [.tpWrite s.handle b ok] ∧ (∀ a r, s.env.writeAnswers = a :: r → ok = a) ∧
      t.env.mem = u.env.mem ∧ t.cfg = s.cfg ∧ t.bound = s.bound ∧ t.handle = s.handle ∧ t.tx = u.tx ∧ t.rx = s.rx ∧
      t.rxLast = s.rxLast ∧ t.written = u.written ∧ t.env.response = some { status := .ok, byte := none }

/-- R212 after R211, in the order of R213 (D22), in every pair of states of R216 in which the receiver is not idle, a
transmit frame in flight or not: STEP runs the transmit half, its write included, then makes one read; on success
RXBYTE takes the byte and its status goes to `rx_last` (the register is D20); on failure nothing else changes, not even
`rx_last`. Where the transport's answers come from is the model's choice (log entry 8). -/
def Obligations.StepCommandReceiveHalf : Prop :=
  ∀ (s t r : State) (a : Option Byte), s.rx.state ≠ .idle → TransmitHalfLeaves s t → ReadAnswered a t r →
    (a = none → exec .step s = .next { r with env.response := some { status := .ok, byte := none } }) ∧
    (∀ b u st, a = some b → exec (.rxbyte b) r = .next u → u.env.response = some { status := st, byte := none } →
      exec .step s = .next { u with rxLast := st, env.response := some { status := .ok, byte := none } })

/-- R210, R211, R212: with the invariant, a configuration loaded and the buffers where the environment must put them,
STEP completes with OK in every pair of sub-states, whatever the transport and the continuation answer. -/
def Obligations.StepCommandCompletes : Prop :=
  ∀ (s : State), ChanInv s → Configured s → TxReadable s → RxWritable s →
    ∃ t, exec .step s = .next t ∧ t.env.response = some { status := .ok, byte := none }

/-- R98 (D26): a reserved opcode changes no state, makes no request, and answers INVALID_ARGUMENT. -/
def Obligations.ReservedOpcodesDoNothing : Prop :=
  ∀ (s : State) (x : BitVec 1) (y : BitVec 2),
    exec .reserved0 s = .next { s with env.response := some { status := .invalidArgument, byte := none } } ∧
    exec (.reservedAB x) s = .next { s with env.response := some { status := .invalidArgument, byte := none } } ∧
    exec (.reservedCF y) s = .next { s with env.response := some { status := .invalidArgument, byte := none } }

/-! ### Where operations stop -/

/-- R261: out of the start-up order. SUBMIT and SUPPLY before BIND are refused with INVALID_ARGUMENT; BIND before
CONFIGURE succeeds, SUBMIT and SUPPLY after it succeed too, and the following STEP reads the tables. That it then goes
on with what the registers hold, written since reset or not, is the model's choice (log entry 3). -/
def Obligations.StartUpOutOfOrder : Prop :=
  ∀ (s : State) (h data size : Nat) (sof : Byte),
    s.tx.state = .config → s.rx.state = .idle → s.bound = false → s.cfg.ctl[0]? = some sof → data ≠ 0 → size ≠ 0 →
    exec (.submit false data size) s =
      .next { s with env.response := some { status := .invalidArgument, byte := none } } ∧
    exec (.supply false data size) s =
      .next { s with env.response := some { status := .invalidArgument, byte := none } } ∧
    ∃ t, exec (.bind h) s = .next t ∧ t.env.response = some { status := .ok, byte := none } ∧
      (∃ u v ok, exec (.submit false data size) t = .next u ∧ u.env.response = some { status := .ok, byte := none } ∧
        exec .step u = .next v ∧ v.tx.state = .data ∧ v.env.trace = s.env.trace ++ [.tpWrite h sof ok]) ∧
      (∃ u, exec (.supply false data size) t = .next u ∧ u.env.response = some { status := .ok, byte := none } ∧
        ∀ b more, s.env.readAnswers = some b :: more →
          ∃ v, exec .step u = .next v ∧ v.env.trace = s.env.trace ++ [.tpRead h (some b)] ∧
            v.rx.state = if b = sof then .data else .sof)

/-- R63, R64, R67, R74, U5: an access outside the supplied buffers has no step. A payload read there stops TXBYTE and
STEP; a store there stops RxStore, RXBYTE in DATA and in ESC, and a STEP whose read brought the byte. That the stop is
a fault, and which one, is the model's choice (log entries 6 and 7). -/
def Obligations.AddressesOutsideTheBuffersFault : Prop :=
  ∀ (s : State) (f : Fault),
    (∀ r, txReads s = some r → stopsAt s.params r.2 r.1 f → exec .txbyte s = .fault f ∧ exec .step s = .fault f) ∧
    (s.rx.pos < s.rx.cap → stopsAt s.params s.env.mem (rxStoreAddr s) f →
      (∀ v, rxStore v s = .fault f) ∧
      (∀ b sof esc eof, s.rx.state = .data → s.cfg.ctl[0]? = some sof → s.cfg.ctl[1]? = some esc →
        s.cfg.ctl[2]? = some eof → b ≠ sof → b ≠ esc → b ≠ eof → exec (.rxbyte b) s = .fault f) ∧
      (∀ b, s.rx.state = .esc →
        (∃ i v, lookupIn s.cfg.esc s.cfg.num b = some i ∧ s.cfg.ctl[i]? = some v) ∨
          (lookupIn s.cfg.esc s.cfg.num b = none ∧ s.cfg.num ≤ s.cfg.esc.length) →
        exec (.rxbyte b) s = .fault f)) ∧
    (∀ t r b, s.rx.state ≠ .idle → TransmitHalfLeaves s t → ReadAnswered (some b) t r →
      exec (.rxbyte b) r = .fault f → exec .step s = .fault f)

/-- R230 with R120 (b), R121 (e), R140 (d), R170 (e), R98: no command but STEP can stop, in any state, for any operands;
it makes no request, and of the environment it changes only the response, which carries no data (R97). -/
def Obligations.CommandsOtherThanStepAnswerAndMakeNoRequest : Prop :=
  ∀ (i : Instr) (s : State), i.internal = false → i ≠ .step →
    ∃ t st, exec i s = .next t ∧ t.env = { s.env with response := some { status := st, byte := none } }

/-! ### Frames -/

/-- R20, R21, R23: only CONFIGURE writes the configuration, only CONFIGURE and BIND the binding, only BIND the handle,
and nothing the build-time parameters. -/
def Obligations.ConfigurationAndBindingWriters : Prop :=
  ∀ (i : Instr) (s t : State), exec i s = .next t →
    t.params = s.params ∧
    ((∀ c e n, i ≠ .configure c e n) → t.cfg = s.cfg) ∧
    ((∀ c e n, i ≠ .configure c e n) → (∀ h, i ≠ .bind h) → t.bound = s.bound) ∧
    ((∀ h, i ≠ .bind h) → t.handle = s.handle)

/-- R20: the transmit group is touched only by transmit rules (and CONFIGURE, BIND), the receive group only by receive
rules (and CONFIGURE); `rx_last` only by STEP and CONFIGURE. -/
def Obligations.DirectionsAreIndependent : Prop :=
  ∀ (i : Instr) (s t : State), exec i s = .next t →
    ((∀ n d c, i ≠ .supply n d c) → i ≠ .clrrx → i ≠ .step → (∀ b, i ≠ .rxbyte b) → (∀ c e n, i ≠ .configure c e n) →
      t.rx = s.rx) ∧
    ((∀ n d l, i ≠ .submit n d l) → i ≠ .clrtx → i ≠ .step → i ≠ .txbyte → (∀ h, i ≠ .bind h) →
      (∀ c e n, i ≠ .configure c e n) → t.tx = s.tx) ∧
    (i ≠ .step → (∀ c e n, i ≠ .configure c e n) → t.rxLast = s.rxLast)

/-- The frame of TXBYTE (R20, R25, R26, R64): everything but the transmit group, the memory the continuation writes,
the record and the response stays; pointer and length stay unless the continuation is asked; the identifier stays
unless ESC is entered. -/
def Obligations.TxbyteFrame : Prop :=
  ∀ (s t : State), exec .txbyte s = .next t →
    t.params = s.params ∧ t.cfg = s.cfg ∧ t.bound = s.bound ∧ t.handle = s.handle ∧ t.rx = s.rx ∧ t.rxLast = s.rxLast ∧
    t.written.cfg = s.written.cfg ∧ t.env.inputs = s.env.inputs ∧ t.env.readAnswers = s.env.readAnswers ∧
    t.env.writeAnswers = s.env.writeAnswers ∧
    (contAsked s = false → t.tx.data = s.tx.data ∧ t.tx.len = s.tx.len ∧ t.env.contAnswers = s.env.contAnswers) ∧
    (t.tx.state ≠ .esc → t.tx.escid = s.tx.escid) ∧
    (∀ a, (∀ w ∈ contWrites s, w.1 ≠ a) → memGet t.env.mem a = memGet s.env.mem a)

/-- The frame of RXBYTE (R20, R29, R30, R64): everything but `rx_state`, `rx_pos`, `rx_len`, the byte at
`rx_buf + rx_pos`, the record and the response stays. -/
def Obligations.RxbyteFrame : Prop :=
  ∀ (s t : State) (b : Byte), exec (.rxbyte b) s = .next t →
    t.params = s.params ∧ t.cfg = s.cfg ∧ t.bound = s.bound ∧ t.handle = s.handle ∧ t.tx = s.tx ∧ t.rxLast = s.rxLast ∧
    t.rx.buf = s.rx.buf ∧ t.rx.cap = s.rx.cap ∧ (t.rx.state ≠ .finished → t.rx.len = s.rx.len) ∧
    t.written.cfg = s.written.cfg ∧ t.env.inputs = s.env.inputs ∧ t.env.readAnswers = s.env.readAnswers ∧
    t.env.writeAnswers = s.env.writeAnswers ∧ t.env.contAnswers = s.env.contAnswers ∧
    (∀ a, (s.rx.pos < s.rx.cap → a ≠ rxStoreAddr s) → memGet t.env.mem a = memGet s.env.mem a)

/-- The frame of STEP (R64, R210 (d), R216): configuration and binding stay; a direction with nothing to do stays; and
a byte of memory stays unless the continuation writes it or it is the byte at `rx_buf + rx_pos` below the capacity, so
STEP never stores outside the receive buffer. -/
def Obligations.StepCommandFrame : Prop :=
  ∀ (s t : State), exec .step s = .next t →
    t.params = s.params ∧ t.cfg = s.cfg ∧ t.bound = s.bound ∧ t.handle = s.handle ∧ t.env.inputs = s.env.inputs ∧
    t.rx.buf = s.rx.buf ∧ t.rx.cap = s.rx.cap ∧
    (s.tx.state = .config ∨ s.tx.state = .idle ∨ s.tx.state = .finished → t.tx = s.tx) ∧
    (s.rx.state = .idle → t.rx = s.rx ∧ t.rxLast = s.rxLast) ∧
    (∀ a, (∀ w ∈ contWrites s, w.1 ≠ a) → (s.rx.pos < s.rx.cap → a ≠ rxStoreAddr s) →
      memGet t.env.mem a = memGet s.env.mem a)

/-- R30: `rx_len` is written only by the receive engine on EOF in DATA, with the current position. -/
def Obligations.RxLenWrittenOnlyOnEof : Prop :=
  ∀ (i : Instr) (s t : State), exec i s = .next t → t.rx.len ≠ s.rx.len →
    (i = .step ∨ ∃ b, i = .rxbyte b) ∧ s.rx.state = .data ∧ t.rx.state = .finished ∧ t.rx.len = s.rx.pos

/-- R31, R212 (the register is D20): `rx_last` changes only in CONFIGURE, to OK, and in a STEP that read a byte, to
BYTE_RECEIVED or FRAME_FINISHED. -/
def Obligations.RxLastWriters : Prop :=
  ∀ (i : Instr) (s t : State), exec i s = .next t → t.rxLast ≠ s.rxLast →
    ((∃ c e n, i = .configure c e n) ∧ t.rxLast = .ok) ∨
    (i = .step ∧ (∃ b, .tpRead s.handle (some b) ∈ newEvents s t) ∧
      (t.rxLast = .byteReceived ∨ t.rxLast = .frameFinished))

/-! ### Whole-machine rules -/

/-- R181: the receive transition relation is complete: an operation that changes `rx_state` is one of its rows. The
byte of an RXBYTE row is the operand of RXBYTE, or the byte STEP read. -/
def Obligations.ReceiveTransitionsComplete : Prop :=
  ∀ (i : Instr) (s t : State), exec i s = .next t → t.rx.state ≠ s.rx.state →
    ((∃ c e n, i = .configure c e n) ∧ t.rx.state = .idle) ∨
    ((∃ n d c, i = .supply n d c) ∧ (s.rx.state = .idle ∨ s.rx.state = .finished) ∧ t.rx.state = .sof ∧
      t.env.response = some { status := .ok, byte := none }) ∨
    (i = .clrrx ∧ s.rx.state = .finished ∧ t.rx.state = .idle) ∨
    (∃ b, (i = .rxbyte b ∨ (i = .step ∧ .tpRead s.handle (some b) ∈ newEvents s t)) ∧
      ((s.rx.state = .sof ∧ s.cfg.ctl[0]? = some b ∧ t.rx.state = .data) ∨
       (s.rx.state = .data ∧ s.cfg.ctl[0]? ≠ some b ∧ s.cfg.ctl[1]? = some b ∧ t.rx.state = .esc) ∨
       (s.rx.state = .data ∧ s.cfg.ctl[0]? ≠ some b ∧ s.cfg.ctl[1]? ≠ some b ∧ s.cfg.ctl[2]? = some b ∧
         t.rx.state = .finished) ∨
       (s.rx.state = .data ∧ s.cfg.ctl[0]? ≠ some b ∧ s.cfg.ctl[1]? ≠ some b ∧ s.cfg.ctl[2]? ≠ some b ∧
         s.rx.cap ≤ s.rx.pos ∧ t.rx.state = .error) ∨
       (s.rx.state = .esc ∧ s.rx.pos < s.rx.cap ∧ t.rx.state = .data) ∨
       (s.rx.state = .esc ∧ s.rx.cap ≤ s.rx.pos ∧ t.rx.state = .error) ∨
       (s.rx.state = .error ∧ s.cfg.ctl[2]? = some b ∧ t.rx.state = .idle)))

/-- R24 with R141: an operation that changes `tx_state` is CONFIGURE, BIND, SUBMIT or CLRTX from the states that leave
that way, or TXBYTE, alone or in STEP, along the rows of R141. -/
def Obligations.TransmitTransitionsComplete : Prop :=
  ∀ (i : Instr) (s t : State), exec i s = .next t → t.tx.state ≠ s.tx.state →
    ((∃ c e n, i = .configure c e n) ∧ t.tx.state = .config) ∨
    ((∃ h, i = .bind h) ∧ (s.tx.state = .config ∨ s.tx.state = .finished) ∧ t.tx.state = .idle) ∨
    ((∃ n d l, i = .submit n d l) ∧ (s.tx.state = .idle ∨ s.tx.state = .finished) ∧ t.tx.state = .sof) ∨
    (i = .clrtx ∧ s.tx.state = .finished ∧ t.tx.state = .idle) ∨
    ((i = .txbyte ∨ i = .step) ∧
      ((s.tx.state = .sof ∧ t.tx.state = .data) ∨
       (s.tx.state = .data ∧ t.tx.state = .esc ∧ t.tx.escid < s.cfg.num) ∨
       (s.tx.state = .data ∧ s.tx.len ≤ s.tx.pos ∧ t.tx.state = .finished) ∨
       (s.tx.state = .esc ∧ t.tx.state = .data) ∨
       (s.tx.state = .eof ∧ t.tx.state = .finished)))

/-- R231: INVALID_ARGUMENT is answered exactly for the listed causes, and then nothing else changes. -/
def Obligations.InvalidArgumentCauses : Prop :=
  ∀ (i : Instr) (s t : State), exec i s = .next t →
    ((∃ o, t.env.response = some { status := .invalidArgument, byte := o }) ↔
      match i with
      | .bind _ => s.tx.state = .sof ∨ s.tx.state = .data ∨ s.tx.state = .esc ∨ s.tx.state = .eof
      | .submit n d l =>
        (s.tx.state ≠ .idle ∧ s.tx.state ≠ .finished) ∨ n = true ∨ d = 0 ∨ l = 0 ∨ s.bound = false
      | .supply n d c =>
        (s.rx.state ≠ .idle ∧ s.rx.state ≠ .finished) ∨ n = true ∨ d = 0 ∨ c = 0 ∨ s.bound = false
      | .reserved0 => True
      | .reservedAB _ => True
      | .reservedCF _ => True
      | .configure _ _ _ => False
      | .gettx => False
      | .clrtx => False
      | .getrx => False
      | .clrrx => False
      | .step => False
      | .txbyte => False
      | .rxbyte _ => False) ∧
    ((∃ o, t.env.response = some { status := .invalidArgument, byte := o }) →
      t = { s with env.response := some { status := .invalidArgument, byte := none } })

/-- R97: each command answers one status from its row of the table, and no data. -/
def Obligations.StatusesOfEachCommand : Prop :=
  ∀ (i : Instr) (s t : State), i.internal = false → exec i s = .next t →
    ∃ st, t.env.response = some { status := st, byte := none } ∧
      match i with
      | .configure _ _ _ => st = .ok
      | .bind _ => st = .ok ∨ st = .invalidArgument
      | .submit _ _ _ => st = .ok ∨ st = .invalidArgument
      | .supply _ _ _ => st = .ok ∨ st = .invalidArgument
      | .gettx => st = .pending ∨ st = .frameFinished
      | .clrtx => st = .ok
      | .getrx => st = .ok ∨ st = .pending ∨ st = .frameFinished
      | .clrrx => st = .ok
      | .step => st = .ok
      | .reserved0 => st = .invalidArgument
      | .reservedAB _ => st = .invalidArgument
      | .reservedCF _ => st = .invalidArgument
      | .txbyte => True
      | .rxbyte _ => True

/-- R213, R214: the requests of one STEP are those of the transmit half, then those of the receive half (the order is
D22), and there is at most one of each kind. -/
def Obligations.StepRequestsAreBoundedAndOrdered : Prop :=
  ∀ (s t : State), exec .step s = .next t →
    ∃ a b, t.env.trace = s.env.trace ++ (a ++ b) ∧
      (∀ e ∈ a, e.isCont = true ∨ e.isMemRead = true ∨ e.isTpWrite = true) ∧
      (∀ e ∈ b, e.isTpRead = true ∨ e.isMemWrite = true) ∧
      a.countP Event.isCont ≤ 1 ∧ a.countP Event.isMemRead ≤ 1 ∧ a.countP Event.isTpWrite ≤ 1 ∧
      b.countP Event.isTpRead ≤ 1 ∧ b.countP Event.isMemWrite ≤ 1

/-- R211, R234: the answer of the transport to the write of a STEP changes nothing but the record of that answer. The
two records agree in every request but that one write, and in that one but for its answer; a STEP that writes nothing
takes no answer off the script. -/
def Obligations.WriteFailureIsSwallowed : Prop :=
  ∀ (s : State) (x y : Bool) (rest : List Bool) (t : State),
    exec .step { s with env.writeAnswers := x :: rest } = .next t →
    ∃ u, exec .step { s with env.writeAnswers := y :: rest } = .next u ∧
      u.params = t.params ∧ u.cfg = t.cfg ∧ u.bound = t.bound ∧ u.handle = t.handle ∧ u.tx = t.tx ∧ u.rx = t.rx ∧
      u.rxLast = t.rxLast ∧ u.written = t.written ∧ u.env.mem = t.env.mem ∧ u.env.inputs = t.env.inputs ∧
      u.env.readAnswers = t.env.readAnswers ∧ u.env.contAnswers = t.env.contAnswers ∧ u.env.draws = t.env.draws ∧
      u.env.response = t.env.response ∧
      ((TxQuiet s ∧ u.env.trace = t.env.trace ∧ t.env.writeAnswers = x :: rest ∧ u.env.writeAnswers = y :: rest) ∨
       (TxInFlight s ∧ t.env.writeAnswers = rest ∧ u.env.writeAnswers = rest ∧
        ∃ pre b post, t.env.trace = s.env.trace ++ (pre ++ .tpWrite s.handle b x :: post) ∧
          u.env.trace = s.env.trace ++ (pre ++ .tpWrite s.handle b y :: post)))

/-- R239, R240: ERROR is left only by CONFIGURE, or by a `ctl[EOF]` byte, which resets the position and disarms the
receiver; and while the receiver is in ERROR no received byte is stored and `rx_len` stays. -/
def Obligations.ErrorIsLeftOnlyByEofOrConfigure : Prop :=
  ∀ (i : Instr) (s t : State), s.rx.state = .error → exec i s = .next t →
    t.rx.len = s.rx.len ∧
    (∀ a, (∀ w ∈ contWrites s, w.1 ≠ a) → memGet t.env.mem a = memGet s.env.mem a) ∧
    (t.rx.state ≠ .error →
      t.rx.state = .idle ∧
      ((∃ c e n, i = .configure c e n) ∨
       (t.rx.pos = 0 ∧ ∃ b, s.cfg.ctl[2]? = some b ∧
         (i = .rxbyte b ∨ (i = .step ∧ .tpRead s.handle (some b) ∈ newEvents s t)))))

/-! ### Invariant -/

/-- R34, R35: the invariant holds in the state after reset. -/
def Obligations.InvariantAtReset : Prop := ChanInv State.reset

/-- R34 (a) to (g), with the widths of R20 and the canonical form of memory: every step keeps the invariant, whatever
the input, the transport and the continuation do (the premise of R34 (c) on the continuation is part of it). -/
def Obligations.EveryStepKeepsTheInvariant : Prop :=
  ∀ (s t : State), ChanInv s → step s = .next t → ChanInv t

/-! ### Frames on the wire -/

/-- R94: the wire length of a frame is `n + k + 2`, between `n + 2` and `2n + 2`. -/
def Obligations.FrameLength : Prop :=
  ∀ (c : CfgRegs) (p : List Byte),
    (frameOf c p).length = p.length + escapesIn c p + 2 ∧
    p.length + 2 ≤ (frameOf c p).length ∧ (frameOf c p).length ≤ 2 * p.length + 2

/-- R152: after an accepted SUBMIT of a buffer holding `p`, with no continuation attached, the following `n + k + 2`
TXBYTE calls return exactly the frame of R90 for `p`, the last leaves FINISHED, and a later call returns PENDING. -/
def Obligations.WireSequenceOfAFrame : Prop :=
  ∀ (s₀ s : State) (data : Nat) (p : List Byte),
    exec (.submit false data p.length) s₀ = .next s → s.env.response = some { status := .ok, byte := none } →
    3 ≤ s.cfg.ctl.length → s.cfg.num ≤ s.cfg.ctl.length → s.cfg.num ≤ s.cfg.esc.length →
    s.params.hasCont = false → data + p.length ≤ 2 ^ s.params.addrW → holdsAt s.env.mem data p →
    ∃ t, txPull (p.length + escapesIn s.cfg p + 2) s = .next (t, (frameOf s.cfg p).map fun b => (.ok, some b)) ∧
      t.tx.state = .finished ∧ txByte t = .next (t, .pending, none)

/-- R214, R278: the same frame is sent by exactly `n + k + 2` STEPs with the receiver idle, whatever the transport
answers, and by no fewer. -/
def Obligations.FrameIsSentInExactlySoManySteps : Prop :=
  ∀ (s₀ s : State) (data : Nat) (p : List Byte),
    exec (.submit false data p.length) s₀ = .next s → s.env.response = some { status := .ok, byte := none } →
    3 ≤ s.cfg.ctl.length → s.cfg.num ≤ s.cfg.ctl.length → s.cfg.num ≤ s.cfg.esc.length →
    s.params.hasCont = false → data + p.length ≤ 2 ^ s.params.addrW → holdsAt s.env.mem data p → s.rx.state = .idle →
    (∃ t, stepRun (p.length + escapesIn s.cfg p + 2) s = .next t ∧ t.tx.state = .finished ∧
      wireBytes (newEvents s t) = frameOf s.cfg p) ∧
    ∀ k < p.length + escapesIn s.cfg p + 2, ∃ u, stepRun k s = .next u ∧ u.tx.state ≠ .finished

/-- R185, for a receiver `r` with the same legal configuration as the sender, armed and with room: what TXBYTE sends
for `p`, fed to RXBYTE byte by byte, ends in FINISHED with `rx_len = n` and the payload in the buffer, only the last
call reporting the finished frame. -/
def Obligations.RoundTrip : Prop :=
  ∀ (s₀ s r : State) (data : Nat) (p : List Byte),
    exec (.submit false data p.length) s₀ = .next s → s.env.response = some { status := .ok, byte := none } →
    s.cfg.ctl.length = s.params.nCtl → s.cfg.esc.length = s.params.nCtl →
    CfgLegal s.params s.cfg → s.params.hasCont = false →
    data + p.length ≤ 2 ^ s.params.addrW → holdsAt s.env.mem data p →
    r.cfg = s.cfg → r.rx.state = .sof → r.rx.pos = 0 → p.length ≤ r.rx.cap →
    bufferAt r.params r.env.mem r.rx.buf r.rx.cap →
    ∃ t q u sts, txPull (p.length + escapesIn s.cfg p + 2) s = .next (t, q) ∧
      rxFeed (q.filterMap fun x => x.2) r = .next (u, sts) ∧
      u.rx.state = .finished ∧ u.rx.len = p.length ∧ holdsAt u.env.mem r.rx.buf p ∧
      sts = List.replicate (p.length + escapesIn s.cfg p + 1) .byteReceived ++ [.frameFinished]

/-- R186 (a), R180, R182: a frame with one data byte more than the buffer holds enters ERROR, its EOF disarms the
receiver with FRAME_FINISHED reported and `rx_len` not written, and the buffer keeps the first `rx_cap` data bytes. -/
def Obligations.OverflowBoundary : Prop :=
  ∀ (r : State) (p : List Byte),
    r.cfg.ctl.length = r.params.nCtl → r.cfg.esc.length = r.params.nCtl →
    CfgLegal r.params r.cfg → r.rx.state = .sof → r.rx.pos = 0 → p.length = r.rx.cap + 1 →
    bufferAt r.params r.env.mem r.rx.buf r.rx.cap →
    (∃ u sts, rxFeed (frameOf r.cfg p).dropLast r = .next (u, sts) ∧ u.rx.state = .error ∧
      holdsAt u.env.mem r.rx.buf (p.take r.rx.cap)) ∧
    (∃ u sts, rxFeed (frameOf r.cfg p) r = .next (u, sts) ∧ u.rx.state = .idle ∧ u.rx.pos = 0 ∧
      u.rx.len = r.rx.len ∧ sts.getLast? = some .frameFinished ∧ holdsAt u.env.mem r.rx.buf (p.take r.rx.cap))

/-! ### Progress, under the fairness premises of R278 -/

/-- R278 with R146 (U11): a frame in flight ends once the continuation, where one is attached, declines: some number of
STEPs reaches FINISHED, whatever the transport answers. -/
def Obligations.FrameEndsOnceTheContinuationDeclines : Prop :=
  ∀ (s : State), ChanInv s → Configured s → BuffersStayPlaced s →
    s.tx.state = .sof ∨ s.tx.state = .data ∨ s.tx.state = .esc →
    (s.params.hasCont = true → ContinuationDeclines s) →
    ∃ n t, stepRun n s = .next t ∧ t.tx.state = .finished

/-- R278 with R180, R176, R185 (U8), with no transmit frame in flight, or with one that can run: ERROR ends once the
transport brings `ctl[EOF]`, without a length and without a store; and an armed receiver to which the transport brings
the frame of a payload it has room for, failed reads between its bytes allowed, finishes with that payload, unless a
continuation of the frame being sent may write its buffer. -/
def Obligations.ReceptionEndsOnceTheTransportBringsEof : Prop :=
  ∀ (s : State), TxQuiet s ∨ (ChanInv s ∧ Configured s ∧ BuffersStayPlaced s) →
    (∀ e, s.rx.state = .error → s.cfg.ctl[2]? = some e → TransportBrings e s →
      ∃ n t, n ≤ s.env.readAnswers.length ∧ stepRun n s = .next t ∧ t.rx.state = .idle ∧ t.rx.len = s.rx.len ∧
        (TxQuiet s ∨ s.params.hasCont = false → t.env.mem = s.env.mem)) ∧
    (∀ p, s.rx.state = .sof → s.rx.pos = 0 → s.cfg.ctl.length = s.params.nCtl → s.cfg.esc.length = s.params.nCtl →
      CfgLegal s.params s.cfg → p.length ≤ s.rx.cap → bufferAt s.params s.env.mem s.rx.buf s.rx.cap →
      TxQuiet s ∨ s.params.hasCont = false → bytesBrought s = frameOf s.cfg p →
      ∃ t, stepRun s.env.readAnswers.length s = .next t ∧ t.rx.state = .finished ∧ t.rx.len = p.length ∧
        holdsAt t.env.mem s.rx.buf p)
end

