-- ==== Sys2Proof/Laws/Results.lean ====
section
/-! SUPPORT. `andThen`: how a sequence of parts goes on, and what follows when the whole answers a value. -/
namespace Sys2Proof.Machine

variable {α β : Type}

@[simp] theorem andThen_next (a : α) (f : α → Res β) : andThen (.next a) f = f a := rfl
@[simp] theorem andThen_fault (r : Fault) (f : α → Res β) : andThen (.fault r) f = .fault r := rfl
@[simp] theorem andThen_refused (r : Refusal) (f : α → Res β) : andThen (.refused r) f = .refused r := rfl

/-- A sequence answers a value only through a value of its first part. -/
theorem andThen_eq_next {x : Res α} {f : α → Res β} {b : β} :
    andThen x f = .next b ↔ ∃ a, x = .next a ∧ f a = .next b := by
  cases x <;> simp [andThen]

end Sys2Proof.Machine
end

