-- ==== Sys2Proof/Laws/Memory.lean ====
section
/-! SUPPORT. PDU memory: read after write, and that every memory operation keeps the canonical form. -/
namespace Sys2Proof.Machine

theorem memGet_memPut_same (m : Memory) (a : Nat) (v : Byte) : memGet (memPut m a v) a = some v := by
  induction m with
  | nil => simp [memPut, memGet]
  | cons c m ih =>
    obtain ⟨k, w⟩ := c
    simp only [memPut]
    split
    · simp [memGet]
    · split
      · simp [memGet]
      · rename_i h
        simp [memGet, h, ih]

theorem memGet_memPut_other (m : Memory) {a b : Nat} (v : Byte) (h : b ≠ a) :
    memGet (memPut m a v) b = memGet m b := by
  induction m with
  | nil => simp [memPut, memGet, h]
  | cons c m ih =>
    obtain ⟨k, w⟩ := c
    simp only [memPut]
    split
    · simp [memGet, h]
    · split
      · rename_i hk
        subst hk
        simp [memGet, h]
      · simp only [memGet, ih]

theorem memGet_memPut (m : Memory) (a b : Nat) (v : Byte) :
    memGet (memPut m a v) b = if b = a then some v else memGet m b := by
  by_cases h : b = a
  · subst h; simp [memGet_memPut_same]
  · simp [h, memGet_memPut_other m v h]

theorem memGet_memPutAll_other (ws : List (Nat × Byte)) (m : Memory) {b : Nat} (h : ∀ w ∈ ws, w.1 ≠ b) :
    memGet (memPutAll m ws) b = memGet m b := by
  induction ws generalizing m with
  | nil => rfl
  | cons w ws ih =>
    obtain ⟨a, v⟩ := w
    rw [memPutAll, ih _ (fun w hw => h w (List.mem_cons_of_mem _ hw)),
      memGet_memPut_other _ _ (fun hab => h (a, v) List.mem_cons_self hab.symm)]

/-- Writing keeps a rising list rising above any bound the written address is above. -/
theorem risingFrom_memPut (m : Memory) (lo : Option Nat) (a : Nat) (v : Byte)
    (hlo : ∀ l, lo = some l → l < a) (h : risingFrom lo m = true) : risingFrom lo (memPut m a v) = true := by
  induction m generalizing lo with
  | nil => cases lo <;> simp_all [memPut, risingFrom]
  | cons c m ih =>
    obtain ⟨k, w⟩ := c
    have hk : risingFrom (some k) m = true := by cases lo <;> simp_all [risingFrom]
    have hlk : ∀ l, lo = some l → l < k := by rintro l rfl; simp_all [risingFrom]
    simp only [memPut]
    split
    · cases lo <;> simp_all [risingFrom]
    · split
      · subst_vars; cases lo <;> simp_all [risingFrom]
      · have := ih (some k) (by rintro l ⟨⟩; omega) hk
        cases lo <;> simp_all [risingFrom]

/-- A write keeps the canonical form. -/
theorem memWf_memPut {m : Memory} (a : Nat) (v : Byte) (h : memWf m = true) : memWf (memPut m a v) = true :=
  risingFrom_memPut m none a v (by simp) h

/-- Writes in sequence keep the canonical form. -/
theorem memWf_memPutAll {m : Memory} (ws : List (Nat × Byte)) (h : memWf m = true) :
    memWf (memPutAll m ws) = true := by
  induction ws generalizing m with
  | nil => exact h
  | cons w ws ih => exact ih (memWf_memPut _ _ h)

/-- The addresses listed after a write are those listed before and the written one. -/
theorem mem_memPut {m : Memory} {a : Nat} {v : Byte} {c : Host.Cell} (h : c ∈ memPut m a v) : c ∈ m ∨ c = (a, v) := by
  induction m with
  | nil => simp_all [memPut]
  | cons d m ih =>
    obtain ⟨k, w⟩ := d
    simp only [memPut] at h
    split at h
    · simp only [List.mem_cons] at h ⊢; tauto
    · split at h
      · simp only [List.mem_cons] at h ⊢; tauto
      · simp only [List.mem_cons] at h ⊢; tauto

theorem memInSpace_memPut {P : Params} {m : Memory} {a : Nat} (v : Byte) (h : memInSpace P m)
    (ha : a < 2 ^ P.addrW) : memInSpace P (memPut m a v) := by
  intro c hc
  rcases mem_memPut hc with hc | rfl
  · exact h c hc
  · exact ha

theorem memInSpace_memPutAll {P : Params} {m : Memory} {ws : List (Nat × Byte)} (h : memInSpace P m)
    (hw : ∀ w ∈ ws, w.1 < 2 ^ P.addrW) : memInSpace P (memPutAll m ws) := by
  induction ws generalizing m with
  | nil => exact h
  | cons w ws ih =>
    exact ih (memInSpace_memPut _ h (hw w List.mem_cons_self)) (fun w hw' => hw w (List.mem_cons_of_mem _ hw'))

/-- A byte once placed stays placed under any write. -/
theorem memGet_memPut_isSome {m : Memory} {a : Nat} (b : Nat) (v : Byte) (h : (memGet m a).isSome = true) :
    (memGet (memPut m b v) a).isSome = true := by
  rw [memGet_memPut]
  split <;> simp [h]

/-- A byte once placed stays placed under any writes. -/
theorem memGet_memPutAll_isSome {m : Memory} {a : Nat} (ws : List (Nat × Byte)) (h : (memGet m a).isSome = true) :
    (memGet (memPutAll m ws) a).isSome = true := by
  induction ws generalizing m with
  | nil => exact h
  | cons w ws ih => exact ih (memGet_memPut_isSome _ _ h)

/-- The framer reaches an address exactly when it is inside the space and a byte is placed there. -/
theorem placedByte_eq_next {a : Nat} {s : State} {v : Byte} :
    placedByte a s = .next v ↔ a < 2 ^ s.params.addrW ∧ memGet s.env.mem a = some v := by
  unfold placedByte inSpace
  by_cases ha : a < 2 ^ s.params.addrW
  · cases hm : memGet s.env.mem a <;> simp [ha]
  · simp [ha]

/-- Where the framer stops at an address, and how. -/
theorem placedByte_eq_fault {a : Nat} {s : State} {f : Fault} :
    placedByte a s = .fault f ↔ stopsAt s.params s.env.mem a f := by
  unfold placedByte inSpace stopsAt
  by_cases ha : a < 2 ^ s.params.addrW
  · cases hm : memGet s.env.mem a <;> simp [ha, Nat.not_le.mpr ha, eq_comm]
  · simp [ha, Nat.le_of_not_lt ha, eq_comm]

/-- What a memory read answers: the placed byte, inside the space, with only the record extended. -/
theorem memRead_eq_next {a : Nat} {s : State} {r : Byte × State} :
    memRead a s = .next r ↔
      a < 2 ^ s.params.addrW ∧ memGet s.env.mem a = some r.1 ∧ r.2 = note (.memRead a r.1) s := by
  obtain ⟨b, t⟩ := r
  simp only [memRead, andThen_eq_next, placedByte_eq_next, Host.Outcome.next.injEq, Prod.mk.injEq]
  constructor
  · rintro ⟨v, ⟨h, hv⟩, rfl, rfl⟩; exact ⟨h, hv, rfl⟩
  · rintro ⟨h, hv, rfl⟩; exact ⟨b, ⟨h, hv⟩, rfl, rfl⟩

/-- What a memory write answers: the byte there replaced and the record extended. -/
theorem memWrite_eq_next {a : Nat} {v : Byte} {s t : State} :
    memWrite a v s = .next t ↔
      placed s.params s.env.mem a ∧ t = note (.memWrite a v) { s with env.mem := memPut s.env.mem a v } := by
  simp only [memWrite, andThen_eq_next, placedByte_eq_next, Host.Outcome.next.injEq, placed, Option.isSome_iff_exists]
  constructor
  · rintro ⟨w, ⟨h, hw⟩, rfl⟩; exact ⟨⟨h, w, hw⟩, rfl⟩
  · rintro ⟨⟨h, w, hw⟩, rfl⟩; exact ⟨w, ⟨h, hw⟩, rfl⟩

end Sys2Proof.Machine
end

