-- ==== Sys2Proof/Laws/State.lean ====
section
/-! SUPPORT. One lemma per field per update: what each named update of the state leaves in each field. A lemma named
`<update>_<field>` says the field of the updated state. The draws and the port requests say the fields they keep. -/
namespace Sys2Proof.Machine

variable (s : State)

@[simp] theorem note_params (e : Event) : (note e s).params = s.params := rfl
@[simp] theorem note_cfg (e : Event) : (note e s).cfg = s.cfg := rfl
@[simp] theorem note_bound (e : Event) : (note e s).bound = s.bound := rfl
@[simp] theorem note_handle (e : Event) : (note e s).handle = s.handle := rfl
@[simp] theorem note_tx (e : Event) : (note e s).tx = s.tx := rfl
@[simp] theorem note_rx (e : Event) : (note e s).rx = s.rx := rfl
@[simp] theorem note_rxLast (e : Event) : (note e s).rxLast = s.rxLast := rfl
@[simp] theorem note_written (e : Event) : (note e s).written = s.written := rfl
@[simp] theorem note_env_mem (e : Event) : (note e s).env.mem = s.env.mem := rfl
@[simp] theorem note_env_inputs (e : Event) : (note e s).env.inputs = s.env.inputs := rfl
@[simp] theorem note_env_readAnswers (e : Event) : (note e s).env.readAnswers = s.env.readAnswers := rfl
@[simp] theorem note_env_writeAnswers (e : Event) : (note e s).env.writeAnswers = s.env.writeAnswers := rfl
@[simp] theorem note_env_contAnswers (e : Event) : (note e s).env.contAnswers = s.env.contAnswers := rfl
@[simp] theorem note_env_draws (e : Event) : (note e s).env.draws = s.env.draws := rfl
@[simp] theorem note_env_trace (e : Event) : (note e s).env.trace = s.env.trace ++ [e] := rfl
@[simp] theorem note_env_response (e : Event) : (note e s).env.response = s.env.response := rfl

@[simp] theorem respond_params (st : Status) : (respond st s).params = s.params := rfl
@[simp] theorem respond_cfg (st : Status) : (respond st s).cfg = s.cfg := rfl
@[simp] theorem respond_bound (st : Status) : (respond st s).bound = s.bound := rfl
@[simp] theorem respond_handle (st : Status) : (respond st s).handle = s.handle := rfl
@[simp] theorem respond_tx (st : Status) : (respond st s).tx = s.tx := rfl
@[simp] theorem respond_rx (st : Status) : (respond st s).rx = s.rx := rfl
@[simp] theorem respond_rxLast (st : Status) : (respond st s).rxLast = s.rxLast := rfl
@[simp] theorem respond_written (st : Status) : (respond st s).written = s.written := rfl
@[simp] theorem respond_env_mem (st : Status) : (respond st s).env.mem = s.env.mem := rfl
@[simp] theorem respond_env_inputs (st : Status) : (respond st s).env.inputs = s.env.inputs := rfl
@[simp] theorem respond_env_readAnswers (st : Status) : (respond st s).env.readAnswers = s.env.readAnswers := rfl
@[simp] theorem respond_env_writeAnswers (st : Status) : (respond st s).env.writeAnswers = s.env.writeAnswers := rfl
@[simp] theorem respond_env_contAnswers (st : Status) : (respond st s).env.contAnswers = s.env.contAnswers := rfl
@[simp] theorem respond_env_draws (st : Status) : (respond st s).env.draws = s.env.draws := rfl
@[simp] theorem respond_env_trace (st : Status) : (respond st s).env.trace = s.env.trace := rfl
@[simp] theorem respond_env_response (st : Status) : (respond st s).env.response = some { status := st, byte := none } := rfl

@[simp] theorem respondByte_params (st : Status) (b : Option Byte) : (respondByte st b s).params = s.params := rfl
@[simp] theorem respondByte_cfg (st : Status) (b : Option Byte) : (respondByte st b s).cfg = s.cfg := rfl
@[simp] theorem respondByte_bound (st : Status) (b : Option Byte) : (respondByte st b s).bound = s.bound := rfl
@[simp] theorem respondByte_handle (st : Status) (b : Option Byte) : (respondByte st b s).handle = s.handle := rfl
@[simp] theorem respondByte_tx (st : Status) (b : Option Byte) : (respondByte st b s).tx = s.tx := rfl
@[simp] theorem respondByte_rx (st : Status) (b : Option Byte) : (respondByte st b s).rx = s.rx := rfl
@[simp] theorem respondByte_rxLast (st : Status) (b : Option Byte) : (respondByte st b s).rxLast = s.rxLast := rfl
@[simp] theorem respondByte_written (st : Status) (b : Option Byte) : (respondByte st b s).written = s.written := rfl
@[simp] theorem respondByte_env_mem (st : Status) (b : Option Byte) : (respondByte st b s).env.mem = s.env.mem := rfl
@[simp] theorem respondByte_env_inputs (st : Status) (b : Option Byte) : (respondByte st b s).env.inputs = s.env.inputs := rfl
@[simp] theorem respondByte_env_readAnswers (st : Status) (b : Option Byte) : (respondByte st b s).env.readAnswers = s.env.readAnswers := rfl
@[simp] theorem respondByte_env_writeAnswers (st : Status) (b : Option Byte) : (respondByte st b s).env.writeAnswers = s.env.writeAnswers := rfl
@[simp] theorem respondByte_env_contAnswers (st : Status) (b : Option Byte) : (respondByte st b s).env.contAnswers = s.env.contAnswers := rfl
@[simp] theorem respondByte_env_draws (st : Status) (b : Option Byte) : (respondByte st b s).env.draws = s.env.draws := rfl
@[simp] theorem respondByte_env_trace (st : Status) (b : Option Byte) : (respondByte st b s).env.trace = s.env.trace := rfl
@[simp] theorem respondByte_env_response (st : Status) (b : Option Byte) : (respondByte st b s).env.response = some { status := st, byte := b } := rfl

@[simp] theorem enterError_params : (enterError s).params = s.params := rfl
@[simp] theorem enterError_cfg : (enterError s).cfg = s.cfg := rfl
@[simp] theorem enterError_bound : (enterError s).bound = s.bound := rfl
@[simp] theorem enterError_handle : (enterError s).handle = s.handle := rfl
@[simp] theorem enterError_tx : (enterError s).tx = s.tx := rfl
@[simp] theorem enterError_rx : (enterError s).rx = { s.rx with state := .error } := rfl
@[simp] theorem enterError_rxLast : (enterError s).rxLast = s.rxLast := rfl
@[simp] theorem enterError_written : (enterError s).written = s.written := rfl
@[simp] theorem enterError_env_mem : (enterError s).env.mem = s.env.mem := rfl
@[simp] theorem enterError_env_inputs : (enterError s).env.inputs = s.env.inputs := rfl
@[simp] theorem enterError_env_readAnswers : (enterError s).env.readAnswers = s.env.readAnswers := rfl
@[simp] theorem enterError_env_writeAnswers : (enterError s).env.writeAnswers = s.env.writeAnswers := rfl
@[simp] theorem enterError_env_contAnswers : (enterError s).env.contAnswers = s.env.contAnswers := rfl
@[simp] theorem enterError_env_draws : (enterError s).env.draws = s.env.draws := rfl
@[simp] theorem enterError_env_trace : (enterError s).env.trace = s.env.trace := rfl
@[simp] theorem enterError_env_response : (enterError s).env.response = s.env.response := rfl

@[simp] theorem leaveError_params : (leaveError s).params = s.params := rfl
@[simp] theorem leaveError_cfg : (leaveError s).cfg = s.cfg := rfl
@[simp] theorem leaveError_bound : (leaveError s).bound = s.bound := rfl
@[simp] theorem leaveError_handle : (leaveError s).handle = s.handle := rfl
@[simp] theorem leaveError_tx : (leaveError s).tx = s.tx := rfl
@[simp] theorem leaveError_rx : (leaveError s).rx = { s.rx with pos := 0, state := .idle } := rfl
@[simp] theorem leaveError_rxLast : (leaveError s).rxLast = s.rxLast := rfl
@[simp] theorem leaveError_written : (leaveError s).written = s.written := rfl
@[simp] theorem leaveError_env_mem : (leaveError s).env.mem = s.env.mem := rfl
@[simp] theorem leaveError_env_inputs : (leaveError s).env.inputs = s.env.inputs := rfl
@[simp] theorem leaveError_env_readAnswers : (leaveError s).env.readAnswers = s.env.readAnswers := rfl
@[simp] theorem leaveError_env_writeAnswers : (leaveError s).env.writeAnswers = s.env.writeAnswers := rfl
@[simp] theorem leaveError_env_contAnswers : (leaveError s).env.contAnswers = s.env.contAnswers := rfl
@[simp] theorem leaveError_env_draws : (leaveError s).env.draws = s.env.draws := rfl
@[simp] theorem leaveError_env_trace : (leaveError s).env.trace = s.env.trace := rfl
@[simp] theorem leaveError_env_response : (leaveError s).env.response = s.env.response := rfl

@[simp] theorem contLoad_params (a : ContAnswer) : (contLoad a s).params = s.params := rfl
@[simp] theorem contLoad_cfg (a : ContAnswer) : (contLoad a s).cfg = s.cfg := rfl
@[simp] theorem contLoad_bound (a : ContAnswer) : (contLoad a s).bound = s.bound := rfl
@[simp] theorem contLoad_handle (a : ContAnswer) : (contLoad a s).handle = s.handle := rfl
@[simp] theorem contLoad_tx (a : ContAnswer) : (contLoad a s).tx = { s.tx with data := a.data, len := a.len, pos := a.pos } := rfl
@[simp] theorem contLoad_rx (a : ContAnswer) : (contLoad a s).rx = s.rx := rfl
@[simp] theorem contLoad_rxLast (a : ContAnswer) : (contLoad a s).rxLast = s.rxLast := rfl
@[simp] theorem contLoad_written (a : ContAnswer) : (contLoad a s).written = { s.written with tx := true } := rfl
@[simp] theorem contLoad_env_mem (a : ContAnswer) : (contLoad a s).env.mem = s.env.mem := rfl
@[simp] theorem contLoad_env_inputs (a : ContAnswer) : (contLoad a s).env.inputs = s.env.inputs := rfl
@[simp] theorem contLoad_env_readAnswers (a : ContAnswer) : (contLoad a s).env.readAnswers = s.env.readAnswers := rfl
@[simp] theorem contLoad_env_writeAnswers (a : ContAnswer) : (contLoad a s).env.writeAnswers = s.env.writeAnswers := rfl
@[simp] theorem contLoad_env_contAnswers (a : ContAnswer) : (contLoad a s).env.contAnswers = s.env.contAnswers := rfl
@[simp] theorem contLoad_env_draws (a : ContAnswer) : (contLoad a s).env.draws = s.env.draws := rfl
@[simp] theorem contLoad_env_trace (a : ContAnswer) : (contLoad a s).env.trace = s.env.trace := rfl
@[simp] theorem contLoad_env_response (a : ContAnswer) : (contLoad a s).env.response = s.env.response := rfl

@[simp] theorem hostWrite_params (a : Nat) (v : Byte) : (hostWrite a v s).params = s.params := rfl
@[simp] theorem hostWrite_cfg (a : Nat) (v : Byte) : (hostWrite a v s).cfg = s.cfg := rfl
@[simp] theorem hostWrite_bound (a : Nat) (v : Byte) : (hostWrite a v s).bound = s.bound := rfl
@[simp] theorem hostWrite_handle (a : Nat) (v : Byte) : (hostWrite a v s).handle = s.handle := rfl
@[simp] theorem hostWrite_tx (a : Nat) (v : Byte) : (hostWrite a v s).tx = s.tx := rfl
@[simp] theorem hostWrite_rx (a : Nat) (v : Byte) : (hostWrite a v s).rx = s.rx := rfl
@[simp] theorem hostWrite_rxLast (a : Nat) (v : Byte) : (hostWrite a v s).rxLast = s.rxLast := rfl
@[simp] theorem hostWrite_written (a : Nat) (v : Byte) : (hostWrite a v s).written = s.written := rfl
@[simp] theorem hostWrite_env_mem (a : Nat) (v : Byte) : (hostWrite a v s).env.mem = memPut s.env.mem (a % 2 ^ s.params.addrW) v := rfl
@[simp] theorem hostWrite_env_inputs (a : Nat) (v : Byte) : (hostWrite a v s).env.inputs = s.env.inputs := rfl
@[simp] theorem hostWrite_env_readAnswers (a : Nat) (v : Byte) : (hostWrite a v s).env.readAnswers = s.env.readAnswers := rfl
@[simp] theorem hostWrite_env_writeAnswers (a : Nat) (v : Byte) : (hostWrite a v s).env.writeAnswers = s.env.writeAnswers := rfl
@[simp] theorem hostWrite_env_contAnswers (a : Nat) (v : Byte) : (hostWrite a v s).env.contAnswers = s.env.contAnswers := rfl
@[simp] theorem hostWrite_env_draws (a : Nat) (v : Byte) : (hostWrite a v s).env.draws = s.env.draws := rfl
@[simp] theorem hostWrite_env_trace (a : Nat) (v : Byte) : (hostWrite a v s).env.trace = s.env.trace := rfl
@[simp] theorem hostWrite_env_response (a : Nat) (v : Byte) : (hostWrite a v s).env.response = s.env.response := rfl

@[simp] theorem hwReset_params : (hwReset s).params = s.params := rfl
@[simp] theorem hwReset_cfg : (hwReset s).cfg = { ctl := List.replicate s.params.nCtl 0, esc := List.replicate s.params.nCtl 0, num := 0 } := rfl
@[simp] theorem hwReset_bound : (hwReset s).bound = false := rfl
@[simp] theorem hwReset_handle : (hwReset s).handle = 0 := rfl
@[simp] theorem hwReset_tx : (hwReset s).tx = { state := .config, data := 0, len := 0, pos := 0, escid := 0 } := rfl
@[simp] theorem hwReset_rx : (hwReset s).rx = { state := .idle, buf := 0, cap := 0, pos := 0, len := 0 } := rfl
@[simp] theorem hwReset_rxLast : (hwReset s).rxLast = .ok := rfl
@[simp] theorem hwReset_written : (hwReset s).written = { cfg := false, handle := false, tx := false, escid := false, rx := false, rxLen := false } := rfl
@[simp] theorem hwReset_env_mem : (hwReset s).env.mem = s.env.mem := rfl
@[simp] theorem hwReset_env_inputs : (hwReset s).env.inputs = s.env.inputs := rfl
@[simp] theorem hwReset_env_readAnswers : (hwReset s).env.readAnswers = s.env.readAnswers := rfl
@[simp] theorem hwReset_env_writeAnswers : (hwReset s).env.writeAnswers = s.env.writeAnswers := rfl
@[simp] theorem hwReset_env_contAnswers : (hwReset s).env.contAnswers = s.env.contAnswers := rfl
@[simp] theorem hwReset_env_draws : (hwReset s).env.draws = s.env.draws := rfl
@[simp] theorem hwReset_env_trace : (hwReset s).env.trace = s.env.trace := rfl
@[simp] theorem hwReset_env_response : (hwReset s).env.response = none := rfl

@[simp] theorem drawWrite_params : (drawWrite s).2.params = s.params := by unfold drawWrite; split <;> rfl
@[simp] theorem drawWrite_cfg : (drawWrite s).2.cfg = s.cfg := by unfold drawWrite; split <;> rfl
@[simp] theorem drawWrite_bound : (drawWrite s).2.bound = s.bound := by unfold drawWrite; split <;> rfl
@[simp] theorem drawWrite_handle : (drawWrite s).2.handle = s.handle := by unfold drawWrite; split <;> rfl
@[simp] theorem drawWrite_tx : (drawWrite s).2.tx = s.tx := by unfold drawWrite; split <;> rfl
@[simp] theorem drawWrite_rx : (drawWrite s).2.rx = s.rx := by unfold drawWrite; split <;> rfl
@[simp] theorem drawWrite_rxLast : (drawWrite s).2.rxLast = s.rxLast := by unfold drawWrite; split <;> rfl
@[simp] theorem drawWrite_written : (drawWrite s).2.written = s.written := by unfold drawWrite; split <;> rfl
@[simp] theorem drawWrite_env_mem : (drawWrite s).2.env.mem = s.env.mem := by unfold drawWrite; split <;> rfl
@[simp] theorem drawWrite_env_inputs : (drawWrite s).2.env.inputs = s.env.inputs := by unfold drawWrite; split <;> rfl
@[simp] theorem drawWrite_env_readAnswers : (drawWrite s).2.env.readAnswers = s.env.readAnswers := by unfold drawWrite; split <;> rfl
@[simp] theorem drawWrite_env_contAnswers : (drawWrite s).2.env.contAnswers = s.env.contAnswers := by unfold drawWrite; split <;> rfl
@[simp] theorem drawWrite_env_trace : (drawWrite s).2.env.trace = s.env.trace := by unfold drawWrite; split <;> rfl
@[simp] theorem drawWrite_env_response : (drawWrite s).2.env.response = s.env.response := by unfold drawWrite; split <;> rfl

@[simp] theorem drawRead_params : (drawRead s).2.params = s.params := by unfold drawRead; split <;> rfl
@[simp] theorem drawRead_cfg : (drawRead s).2.cfg = s.cfg := by unfold drawRead; split <;> rfl
@[simp] theorem drawRead_bound : (drawRead s).2.bound = s.bound := by unfold drawRead; split <;> rfl
@[simp] theorem drawRead_handle : (drawRead s).2.handle = s.handle := by unfold drawRead; split <;> rfl
@[simp] theorem drawRead_tx : (drawRead s).2.tx = s.tx := by unfold drawRead; split <;> rfl
@[simp] theorem drawRead_rx : (drawRead s).2.rx = s.rx := by unfold drawRead; split <;> rfl
@[simp] theorem drawRead_rxLast : (drawRead s).2.rxLast = s.rxLast := by unfold drawRead; split <;> rfl
@[simp] theorem drawRead_written : (drawRead s).2.written = s.written := by unfold drawRead; split <;> rfl
@[simp] theorem drawRead_env_mem : (drawRead s).2.env.mem = s.env.mem := by unfold drawRead; split <;> rfl
@[simp] theorem drawRead_env_inputs : (drawRead s).2.env.inputs = s.env.inputs := by unfold drawRead; split <;> rfl
@[simp] theorem drawRead_env_writeAnswers : (drawRead s).2.env.writeAnswers = s.env.writeAnswers := by unfold drawRead; split <;> rfl
@[simp] theorem drawRead_env_contAnswers : (drawRead s).2.env.contAnswers = s.env.contAnswers := by unfold drawRead; split <;> rfl
@[simp] theorem drawRead_env_trace : (drawRead s).2.env.trace = s.env.trace := by unfold drawRead; split <;> rfl
@[simp] theorem drawRead_env_response : (drawRead s).2.env.response = s.env.response := by unfold drawRead; split <;> rfl

@[simp] theorem drawCont_params : (drawCont s).2.params = s.params := by unfold drawCont; split <;> rfl
@[simp] theorem drawCont_cfg : (drawCont s).2.cfg = s.cfg := by unfold drawCont; split <;> rfl
@[simp] theorem drawCont_bound : (drawCont s).2.bound = s.bound := by unfold drawCont; split <;> rfl
@[simp] theorem drawCont_handle : (drawCont s).2.handle = s.handle := by unfold drawCont; split <;> rfl
@[simp] theorem drawCont_tx : (drawCont s).2.tx = s.tx := by unfold drawCont; split <;> rfl
@[simp] theorem drawCont_rx : (drawCont s).2.rx = s.rx := by unfold drawCont; split <;> rfl
@[simp] theorem drawCont_rxLast : (drawCont s).2.rxLast = s.rxLast := by unfold drawCont; split <;> rfl
@[simp] theorem drawCont_written : (drawCont s).2.written = s.written := by unfold drawCont; split <;> rfl
@[simp] theorem drawCont_env_mem : (drawCont s).2.env.mem = s.env.mem := by unfold drawCont; split <;> rfl
@[simp] theorem drawCont_env_inputs : (drawCont s).2.env.inputs = s.env.inputs := by unfold drawCont; split <;> rfl
@[simp] theorem drawCont_env_readAnswers : (drawCont s).2.env.readAnswers = s.env.readAnswers := by unfold drawCont; split <;> rfl
@[simp] theorem drawCont_env_writeAnswers : (drawCont s).2.env.writeAnswers = s.env.writeAnswers := by unfold drawCont; split <;> rfl
@[simp] theorem drawCont_env_trace : (drawCont s).2.env.trace = s.env.trace := by unfold drawCont; split <;> rfl
@[simp] theorem drawCont_env_response : (drawCont s).2.env.response = s.env.response := by unfold drawCont; split <;> rfl

@[simp] theorem tpWrite_params (b : Byte) : (tpWrite b s).params = s.params := by simp [tpWrite]
@[simp] theorem tpWrite_cfg (b : Byte) : (tpWrite b s).cfg = s.cfg := by simp [tpWrite]
@[simp] theorem tpWrite_bound (b : Byte) : (tpWrite b s).bound = s.bound := by simp [tpWrite]
@[simp] theorem tpWrite_handle (b : Byte) : (tpWrite b s).handle = s.handle := by simp [tpWrite]
@[simp] theorem tpWrite_tx (b : Byte) : (tpWrite b s).tx = s.tx := by simp [tpWrite]
@[simp] theorem tpWrite_rx (b : Byte) : (tpWrite b s).rx = s.rx := by simp [tpWrite]
@[simp] theorem tpWrite_rxLast (b : Byte) : (tpWrite b s).rxLast = s.rxLast := by simp [tpWrite]
@[simp] theorem tpWrite_written (b : Byte) : (tpWrite b s).written = s.written := by simp [tpWrite]
@[simp] theorem tpWrite_env_mem (b : Byte) : (tpWrite b s).env.mem = s.env.mem := by simp [tpWrite]
@[simp] theorem tpWrite_env_inputs (b : Byte) : (tpWrite b s).env.inputs = s.env.inputs := by simp [tpWrite]
@[simp] theorem tpWrite_env_readAnswers (b : Byte) : (tpWrite b s).env.readAnswers = s.env.readAnswers := by simp [tpWrite]
@[simp] theorem tpWrite_env_contAnswers (b : Byte) : (tpWrite b s).env.contAnswers = s.env.contAnswers := by simp [tpWrite]
@[simp] theorem tpWrite_env_response (b : Byte) : (tpWrite b s).env.response = s.env.response := by simp [tpWrite]

@[simp] theorem tpRead_params : (tpRead s).2.params = s.params := by simp [tpRead]
@[simp] theorem tpRead_cfg : (tpRead s).2.cfg = s.cfg := by simp [tpRead]
@[simp] theorem tpRead_bound : (tpRead s).2.bound = s.bound := by simp [tpRead]
@[simp] theorem tpRead_handle : (tpRead s).2.handle = s.handle := by simp [tpRead]
@[simp] theorem tpRead_tx : (tpRead s).2.tx = s.tx := by simp [tpRead]
@[simp] theorem tpRead_rx : (tpRead s).2.rx = s.rx := by simp [tpRead]
@[simp] theorem tpRead_rxLast : (tpRead s).2.rxLast = s.rxLast := by simp [tpRead]
@[simp] theorem tpRead_written : (tpRead s).2.written = s.written := by simp [tpRead]
@[simp] theorem tpRead_env_mem : (tpRead s).2.env.mem = s.env.mem := by simp [tpRead]
@[simp] theorem tpRead_env_inputs : (tpRead s).2.env.inputs = s.env.inputs := by simp [tpRead]
@[simp] theorem tpRead_env_writeAnswers : (tpRead s).2.env.writeAnswers = s.env.writeAnswers := by simp [tpRead]
@[simp] theorem tpRead_env_contAnswers : (tpRead s).2.env.contAnswers = s.env.contAnswers := by simp [tpRead]
@[simp] theorem tpRead_env_response : (tpRead s).2.env.response = s.env.response := by simp [tpRead]

@[simp] theorem contRequest_params : (contRequest s).2.params = s.params := by simp [contRequest]
@[simp] theorem contRequest_cfg : (contRequest s).2.cfg = s.cfg := by simp [contRequest]
@[simp] theorem contRequest_bound : (contRequest s).2.bound = s.bound := by simp [contRequest]
@[simp] theorem contRequest_handle : (contRequest s).2.handle = s.handle := by simp [contRequest]
@[simp] theorem contRequest_tx : (contRequest s).2.tx = s.tx := by simp [contRequest]
@[simp] theorem contRequest_rx : (contRequest s).2.rx = s.rx := by simp [contRequest]
@[simp] theorem contRequest_rxLast : (contRequest s).2.rxLast = s.rxLast := by simp [contRequest]
@[simp] theorem contRequest_written : (contRequest s).2.written = s.written := by simp [contRequest]
@[simp] theorem contRequest_env_inputs : (contRequest s).2.env.inputs = s.env.inputs := by simp [contRequest]
@[simp] theorem contRequest_env_readAnswers : (contRequest s).2.env.readAnswers = s.env.readAnswers := by simp [contRequest]
@[simp] theorem contRequest_env_writeAnswers : (contRequest s).2.env.writeAnswers = s.env.writeAnswers := by simp [contRequest]
@[simp] theorem contRequest_env_response : (contRequest s).2.env.response = s.env.response := by simp [contRequest]

end Sys2Proof.Machine
end

