-- ==== Sys2Proof/Laws/Tables.lean ====
section
/-! SUPPORT. The configuration tables: what a lookup answers (R92), and when a table read answers. -/
namespace Sys2Proof.Machine

theorem lookupIn_eq_some {tbl : List Byte} {num i : Nat} {b : Byte} :
    lookupIn tbl num b = some i ↔ i < num ∧ tbl[i]? = some b ∧ ∀ j < i, tbl[j]? ≠ some b := by
  rw [lookupIn, List.findIdx?_eq_some_iff_getElem]
  constructor
  · rintro ⟨h, hb, hj⟩
    simp only [List.length_take, lt_inf_iff] at h
    simp only [List.getElem_take, beq_iff_eq] at hb hj
    refine ⟨h.1, by rw [List.getElem?_eq_getElem h.2, hb], fun j hji => ?_⟩
    have := hj j hji
    rw [List.getElem?_eq_getElem (by omega)]
    simpa using this
  · rintro ⟨h, hb, hj⟩
    obtain ⟨hl, hb⟩ := List.getElem?_eq_some_iff.mp hb
    refine ⟨by simp [h, hl], by simp [hb], fun j hji => ?_⟩
    have := hj j hji
    rw [List.getElem?_eq_getElem (by omega)] at this
    simpa using this

theorem lookupIn_eq_none {tbl : List Byte} {num : Nat} {b : Byte} :
    lookupIn tbl num b = none ↔ ∀ j < num, tbl[j]? ≠ some b := by
  rw [lookupIn, List.findIdx?_eq_none_iff]
  simp only [beq_eq_false_iff_ne]
  constructor
  · intro h j hj hb
    obtain ⟨hl, hb⟩ := List.getElem?_eq_some_iff.mp hb
    exact h b (List.mem_take_iff_getElem.mpr ⟨j, by omega, hb⟩) rfl
  · rintro h x hx rfl
    obtain ⟨j, hj, hb⟩ := List.mem_take_iff_getElem.mp hx
    exact h j (by omega) (by rw [List.getElem?_eq_getElem (by omega), hb])

theorem lookupIn_lt {tbl : List Byte} {num i : Nat} {b : Byte} (h : lookupIn tbl num b = some i) :
    i < num ∧ i < tbl.length := by
  obtain ⟨h1, h2, -⟩ := lookupIn_eq_some.mp h
  exact ⟨h1, (List.getElem?_eq_some_iff.mp h2).1⟩

/-- A scan answers the least match, or none when every entry it may look at exists and none matches; else it refuses. -/
theorem scanTable_eq (tbl : List Byte) (n : Nat) (b : Byte) (i : Nat) :
    scanTable tbl n b i =
      match lookupIn tbl n b with
      | some k => .next (some (i + k))
      | none => if n ≤ tbl.length then .next none else .refused .tableEntryAbsent := by
  induction tbl generalizing n i with
  | nil => cases n <;> simp [scanTable, lookupIn]
  | cons x xs ih =>
    cases n with
    | zero => simp [scanTable, lookupIn]
    | succ n =>
      simp only [scanTable, lookupIn, List.take_succ_cons, List.findIdx?_cons, beq_iff_eq, ih]
      by_cases hx : x = b
      · simp [hx]
      · simp only [hx, if_false]
        cases (xs.take n).findIdx? fun x => x == b <;> simp [Nat.add_assoc, Nat.add_comm 1]

theorem entryAt_eq_next {tbl : List Byte} {i : Nat} {b : Byte} : entryAt tbl i = .next b ↔ tbl[i]? = some b := by
  unfold entryAt; cases tbl[i]? <;> simp

/-- A control value is read from a table that has the entry. -/
theorem readCtl_eq_next {i : Nat} {s : State} {b : Byte} : readCtl i s = .next b ↔ s.cfg.ctl[i]? = some b :=
  entryAt_eq_next

/-- A substitute is read from a table that has the entry. -/
theorem readEsc_eq_next {i : Nat} {s : State} {b : Byte} : readEsc i s = .next b ↔ s.cfg.esc[i]? = some b :=
  entryAt_eq_next

theorem scanTable_eq_next {tbl : List Byte} {n : Nat} {b : Byte} {o : Option Nat} :
    scanTable tbl n b 0 = .next o ↔ lookupIn tbl n b = o ∧ (o = none → n ≤ tbl.length) := by
  rw [scanTable_eq]
  cases h : lookupIn tbl n b with
  | some k => simp; rintro rfl; simp
  | none => by_cases hn : n ≤ tbl.length <;> simp [hn, eq_comm]

/-- What `LookupCtl` answers. -/
theorem lookupCtl_eq_next {b : Byte} {s : State} {o : Option Nat} :
    lookupCtl b s = .next o ↔
      lookupIn s.cfg.ctl s.cfg.num b = o ∧ (o = none → s.cfg.num ≤ s.cfg.ctl.length) :=
  scanTable_eq_next

/-- What `LookupEsc` answers. -/
theorem lookupEsc_eq_next {b : Byte} {s : State} {o : Option Nat} :
    lookupEsc b s = .next o ↔
      lookupIn s.cfg.esc s.cfg.num b = o ∧ (o = none → s.cfg.num ≤ s.cfg.esc.length) :=
  scanTable_eq_next

/-- The computation decides legality (R22). -/
theorem cfgLegal_iff {P : Params} {c : CfgRegs} : cfgLegal P c = true ↔ CfgLegal P c := by
  simp only [cfgLegal, Bool.and_eq_true, decide_eq_true_eq]
  exact ⟨fun ⟨h1, h2, h3, h4⟩ => ⟨h1, h2, h3, h4⟩, fun h => ⟨h.1, h.2, h.3, h.4⟩⟩

/-- A run that U1 refuses: an illegal configuration is loaded. -/
theorem stepUnderLegalCfg_refused {s : State} (hw : s.written.cfg = true) (h : ¬ CfgLegal s.params s.cfg) :
    stepUnderLegalCfg s = .refused .illegalConfiguration := by
  have : cfgLegal s.params s.cfg = false := by rw [← Bool.not_eq_true, cfgLegal_iff]; exact h
  simp [stepUnderLegalCfg, hw, this]

/-- Every other run goes on as the machine does. -/
theorem stepUnderLegalCfg_eq_step {s : State} (h : s.written.cfg = true → CfgLegal s.params s.cfg) :
    stepUnderLegalCfg s = step s := by
  cases hw : s.written.cfg with
  | false => simp [stepUnderLegalCfg, hw]
  | true => simp [stepUnderLegalCfg, hw, cfgLegal_iff.mpr (h hw)]

/-- A next state of the guarded step is the machine's next state, so what holds of every step holds of it too. -/
theorem stepUnderLegalCfg_eq_next {s t : State} :
    stepUnderLegalCfg s = .next t ↔ (s.written.cfg = true → CfgLegal s.params s.cfg) ∧ step s = .next t := by
  by_cases h : s.written.cfg = true → CfgLegal s.params s.cfg
  · rw [stepUnderLegalCfg_eq_step h]
    exact (and_iff_right h).symm
  · obtain ⟨hw, hl⟩ := Classical.not_imp.mp h
    simp [stepUnderLegalCfg_refused hw hl, h]

end Sys2Proof.Machine
end

