-- ==== Sys2Proof/Laws/Receive.lean ====
section
/-! SUPPORT. RXBYTE: one inversion lemma for each part of it, and what it leaves alone. -/
namespace Sys2Proof.Machine

/-- The state after `v` was stored at the cursor (R182). -/
def storedByte (v : Byte) (s : State) : State :=
  { note (.memWrite (rxStoreAddr s) v) { s with env.mem := memPut s.env.mem (rxStoreAddr s) v } with
    rx.pos := s.rx.pos + 1 }

/-- Everything RxStore can answer: the byte stored, or ERROR. -/
theorem rxStore_cases {v : Byte} {s t : State} (h : rxStore v s = .next t) :
    (s.rx.pos < s.rx.cap ∧ placed s.params s.env.mem (rxStoreAddr s) ∧ t = storedByte v s) ∨
    (¬ s.rx.pos < s.rx.cap ∧ t = enterError s) := by
  unfold rxStore at h
  by_cases hp : s.rx.pos < s.rx.cap
  · rw [if_pos hp] at h
    obtain ⟨u, hu, h⟩ := andThen_eq_next.mp h
    obtain ⟨ha, rfl⟩ := memWrite_eq_next.mp hu
    simp only [Host.Outcome.next.injEq] at h
    exact .inl ⟨hp, ha, h.symm⟩
  · rw [if_neg hp] at h
    simp only [Host.Outcome.next.injEq] at h
    exact .inr ⟨hp, h.symm⟩

/-- Everything RXBYTE in DATA can answer. -/
theorem rxData_cases {b : Byte} {s : State} {r : RxResult} (h : rxData b s = .next r) :
    ∃ sof, readCtl idSOF s = .next sof ∧
      ((b = sof ∧ r = ({ s with rx.pos := 0 }, .byteReceived)) ∨
       (b ≠ sof ∧ ∃ esc, readCtl idESC s = .next esc ∧
         ((b = esc ∧ r = ({ s with rx.state := .esc }, .byteReceived)) ∨
          (b ≠ esc ∧ ∃ eof, readCtl idEOF s = .next eof ∧
            ((b = eof ∧
                r = ({ s with rx.len := s.rx.pos, rx.state := .finished, written.rxLen := true }, .frameFinished)) ∨
             (b ≠ eof ∧ ∃ t, rxStore b s = .next t ∧ r = (t, .byteReceived))))))) := by
  obtain ⟨sof, hsof, h⟩ := andThen_eq_next.mp h
  refine ⟨sof, hsof, ?_⟩
  by_cases h1 : b = sof
  · simp only [h1, if_true, Host.Outcome.next.injEq] at h
    exact .inl ⟨h1, h.symm⟩
  · rw [if_neg h1] at h
    obtain ⟨esc, hesc, h⟩ := andThen_eq_next.mp h
    refine .inr ⟨h1, esc, hesc, ?_⟩
    by_cases h2 : b = esc
    · simp only [h2, if_true, Host.Outcome.next.injEq] at h
      exact .inl ⟨h2, h.symm⟩
    · rw [if_neg h2] at h
      obtain ⟨eof, heof, h⟩ := andThen_eq_next.mp h
      refine .inr ⟨h2, eof, heof, ?_⟩
      by_cases h3 : b = eof
      · simp only [h3, if_true, Host.Outcome.next.injEq] at h
        exact .inl ⟨h3, h.symm⟩
      · rw [if_neg h3] at h
        obtain ⟨t, ht, h⟩ := andThen_eq_next.mp h
        simp only [Host.Outcome.next.injEq] at h
        exact .inr ⟨h3, t, ht, h.symm⟩

/-- Everything RXBYTE in ESC can answer. -/
theorem rxEsc_cases {b : Byte} {s : State} {r : RxResult} (h : rxEsc b s = .next r) :
    ∃ v t, unescape b s = .next v ∧ rxStore v { s with rx.state := .data } = .next t ∧ r = (t, .byteReceived) := by
  obtain ⟨v, hv, h⟩ := andThen_eq_next.mp h
  obtain ⟨t, ht, h⟩ := andThen_eq_next.mp h
  simp only [Host.Outcome.next.injEq] at h
  exact ⟨v, t, hv, ht, h.symm⟩

/-- Everything RXBYTE can answer, by `rx_state`. -/
theorem rxByte_cases {b : Byte} {s : State} {r : RxResult} (h : rxByte b s = .next r) :
    (s.rx.state = .idle ∧ r = (s, .byteReceived)) ∨
    (s.rx.state = .finished ∧ r = (s, .frameFinished)) ∨
    (s.rx.state = .sof ∧ ∃ c, readCtl idSOF s = .next c ∧
      ((b = c ∧ r = ({ s with rx.pos := 0, rx.state := .data }, .byteReceived)) ∨
       (b ≠ c ∧ r = (s, .byteReceived)))) ∨
    (s.rx.state = .data ∧ rxData b s = .next r) ∨
    (s.rx.state = .esc ∧ rxEsc b s = .next r) ∨
    (s.rx.state = .error ∧ ∃ c, readCtl idEOF s = .next c ∧
      ((b = c ∧ r = (leaveError s, .frameFinished)) ∨ (b ≠ c ∧ r = (s, .byteReceived)))) := by
  unfold rxByte at h
  cases hs : s.rx.state <;> simp only [hs, Host.Outcome.next.injEq] at h
  case idle => exact .inl ⟨rfl, h.symm⟩
  case finished => exact .inr (.inl ⟨rfl, h.symm⟩)
  case sof =>
    obtain ⟨c, hc, h⟩ := andThen_eq_next.mp h
    refine .inr (.inr (.inl ⟨rfl, c, hc, ?_⟩))
    by_cases hb : b = c
    · simp only [hb, if_true, Host.Outcome.next.injEq] at h
      exact .inl ⟨hb, h.symm⟩
    · simp only [hb, if_false, Host.Outcome.next.injEq] at h
      exact .inr ⟨hb, h.symm⟩
  case data => exact .inr (.inr (.inr (.inl ⟨rfl, h⟩)))
  case esc => exact .inr (.inr (.inr (.inr (.inl ⟨rfl, h⟩))))
  case error =>
    obtain ⟨c, hc, h⟩ := andThen_eq_next.mp h
    refine .inr (.inr (.inr (.inr (.inr ⟨rfl, c, hc, ?_⟩))))
    by_cases hb : b = c
    · simp only [hb, if_true, Host.Outcome.next.injEq] at h
      exact .inl ⟨hb, h.symm⟩
    · simp only [hb, if_false, Host.Outcome.next.injEq] at h
      exact .inr ⟨hb, h.symm⟩

/-- Storing with room left. -/
theorem rxStore_room {v : Byte} {s : State} (hp : s.rx.pos < s.rx.cap)
    (ha : placed s.params s.env.mem (rxStoreAddr s)) :
    rxStore v s = .next (storedByte v s) := by
  have hm : memWrite (rxStoreAddr s) v s =
      .next (note (.memWrite (rxStoreAddr s) v) { s with env.mem := memPut s.env.mem (rxStoreAddr s) v }) :=
    memWrite_eq_next.mpr ⟨ha, rfl⟩
  rw [rxStore, if_pos hp]
  show andThen (memWrite (rxStoreAddr s) v s) _ = _
  rw [hm]
  rfl

/-- Storing into a full buffer. -/
theorem rxStore_full {v : Byte} {s : State} (hp : ¬ s.rx.pos < s.rx.cap) : rxStore v s = .next (enterError s) := by
  rw [rxStore, if_neg hp]

/-- The second byte of an escape pair that matches a substitute. -/
theorem unescape_match {b v : Byte} {s : State} {i : Nat}
    (hl : lookupIn s.cfg.esc s.cfg.num b = some i) (hv : s.cfg.ctl[i]? = some v) : unescape b s = .next v := by
  rw [unescape, lookupEsc_eq_next.mpr ⟨hl, by simp⟩]
  exact readCtl_eq_next.mpr hv

/-- The second byte of an escape pair that matches no substitute. -/
theorem unescape_raw {b : Byte} {s : State}
    (hl : lookupIn s.cfg.esc s.cfg.num b = none) (hn : s.cfg.num ≤ s.cfg.esc.length) : unescape b s = .next b := by
  rw [unescape, lookupEsc_eq_next.mpr ⟨hl, fun _ => hn⟩]
  rfl

/-- What no part of receiving a byte writes: parameters, configuration, binding, the transmit group, `rx_last`, the
receive buffer's pointer and capacity, and of the environment all but memory and the record. -/
structure RxKeeps (s t : State) : Prop where
  params  : t.params = s.params
  cfg     : t.cfg = s.cfg
  bound   : t.bound = s.bound
  handle  : t.handle = s.handle
  tx      : t.tx = s.tx
  rxLast  : t.rxLast = s.rxLast
  buf     : t.rx.buf = s.rx.buf
  cap     : t.rx.cap = s.rx.cap
  wCfg    : t.written.cfg = s.written.cfg
  wHandle : t.written.handle = s.written.handle
  wTx     : t.written.tx = s.written.tx
  wEscid  : t.written.escid = s.written.escid
  wRx     : t.written.rx = s.written.rx
  inputs  : t.env.inputs = s.env.inputs
  reads   : t.env.readAnswers = s.env.readAnswers
  writes  : t.env.writeAnswers = s.env.writeAnswers
  conts   : t.env.contAnswers = s.env.contAnswers
  draws   : t.env.draws = s.env.draws
  resp    : t.env.response = s.env.response

theorem RxKeeps.refl (s : State) : RxKeeps s s := by constructor <;> rfl

theorem rxStore_keeps {v : Byte} {s t : State} (h : rxStore v s = .next t) : RxKeeps s t := by
  obtain ⟨-, -, rfl⟩ | ⟨-, rfl⟩ := rxStore_cases h <;> constructor <;> rfl

/-- What RXBYTE leaves alone (R20: the receive group is touched only by receive rules). -/
theorem rxByte_keeps {b : Byte} {s : State} {r : RxResult} (h : rxByte b s = .next r) : RxKeeps s r.1 := by
  obtain ⟨-, rfl⟩ | ⟨-, rfl⟩ | ⟨-, c, -, ⟨-, rfl⟩ | ⟨-, rfl⟩⟩ | ⟨-, h⟩ | ⟨-, h⟩ | ⟨-, c, -, ⟨-, rfl⟩ | ⟨-, rfl⟩⟩ :=
    rxByte_cases h
  · exact .refl s
  · exact .refl s
  · constructor <;> rfl
  · exact .refl s
  · obtain ⟨_, -, ⟨-, rfl⟩ | ⟨-, _, -, ⟨-, rfl⟩ | ⟨-, _, -, ⟨-, rfl⟩ | ⟨-, t, ht, rfl⟩⟩⟩⟩ := rxData_cases h
    · constructor <;> rfl
    · constructor <;> rfl
    · constructor <;> rfl
    · exact rxStore_keeps ht
  · obtain ⟨v, t, -, ht, rfl⟩ := rxEsc_cases h
    have := rxStore_keeps ht
    exact ⟨this.params, this.cfg, this.bound, this.handle, this.tx, this.rxLast, this.buf, this.cap, this.wCfg,
      this.wHandle, this.wTx, this.wEscid, this.wRx, this.inputs, this.reads, this.writes, this.conts, this.draws,
      this.resp⟩
  · constructor <;> rfl
  · exact .refl s

/-- RxStore changes at most the byte at the cursor. -/
theorem rxStore_mem {v : Byte} {s t : State} (h : rxStore v s = .next t) {a : Nat} (ha : a ≠ rxStoreAddr s) :
    memGet t.env.mem a = memGet s.env.mem a := by
  obtain ⟨-, -, rfl⟩ | ⟨-, rfl⟩ := rxStore_cases h
  · exact memGet_memPut_other _ _ ha
  · rfl

/-- RXBYTE changes at most the byte at the cursor, and no byte when the buffer is full (R64). -/
theorem rxByte_mem {b : Byte} {s : State} {r : RxResult} (h : rxByte b s = .next r) {a : Nat}
    (ha : s.rx.pos < s.rx.cap → a ≠ rxStoreAddr s) : memGet r.1.env.mem a = memGet s.env.mem a := by
  have hstore : ∀ {v : Byte} {u t : State}, rxStore v u = .next t → u.rx.pos = s.rx.pos → u.rx.cap = s.rx.cap →
      u.rx.buf = s.rx.buf → u.env.mem = s.env.mem → memGet t.env.mem a = memGet s.env.mem a := by
    intro v u t ht hp hc hb hm
    rw [← hm]
    obtain ⟨hlt, -, rfl⟩ | ⟨-, rfl⟩ := rxStore_cases ht
    · exact memGet_memPut_other _ _ (by have := ha (by omega); simpa [rxStoreAddr, hp, hb] using this)
    · rfl
  obtain ⟨-, rfl⟩ | ⟨-, rfl⟩ | ⟨-, c, -, ⟨-, rfl⟩ | ⟨-, rfl⟩⟩ | ⟨-, h⟩ | ⟨-, h⟩ | ⟨-, c, -, ⟨-, rfl⟩ | ⟨-, rfl⟩⟩ :=
    rxByte_cases h
  · rfl
  · rfl
  · rfl
  · rfl
  · obtain ⟨_, -, ⟨-, rfl⟩ | ⟨-, _, -, ⟨-, rfl⟩ | ⟨-, _, -, ⟨-, rfl⟩ | ⟨-, t, ht, rfl⟩⟩⟩⟩ := rxData_cases h
    · rfl
    · rfl
    · rfl
    · exact hstore ht rfl rfl rfl rfl
  · obtain ⟨v, t, -, ht, rfl⟩ := rxEsc_cases h
    exact hstore ht rfl rfl rfl rfl
  · rfl
  · rfl

end Sys2Proof.Machine
end

