-- ==== Sys2Proof/Laws/Transmit.lean ====
section
/-! SUPPORT. TXBYTE: one inversion lemma for each part of it, and what it leaves alone. -/
namespace Sys2Proof.Machine

/-- The state in which DATA decides to send a byte or to end the frame: with a continuation asked, its memory writes
and, when it continues, its three values are in it (R146). -/
def afterCont (s : State) : State :=
  if s.params.hasCont then
    if (contRequest s).1.more then contLoad (contRequest s).1 (contRequest s).2 else (contRequest s).2
  else s

/-- The continuation, if asked, supplied a byte (R146). -/
def contSupplied (s : State) : Bool :=
  s.params.hasCont && ((contRequest s).1.more && decide ((contRequest s).1.pos < (contRequest s).1.len))

/-- The state after a payload byte `v` was taken: the read noted, the position advanced (R144). -/
def tookByte (v : Byte) (s : State) : State :=
  { note (.memRead (s.tx.data + s.tx.pos) v) s with tx.pos := s.tx.pos + 1 }

/-- The state after ESC was sent for a byte that matched identifier `i` (R144). -/
def escaping (i : Nat) (s : State) : State :=
  { s with tx.escid := i, tx.state := .esc, written.escid := true }

theorem txExhausted_eq (s : State) :
    txExhausted s = if contSupplied s then txTake (afterCont s) else txEnd (afterCont s) := by
  unfold txExhausted contSupplied afterCont
  cases s.params.hasCont <;> simp
  cases (contRequest s).1.more <;> simp

/-- What emitting a taken byte answers. -/
theorem txEmit_cases {v : Byte} {s : State} {r : TxResult} (h : txEmit v s = .next r) :
    (lookupCtl v s = .next none ∧ r = (s, .ok, some v)) ∨
    (∃ i e, lookupCtl v s = .next (some i) ∧ readCtl idESC s = .next e ∧ r = (escaping i s, .ok, some e)) := by
  obtain ⟨o, ho, h⟩ := andThen_eq_next.mp h
  cases o with
  | none => simp only [Host.Outcome.next.injEq] at h; exact .inl ⟨ho, h.symm⟩
  | some i =>
    obtain ⟨e, he, h⟩ := andThen_eq_next.mp h
    simp only [Host.Outcome.next.injEq] at h
    exact .inr ⟨i, e, ho, he, h.symm⟩

/-- What taking a payload byte answers: the placed byte, sent as it is or announced by ESC. -/
theorem txTake_cases {s : State} {r : TxResult} (h : txTake s = .next r) :
    ∃ v, s.tx.data + s.tx.pos < 2 ^ s.params.addrW ∧ memGet s.env.mem (s.tx.data + s.tx.pos) = some v ∧
      ((lookupCtl v s = .next none ∧ r = (tookByte v s, .ok, some v)) ∨
       (∃ i e, lookupCtl v s = .next (some i) ∧ readCtl idESC s = .next e ∧
          r = (escaping i (tookByte v s), .ok, some e))) := by
  obtain ⟨⟨v, t⟩, ht, h⟩ := andThen_eq_next.mp h
  obtain ⟨ha, hm, ht⟩ := memRead_eq_next.mp ht
  simp only at ha hm ht h
  subst ht
  exact ⟨v, ha, hm, txEmit_cases h⟩

/-- What ending a frame answers. -/
theorem txEnd_cases {s : State} {r : TxResult} (h : txEnd s = .next r) :
    ∃ e, readCtl idEOF s = .next e ∧ r = ({ s with tx.state := .finished }, .ok, some e) := by
  obtain ⟨e, he, h⟩ := andThen_eq_next.mp h
  simp only [Host.Outcome.next.injEq] at h
  exact ⟨e, he, h.symm⟩

/-- Everything TXBYTE can answer, by `tx_state`. -/
theorem txByte_cases {s : State} {r : TxResult} (h : txByte s = .next r) :
    (txReady s.tx.state = false ∧ r = (s, .pending, none)) ∨
    (s.tx.state = .sof ∧ ∃ b, readCtl idSOF s = .next b ∧ r = ({ s with tx.state := .data }, .ok, some b)) ∨
    (s.tx.state = .data ∧ s.tx.pos < s.tx.len ∧ txTake s = .next r) ∨
    (s.tx.state = .data ∧ ¬ s.tx.pos < s.tx.len ∧ contSupplied s = true ∧ txTake (afterCont s) = .next r) ∨
    (s.tx.state = .data ∧ ¬ s.tx.pos < s.tx.len ∧ contSupplied s = false ∧ txEnd (afterCont s) = .next r) ∨
    (s.tx.state = .esc ∧ ∃ b, readEsc s.tx.escid s = .next b ∧ r = ({ s with tx.state := .data }, .ok, some b)) ∨
    (s.tx.state = .eof ∧ txEof s = .next r) := by
  unfold txByte at h
  cases hs : s.tx.state <;> simp only [hs] at h
  case config => simp_all [txReady]
  case idle => simp_all [txReady]
  case finished => simp_all [txReady]
  case sof =>
    obtain ⟨b, hb, h⟩ := andThen_eq_next.mp h
    simp only [Host.Outcome.next.injEq] at h
    exact .inr (.inl ⟨rfl, b, hb, h.symm⟩)
  case data =>
    by_cases hp : s.tx.pos < s.tx.len
    · rw [if_pos hp] at h
      exact .inr (.inr (.inl ⟨rfl, hp, h⟩))
    · rw [if_neg hp, txExhausted_eq] at h
      cases hc : contSupplied s <;> simp only [hc, if_true, if_false, Bool.false_eq_true] at h
      · exact .inr (.inr (.inr (.inr (.inl ⟨rfl, hp, rfl, h⟩))))
      · exact .inr (.inr (.inr (.inl ⟨rfl, hp, rfl, h⟩)))
  case esc =>
    obtain ⟨b, hb, h⟩ := andThen_eq_next.mp h
    simp only [Host.Outcome.next.injEq] at h
    exact .inr (.inr (.inr (.inr (.inr (.inl ⟨rfl, b, hb, h.symm⟩)))))
  case eof => exact .inr (.inr (.inr (.inr (.inr (.inr ⟨rfl, h⟩)))))

/-- Taking a payload byte that matches no identifier. -/
theorem txTake_plain {s : State} {v : Byte}
    (ha : s.tx.data + s.tx.pos < 2 ^ s.params.addrW) (hm : memGet s.env.mem (s.tx.data + s.tx.pos) = some v)
    (hl : lookupIn s.cfg.ctl s.cfg.num v = none) (hn : s.cfg.num ≤ s.cfg.ctl.length) :
    txTake s = .next (tookByte v s, .ok, some v) := by
  have hr : memRead (s.tx.data + s.tx.pos) s = .next (v, note (.memRead (s.tx.data + s.tx.pos) v) s) :=
    memRead_eq_next.mpr ⟨ha, hm, rfl⟩
  have hk : lookupCtl v (tookByte v s) = .next none := lookupCtl_eq_next.mpr ⟨hl, fun _ => hn⟩
  rw [txTake, hr]
  show txEmit v (tookByte v s) = _
  rw [txEmit, hk]
  rfl

/-- Taking a payload byte that matches an identifier. -/
theorem txTake_esc {s : State} {v e : Byte} {i : Nat}
    (ha : s.tx.data + s.tx.pos < 2 ^ s.params.addrW) (hm : memGet s.env.mem (s.tx.data + s.tx.pos) = some v)
    (hl : lookupIn s.cfg.ctl s.cfg.num v = some i) (he : s.cfg.ctl[idESC]? = some e) :
    txTake s = .next (escaping i (tookByte v s), .ok, some e) := by
  have hr : memRead (s.tx.data + s.tx.pos) s = .next (v, note (.memRead (s.tx.data + s.tx.pos) v) s) :=
    memRead_eq_next.mpr ⟨ha, hm, rfl⟩
  have hk : lookupCtl v (tookByte v s) = .next (some i) := lookupCtl_eq_next.mpr ⟨hl, by simp⟩
  have hc : readCtl idESC (tookByte v s) = .next e := readCtl_eq_next.mpr he
  rw [txTake, hr]
  show txEmit v (tookByte v s) = _
  rw [txEmit, hk]
  show andThen (readCtl idESC (tookByte v s)) _ = _
  rw [hc]
  rfl

/-- Ending a frame. -/
theorem txEnd_next {s : State} {e : Byte} (he : s.cfg.ctl[idEOF]? = some e) :
    txEnd s = .next ({ s with tx.state := .finished }, .ok, some e) := by
  have hc : readCtl idEOF { s with tx.state := .eof } = .next e := readCtl_eq_next.mpr he
  rw [txEnd, txEof, hc]
  rfl

/-- What no part of transmitting a byte writes: parameters, configuration, binding, the receive group, `rx_last`, and
of the environment the inputs, the transport's answers and the response. -/
structure TxKeeps (s t : State) : Prop where
  params  : t.params = s.params
  cfg     : t.cfg = s.cfg
  bound   : t.bound = s.bound
  handle  : t.handle = s.handle
  rx      : t.rx = s.rx
  rxLast  : t.rxLast = s.rxLast
  wCfg    : t.written.cfg = s.written.cfg
  wHandle : t.written.handle = s.written.handle
  wRx     : t.written.rx = s.written.rx
  wRxLen  : t.written.rxLen = s.written.rxLen
  inputs  : t.env.inputs = s.env.inputs
  reads   : t.env.readAnswers = s.env.readAnswers
  writes  : t.env.writeAnswers = s.env.writeAnswers
  resp    : t.env.response = s.env.response

theorem TxKeeps.refl (s : State) : TxKeeps s s := by constructor <;> rfl

theorem TxKeeps.trans {s t u : State} (h : TxKeeps s t) (k : TxKeeps t u) : TxKeeps s u := by
  constructor <;> first
    | exact k.params.trans h.params | exact k.cfg.trans h.cfg | exact k.bound.trans h.bound
    | exact k.handle.trans h.handle | exact k.rx.trans h.rx | exact k.rxLast.trans h.rxLast
    | exact k.wCfg.trans h.wCfg | exact k.wHandle.trans h.wHandle | exact k.wRx.trans h.wRx
    | exact k.wRxLen.trans h.wRxLen | exact k.inputs.trans h.inputs | exact k.reads.trans h.reads
    | exact k.writes.trans h.writes | exact k.resp.trans h.resp

theorem tookByte_keeps (v : Byte) (s : State) : TxKeeps s (tookByte v s) := by constructor <;> rfl

theorem escaping_keeps (i : Nat) (s : State) : TxKeeps s (escaping i s) := by constructor <;> rfl

theorem contRequest_keeps (s : State) : TxKeeps s (contRequest s).2 := by constructor <;> simp

theorem afterCont_keeps (s : State) : TxKeeps s (afterCont s) := by
  unfold afterCont
  split
  · split
    · constructor <;> simp
    · exact contRequest_keeps s
  · exact .refl s

theorem txTake_keeps {s : State} {r : TxResult} (h : txTake s = .next r) : TxKeeps s r.1 := by
  obtain ⟨v, -, -, ⟨-, rfl⟩ | ⟨i, e, -, -, rfl⟩⟩ := txTake_cases h
  · exact tookByte_keeps v s
  · exact (tookByte_keeps v s).trans (escaping_keeps i _)

theorem txEnd_keeps {s : State} {r : TxResult} (h : txEnd s = .next r) : TxKeeps s r.1 := by
  obtain ⟨e, -, rfl⟩ := txEnd_cases h
  constructor <;> rfl

/-- What TXBYTE leaves alone (R20: the transmit group is touched only by transmit rules). -/
theorem txByte_keeps {s : State} {r : TxResult} (h : txByte s = .next r) : TxKeeps s r.1 := by
  obtain ⟨-, rfl⟩ | ⟨-, b, -, rfl⟩ | ⟨-, -, h⟩ | ⟨-, -, -, h⟩ | ⟨-, -, -, h⟩ | ⟨-, b, -, rfl⟩ | ⟨-, h⟩ := txByte_cases h
  · exact .refl s
  · constructor <;> rfl
  · exact txTake_keeps h
  · exact (afterCont_keeps s).trans (txTake_keeps h)
  · exact (afterCont_keeps s).trans (txEnd_keeps h)
  · constructor <;> rfl
  · obtain ⟨e, -, h⟩ := andThen_eq_next.mp h
    simp only [Host.Outcome.next.injEq] at h
    subst h
    constructor <;> rfl

/-- TXBYTE changes no memory but what the continuation writes. -/
theorem txByte_mem {s : State} {r : TxResult} (h : txByte s = .next r) :
    r.1.env.mem = memPutAll s.env.mem (contWrites s) := by
  have hcont : s.tx.state = .data → ¬ s.tx.pos < s.tx.len →
      (afterCont s).env.mem = memPutAll s.env.mem (contWrites s) := by
    intro hs hp
    unfold afterCont contWrites contAsked
    cases hc : s.params.hasCont <;> simp [hs, hp, memPutAll]
    split <;> simp [contRequest]
  have hnone : s.tx.state ≠ .data ∨ s.tx.pos < s.tx.len → contWrites s = [] := by
    rintro (hs | hp) <;> simp [contWrites, contAsked, *]
  have htake : ∀ {u : State}, txTake u = .next r → r.1.env.mem = u.env.mem := by
    intro u h
    obtain ⟨v, -, -, ⟨-, rfl⟩ | ⟨i, e, -, -, rfl⟩⟩ := txTake_cases h <;> rfl
  have hend : ∀ {u : State}, txEnd u = .next r → r.1.env.mem = u.env.mem := by
    intro u h
    obtain ⟨e, -, rfl⟩ := txEnd_cases h
    rfl
  obtain ⟨hs, rfl⟩ | ⟨hs, b, -, rfl⟩ | ⟨-, hp, h⟩ | ⟨hs, hp, -, h⟩ | ⟨hs, hp, -, h⟩ | ⟨hs, b, -, rfl⟩ | ⟨hs, h⟩ :=
    txByte_cases h
  · rw [hnone (.inl (by rintro he; simp [he, txReady] at hs))]; rfl
  · rw [hnone (.inl (by simp [hs]))]; rfl
  · rw [hnone (.inr hp), htake h]; rfl
  · rw [htake h, hcont hs hp]
  · rw [hend h, hcont hs hp]
  · rw [hnone (.inl (by simp [hs]))]; rfl
  · obtain ⟨e, -, h⟩ := andThen_eq_next.mp h
    simp only [Host.Outcome.next.injEq] at h
    subst h
    rw [hnone (.inl (by simp [hs]))]; rfl

end Sys2Proof.Machine
end

