-- ==== Sys2Proof/Laws/Driver.lean ====
section
/-! SUPPORT. STEP: what its two halves can answer, how they compose, and what the step of the channel does. -/
namespace Sys2Proof.Machine

/-- Everything the transmit half can answer (R211). -/
theorem txHalf_cases {s t : State} (h : txHalf s = .next t) :
    (txReady s.tx.state = false ∧ t = s) ∨
    (txReady s.tx.state = true ∧ ∃ u st b, txByte s = .next (u, st, some b) ∧ t = tpWrite b u) := by
  unfold txHalf at h
  cases hr : txReady s.tx.state <;> simp only [hr, if_true, if_false, Bool.false_eq_true] at h
  · simp only [Host.Outcome.next.injEq] at h
    exact .inl ⟨rfl, h.symm⟩
  · obtain ⟨⟨u, st, o⟩, hu, h⟩ := andThen_eq_next.mp h
    cases o with
    | some b =>
      simp only [Host.Outcome.next.injEq] at h
      exact .inr ⟨rfl, u, st, b, hu, h.symm⟩
    | none =>
      exfalso
      have hno : ∀ {w : State}, txTake w ≠ .next (u, st, none) := by
        intro w hw
        obtain ⟨v, -, -, ⟨-, hw⟩ | ⟨i, e, -, -, hw⟩⟩ := txTake_cases hw <;> simp at hw
      obtain ⟨hn, -⟩ | ⟨-, b, -, hw⟩ | ⟨-, -, hw⟩ | ⟨-, -, -, hw⟩ | ⟨-, -, -, hw⟩ | ⟨-, b, -, hw⟩ | ⟨-, hw⟩ :=
        txByte_cases hu
      · simp [hr] at hn
      · simp at hw
      · exact hno hw
      · exact hno hw
      · obtain ⟨e, -, hw⟩ := txEnd_cases hw
        simp at hw
      · simp at hw
      · obtain ⟨e, -, hw⟩ := andThen_eq_next.mp hw
        simp at hw

/-- Everything the receive half can answer (R212). -/
theorem rxHalf_cases {s t : State} (h : rxHalf s = .next t) :
    (s.rx.state = .idle ∧ t = s) ∨
    (s.rx.state ≠ .idle ∧ (tpRead s).1 = none ∧ t = (tpRead s).2) ∨
    (s.rx.state ≠ .idle ∧ ∃ b u st, (tpRead s).1 = some b ∧ rxByte b (tpRead s).2 = .next (u, st) ∧
      t = { u with rxLast := st }) := by
  unfold rxHalf at h
  by_cases hi : s.rx.state = .idle
  · simp only [hi, if_true, Host.Outcome.next.injEq] at h
    exact .inl ⟨hi, h.symm⟩
  · simp only [hi, if_false] at h
    cases ha : (tpRead s).1 with
    | none =>
      simp only [ha, rxFeedAnswer, Host.Outcome.next.injEq] at h
      exact .inr (.inl ⟨hi, rfl, h.symm⟩)
    | some b =>
      simp only [ha, rxFeedAnswer] at h
      obtain ⟨⟨u, st⟩, hu, h⟩ := andThen_eq_next.mp h
      simp only [Host.Outcome.next.injEq] at h
      exact .inr (.inr ⟨hi, b, u, st, rfl, hu, h.symm⟩)

/-- STEP is the transmit half, then the receive half (R210, R213). -/
theorem execStep_cases {s t : State} (h : execStep s = .next t) :
    ∃ u w, txHalf s = .next u ∧ rxHalf u = .next w ∧ t = respond .ok w := by
  obtain ⟨u, hu, h⟩ := andThen_eq_next.mp h
  obtain ⟨w, hw, h⟩ := andThen_eq_next.mp h
  simp only [Host.Outcome.next.injEq] at h
  exact ⟨u, w, hu, hw, h.symm⟩

/-- Everything one step of the channel can answer, by the oldest input. -/
theorem step_cases {s t : State} (h : step s = .next t) :
    (s.env.inputs = [] ∧ t = s) ∨
    (∃ rest, let u : State := { s with env.inputs := rest }
      (∃ w i, s.env.inputs = .command w :: rest ∧ decode s.params w = .ok i ∧ exec i u = .next t) ∨
      (s.env.inputs = .reset :: rest ∧ t = hwReset u) ∨
      (∃ a v, s.env.inputs = .hostWrite a v :: rest ∧ t = hostWrite a v u)) := by
  unfold step nextInput at h
  match hi : s.env.inputs with
  | [] =>
    simp only [hi, Host.Outcome.next.injEq] at h
    exact .inl ⟨rfl, h.symm⟩
  | .command w :: rest =>
    simp only [hi, runCommand] at h
    split at h
    · exact .inr ⟨rest, .inl ⟨w, _, rfl, by assumption, h⟩⟩
    · simp at h
  | .reset :: rest =>
    simp only [hi, Host.Outcome.next.injEq] at h
    exact .inr ⟨rest, .inr (.inl ⟨rfl, h.symm⟩)⟩
  | .hostWrite a v :: rest =>
    simp only [hi, Host.Outcome.next.injEq] at h
    exact .inr ⟨rest, .inr (.inr ⟨a, v, rfl, h.symm⟩)⟩

end Sys2Proof.Machine
end

