-- ==== Sys2Proof/Laws/Encoding.lean ====
section
/-! SUPPORT. The parts of a command word: laid out and read back. -/
namespace Sys2Proof

/-- A table read back from the bits it was laid out in. -/
theorem takeBytes_putBytes (bs : List Byte) (r : Nat) : takeBytes bs.length (putBytes bs r) = (bs, r) := by
  induction bs with
  | nil => rfl
  | cons b bs ih =>
    have h : b.toNat < 256 := b.isLt
    simp only [List.length_cons, takeBytes, putBytes]
    rw [show (b.toNat + 256 * putBytes bs r) / 256 = putBytes bs r by omega, ih]
    simp only [Prod.mk.injEq, List.cons.injEq, and_true]
    apply BitVec.eq_of_toNat_eq
    simp only [BitVec.toNat_ofNat]
    omega

/-- Reading a table takes that many entries. -/
theorem takeBytes_length (n w : Nat) : (takeBytes n w).1.length = n := by
  induction n generalizing w with
  | zero => rfl
  | succ n ih => simp [takeBytes, ih]

/-- The bits a table was read from, laid out again. -/
theorem putBytes_takeBytes (n w : Nat) : putBytes (takeBytes n w).1 (takeBytes n w).2 = w := by
  induction n generalizing w with
  | zero => rfl
  | succ n ih => simp only [takeBytes, putBytes, ih, BitVec.toNat_ofNat]; omega

/-- The opcode nibble and the operand bundle of a word. -/
theorem word_parts (op b : Nat) (h : op < 16) : (op + 16 * b) % 16 = op ∧ (op + 16 * b) / 16 = b := by omega

/-- A word accepted to its last bit leaves nothing. -/
theorem closed_eq_ok {r : Nat} {i j : Instr} : closed r i = .ok j ↔ r = 0 ∧ i = j := by
  unfold closed
  split <;> simp_all

end Sys2Proof
end

