-- ==== Sys2Proof/Laws/Halves.lean ====
section
/-! SUPPORT. TXBYTE and RXBYTE as operations of their own, and what the two halves of STEP leave alone. -/
namespace Sys2Proof.Machine

/-- TXBYTE as an operation of its own answers what the shared TXBYTE answers. -/
theorem exec_txbyte {s t : State} (h : exec .txbyte s = .next t) :
    ∃ u st o, txByte s = .next (u, st, o) ∧ t = respondByte st o u := by
  obtain ⟨⟨u, st, o⟩, hu, h⟩ := andThen_eq_next.mp h
  simp only [Host.Outcome.next.injEq] at h
  exact ⟨u, st, o, hu, h.symm⟩

/-- RXBYTE as an operation of its own answers what the shared RXBYTE answers. -/
theorem exec_rxbyte {b : Byte} {s t : State} (h : exec (.rxbyte b) s = .next t) :
    ∃ u st, rxByte b s = .next (u, st) ∧ t = respond st u := by
  obtain ⟨⟨u, st⟩, hu, h⟩ := andThen_eq_next.mp h
  simp only [Host.Outcome.next.injEq] at h
  exact ⟨u, st, hu, h.symm⟩

/-- What neither half of STEP writes. -/
structure StepKeeps (s t : State) : Prop where
  params : t.params = s.params
  cfg    : t.cfg = s.cfg
  bound  : t.bound = s.bound
  handle : t.handle = s.handle
  inputs : t.env.inputs = s.env.inputs
  wCfg   : t.written.cfg = s.written.cfg

/-- What the transmit half leaves alone. -/
theorem txHalf_keeps {s t : State} (h : txHalf s = .next t) :
    StepKeeps s t ∧ t.rx = s.rx ∧ t.rxLast = s.rxLast ∧ t.env.readAnswers = s.env.readAnswers ∧
      t.env.response = s.env.response := by
  obtain ⟨-, rfl⟩ | ⟨-, u, st, b, hu, rfl⟩ := txHalf_cases h
  · exact ⟨⟨rfl, rfl, rfl, rfl, rfl, rfl⟩, rfl, rfl, rfl, rfl⟩
  · have k : TxKeeps s u := txByte_keeps hu
    refine ⟨⟨?_, ?_, ?_, ?_, ?_, ?_⟩, ?_, ?_, ?_, ?_⟩ <;>
      simp [k.params, k.cfg, k.bound, k.handle, k.inputs, k.rx, k.rxLast, k.reads, k.resp, k.wCfg]

/-- What the receive half leaves alone. -/
theorem rxHalf_keeps {s t : State} (h : rxHalf s = .next t) :
    StepKeeps s t ∧ t.tx = s.tx ∧ t.rx.buf = s.rx.buf ∧ t.rx.cap = s.rx.cap := by
  obtain ⟨-, rfl⟩ | ⟨-, -, rfl⟩ | ⟨-, b, u, st, -, hu, rfl⟩ := rxHalf_cases h
  · exact ⟨⟨rfl, rfl, rfl, rfl, rfl, rfl⟩, rfl, rfl, rfl⟩
  · refine ⟨⟨?_, ?_, ?_, ?_, ?_, ?_⟩, ?_, ?_, ?_⟩ <;> simp
  · have k : RxKeeps (tpRead s).2 u := rxByte_keeps hu
    refine ⟨⟨?_, ?_, ?_, ?_, ?_, ?_⟩, ?_, ?_, ?_⟩ <;>
      simp [k.params, k.cfg, k.bound, k.handle, k.inputs, k.tx, k.buf, k.cap, k.wCfg]

/-- The registers after a payload byte was taken: the position advanced, and either the state kept or ESC entered with
the matching identifier. -/
theorem txTake_facts {s : State} {r : TxResult} (h : txTake s = .next r) :
    r.1.tx.data = s.tx.data ∧ r.1.tx.len = s.tx.len ∧ r.1.tx.pos = s.tx.pos + 1 ∧
      r.1.env.contAnswers = s.env.contAnswers ∧
      ((r.1.tx.state = s.tx.state ∧ r.1.tx.escid = s.tx.escid) ∨
        (r.1.tx.state = .esc ∧ r.1.tx.escid < s.cfg.num ∧ r.1.tx.escid < s.cfg.ctl.length ∧
          r.1.written.escid = true)) ∧
      r.1.written.tx = s.written.tx ∧ ∃ b, r.2 = (.ok, some b) := by
  obtain ⟨v, -, -, ⟨-, rfl⟩ | ⟨i, e, hl, -, rfl⟩⟩ := txTake_cases h
  · exact ⟨rfl, rfl, rfl, rfl, .inl ⟨rfl, rfl⟩, rfl, _, rfl⟩
  · obtain ⟨hl, -⟩ := lookupCtl_eq_next.mp hl
    have := lookupIn_lt hl
    exact ⟨rfl, rfl, rfl, rfl, .inr ⟨rfl, this.1, this.2, rfl⟩, rfl, _, rfl⟩

/-- Asking the continuation moves neither `tx_state` nor `tx_escid`. -/
theorem afterCont_state (s : State) :
    (afterCont s).tx.state = s.tx.state ∧ (afterCont s).tx.escid = s.tx.escid := by
  unfold afterCont
  split
  · split <;> simp
  · simp

/-- With no continuation attached nothing is asked. -/
theorem afterCont_off {s : State} (h : s.params.hasCont = false) : afterCont s = s := by simp [afterCont, h]

/-- `rx_len` after RXBYTE: as before, or the position when EOF came in DATA (R176). -/
theorem rxByte_len {b : Byte} {s : State} {r : RxResult} (h : rxByte b s = .next r) :
    r.1.rx.len = s.rx.len ∨
      (s.rx.state = .data ∧ r.1.rx.state = .finished ∧ r.1.rx.len = s.rx.pos) := by
  have st : ∀ {v : Byte} {u t : State}, rxStore v u = .next t → t.rx.len = u.rx.len := by
    intro v u t h; obtain ⟨-, -, rfl⟩ | ⟨-, rfl⟩ := rxStore_cases h <;> rfl
  obtain ⟨-, rfl⟩ | ⟨-, rfl⟩ | ⟨-, c, -, ⟨-, rfl⟩ | ⟨-, rfl⟩⟩ | ⟨hs, h⟩ | ⟨-, h⟩ | ⟨-, c, -, ⟨-, rfl⟩ | ⟨-, rfl⟩⟩ :=
    rxByte_cases h
  · simp
  · simp
  · simp
  · simp
  · obtain ⟨_, -, ⟨-, rfl⟩ | ⟨-, _, -, ⟨-, rfl⟩ | ⟨-, _, -, ⟨-, rfl⟩ | ⟨-, t, ht, rfl⟩⟩⟩⟩ := rxData_cases h
    · simp
    · simp
    · exact .inr ⟨hs, rfl, rfl⟩
    · exact .inl (st ht)
  · obtain ⟨v, t, -, ht, rfl⟩ := rxEsc_cases h
    exact .inl (by have := st ht; simpa using this)
  · exact .inl rfl
  · simp

/-- The receive half changes at most the byte at the cursor. -/
theorem rxHalf_mem {s t : State} (h : rxHalf s = .next t) {a : Nat} (ha : s.rx.pos < s.rx.cap → a ≠ rxStoreAddr s) :
    memGet t.env.mem a = memGet s.env.mem a := by
  obtain ⟨-, rfl⟩ | ⟨-, -, rfl⟩ | ⟨-, b, u, st, -, hu, rfl⟩ := rxHalf_cases h
  · rfl
  · simp
  · simpa using rxByte_mem hu (a := a) (by simpa [rxStoreAddr] using ha)

/-- The transmit half changes at most what the continuation writes. -/
theorem txHalf_mem {s t : State} (h : txHalf s = .next t) {a : Nat} (ha : ∀ w ∈ contWrites s, w.1 ≠ a) :
    memGet t.env.mem a = memGet s.env.mem a := by
  obtain ⟨-, rfl⟩ | ⟨-, u, st, b, hu, rfl⟩ := txHalf_cases h
  · rfl
  · have := txByte_mem hu
    simp only at this
    simp only [tpWrite_env_mem, this]
    exact memGet_memPutAll_other _ _ ha

/-- What a write request leaves and what it was answered. -/
theorem WriteAnswered.eq_tpWrite {b : Byte} {ok : Bool} {s t : State} (h : WriteAnswered b ok s t) :
    t = tpWrite b s ∧ ok = (drawWrite s).1 := by
  obtain ⟨rest, h, rfl⟩ | ⟨h, rfl, rfl⟩ := h <;> simp [tpWrite, drawWrite, h, note]

/-- What a read request leaves and what it was answered. -/
theorem ReadAnswered.eq_tpRead {a : Option Byte} {s t : State} (h : ReadAnswered a s t) : tpRead s = (a, t) := by
  obtain ⟨rest, h, rfl⟩ | ⟨h, rfl, rfl⟩ := h <;> simp [tpRead, drawRead, h, note]

/-- The transmit half in the terms of the statements. -/
theorem TransmitHalfLeaves.eq_txHalf {s t : State} (h : TransmitHalfLeaves s t) : txHalf s = .next t := by
  obtain ⟨hq, rfl⟩ | ⟨hf, u, st, b, ok, hu, hr, hw⟩ := h
  · rcases hq with h | h | h <;> simp [txHalf, h, txReady]
  · obtain ⟨v, st', o, hv, rfl⟩ := exec_txbyte hu
    have k : TxKeeps s v := txByte_keeps hv
    simp only [respondByte, Option.some.injEq, Response.mk.injEq] at hr
    obtain ⟨rfl, rfl⟩ := hr
    have e : ({ respondByte st' (some b) v with env.response := s.env.response } : State) = v := by
      rw [← k.resp]; rfl
    rw [e] at hw
    have hr : txReady s.tx.state = true := by rcases hf with h | h | h | h <;> simp [h, txReady]
    simp [txHalf, hr, hv, hw.eq_tpWrite.1]

end Sys2Proof.Machine
end

