-- ==== Sys2Proof/Laws/PerInstr.lean ====
section
/-! SUPPORT. One lemma for each instruction: the low nibble of its command word is its opcode (R95, log entry 10). -/
namespace Sys2Proof.Laws.OpcodeNibble

open Sys2Proof

/-- The nibble at the bottom of an instruction's word is its opcode, under any build-time parameters. -/
def Statement (i : Instr) : Prop := ∀ (P : Params) (w : Nat), encode P i = some w → i.opcode = some (w % 16)

/-- The nibble is read off a word laid out under an opcode below 16. -/
theorem nibble_of {i : Instr} {op : Nat} (ho : i.opcode = some op) (h : op < 16) : Statement i := by
  intro P w hw
  simp only [encode, ho, Option.map_some, Option.some.injEq] at hw
  subst hw
  rw [ho, (word_parts op _ h).1]

theorem configure (ctl esc : List Byte) (num : Nat) : Statement (.configure ctl esc num) := nibble_of rfl (by decide)

theorem bind (h : Nat) : Statement (.bind h) := nibble_of rfl (by decide)

theorem submit (n : Bool) (d l : Nat) : Statement (.submit n d l) := nibble_of rfl (by decide)

theorem supply (n : Bool) (d c : Nat) : Statement (.supply n d c) := nibble_of rfl (by decide)

theorem gettx : Statement (.gettx) := nibble_of rfl (by decide)

theorem clrtx : Statement (.clrtx) := nibble_of rfl (by decide)

theorem getrx : Statement (.getrx) := nibble_of rfl (by decide)

theorem clrrx : Statement (.clrrx) := nibble_of rfl (by decide)

theorem step : Statement (.step) := nibble_of rfl (by decide)

theorem reserved0 : Statement (.reserved0) := nibble_of rfl (by decide)

theorem reservedAB (x : BitVec 1) : Statement (.reservedAB x) := nibble_of rfl (by have := x.isLt; omega)

theorem reservedCF (x : BitVec 2) : Statement (.reservedCF x) := nibble_of rfl (by have := x.isLt; omega)

theorem txbyte : Statement (.txbyte) := by
  intro P w hw
  simp [encode, Instr.opcode] at hw

theorem rxbyte (b : Byte) : Statement (.rxbyte b) := by
  intro P w hw
  simp [encode, Instr.opcode] at hw

end Sys2Proof.Laws.OpcodeNibble
end

