-- ==== Sys2Proof/Laws/Requests.lean ====
section
/-! SUPPORT. Which requests each part of an operation makes on the ports, in order (R68, R213, R214). -/
namespace Sys2Proof.Machine

/-- A continuation request is noted with its answer. -/
theorem contRequest_trace (s : State) :
    (contRequest s).2.env.trace = s.env.trace ++ [.cont s.tx.data s.tx.len s.tx.pos (contRequest s).1] := by
  simp [contRequest]

/-- Taking a payload byte reads memory once. -/
theorem txTake_trace {s : State} {r : TxResult} (h : txTake s = .next r) :
    ∃ v, r.1.env.trace = s.env.trace ++ [.memRead (s.tx.data + s.tx.pos) v] := by
  obtain ⟨v, -, -, ⟨-, rfl⟩ | ⟨i, e, hl, -, rfl⟩⟩ := txTake_cases h <;> exact ⟨v, rfl⟩

/-- Ending a frame makes no request. -/
theorem txEnd_trace {s : State} {r : TxResult} (h : txEnd s = .next r) : r.1.env.trace = s.env.trace := by
  obtain ⟨e, -, rfl⟩ := txEnd_cases h
  rfl

/-- The continuation is asked at most once. -/
theorem afterCont_trace (s : State) :
    ∃ l, (l = [] ∨ ∃ a, l = [.cont s.tx.data s.tx.len s.tx.pos a]) ∧
      (afterCont s).env.trace = s.env.trace ++ l := by
  unfold afterCont
  split
  · refine ⟨[.cont s.tx.data s.tx.len s.tx.pos (contRequest s).1], .inr ⟨_, rfl⟩, ?_⟩
    split <;> simp [contRequest_trace]
  · exact ⟨[], .inl rfl, by simp⟩

/-- The requests of TXBYTE: at most one continuation request, then at most one memory read. -/
theorem txByte_trace {s : State} {r : TxResult} (h : txByte s = .next r) :
    ∃ l m, (l = [] ∨ ∃ a, l = [Event.cont s.tx.data s.tx.len s.tx.pos a]) ∧
      (m = [] ∨ ∃ a v, m = [Event.memRead a v]) ∧ r.1.env.trace = s.env.trace ++ (l ++ m) := by
  obtain ⟨-, rfl⟩ | ⟨-, b, -, rfl⟩ | ⟨-, -, h⟩ | ⟨hs, hp, -, h⟩ | ⟨hs, hp, -, h⟩ | ⟨-, b, -, rfl⟩ | ⟨-, h⟩ :=
    txByte_cases h
  · exact ⟨[], [], .inl rfl, .inl rfl, by simp⟩
  · exact ⟨[], [], .inl rfl, .inl rfl, by simp⟩
  · obtain ⟨v, hv⟩ := txTake_trace h
    exact ⟨[], _, .inl rfl, .inr ⟨_, _, rfl⟩, by simpa using hv⟩
  · obtain ⟨v, hv⟩ := txTake_trace h
    obtain ⟨l, hl, e⟩ := afterCont_trace s
    exact ⟨l, _, hl, .inr ⟨_, _, rfl⟩, by rw [hv, e, List.append_assoc]⟩
  · obtain ⟨l, hl, e⟩ := afterCont_trace s
    exact ⟨l, [], hl, .inl rfl, by rw [txEnd_trace h, e]; simp⟩
  · exact ⟨[], [], .inl rfl, .inl rfl, by simp⟩
  · obtain ⟨e, -, h⟩ := andThen_eq_next.mp h
    simp only [Host.Outcome.next.injEq] at h; subst h
    exact ⟨[], [], .inl rfl, .inl rfl, by simp⟩

/-- The requests of RXBYTE: at most one memory write. -/
theorem rxByte_trace {b : Byte} {s : State} {r : RxResult} (h : rxByte b s = .next r) :
    ∃ m, (m = [] ∨ ∃ a v, m = [Event.memWrite a v]) ∧ r.1.env.trace = s.env.trace ++ m := by
  have st : ∀ {v : Byte} {u t : State}, rxStore v u = .next t → u.env.trace = s.env.trace →
      ∃ m, (m = [] ∨ ∃ a v, m = [Event.memWrite a v]) ∧ t.env.trace = s.env.trace ++ m := by
    intro v u t h e
    obtain ⟨-, -, rfl⟩ | ⟨-, rfl⟩ := rxStore_cases h
    · exact ⟨[.memWrite (rxStoreAddr u) v], .inr ⟨_, _, rfl⟩, by simp [storedByte, e]⟩
    · exact ⟨[], .inl rfl, by simp [e]⟩
  obtain ⟨-, rfl⟩ | ⟨-, rfl⟩ | ⟨-, c, -, ⟨-, rfl⟩ | ⟨-, rfl⟩⟩ | ⟨hs, h⟩ | ⟨-, h⟩ | ⟨-, c, -, ⟨-, rfl⟩ | ⟨-, rfl⟩⟩ :=
    rxByte_cases h
  · exact ⟨[], .inl rfl, by simp⟩
  · exact ⟨[], .inl rfl, by simp⟩
  · exact ⟨[], .inl rfl, by simp⟩
  · exact ⟨[], .inl rfl, by simp⟩
  · obtain ⟨_, -, ⟨-, rfl⟩ | ⟨-, _, -, ⟨-, rfl⟩ | ⟨-, _, -, ⟨-, rfl⟩ | ⟨-, t, ht, rfl⟩⟩⟩⟩ := rxData_cases h
    · exact ⟨[], .inl rfl, by simp⟩
    · exact ⟨[], .inl rfl, by simp⟩
    · exact ⟨[], .inl rfl, by simp⟩
    · exact st ht rfl
  · obtain ⟨v, t, -, ht, rfl⟩ := rxEsc_cases h
    exact st ht rfl
  · exact ⟨[], .inl rfl, by simp⟩
  · exact ⟨[], .inl rfl, by simp⟩

/-- The requests of the transmit half (R213, R214). -/
theorem txHalf_trace {s t : State} (h : txHalf s = .next t) :
    ∃ l m w, (l = [] ∨ ∃ a, l = [Event.cont s.tx.data s.tx.len s.tx.pos a]) ∧
      (m = [] ∨ ∃ a v, m = [Event.memRead a v]) ∧ (w = [] ∨ ∃ h b o, w = [Event.tpWrite h b o]) ∧
      t.env.trace = s.env.trace ++ (l ++ m ++ w) := by
  obtain ⟨-, rfl⟩ | ⟨-, u, st, b, hu, rfl⟩ := txHalf_cases h
  · exact ⟨[], [], [], .inl rfl, .inl rfl, .inl rfl, by simp⟩
  · obtain ⟨l, m, hl, hm, e⟩ := txByte_trace hu
    simp only at e
    exact ⟨l, m, [.tpWrite u.handle b (drawWrite u).1], hl, hm, .inr ⟨_, _, _, rfl⟩, by simp [tpWrite, e]⟩

/-- The requests of the receive half (R213, R214). -/
theorem rxHalf_trace {s t : State} (h : rxHalf s = .next t) :
    ∃ l m, (l = [] ∨ ∃ a, l = [Event.tpRead s.handle a]) ∧ (m = [] ∨ ∃ a v, m = [Event.memWrite a v]) ∧
      t.env.trace = s.env.trace ++ (l ++ m) := by
  obtain ⟨-, rfl⟩ | ⟨-, e, rfl⟩ | ⟨-, b, u, st, e, hu, rfl⟩ := rxHalf_cases h
  · exact ⟨[], [], .inl rfl, .inl rfl, by simp⟩
  · exact ⟨_, [], .inr ⟨_, rfl⟩, .inl rfl, by simp [tpRead]; rfl⟩
  · obtain ⟨m, hm, e⟩ := rxByte_trace hu
    exact ⟨_, m, .inr ⟨_, rfl⟩, hm, by simp at e; simp [e, tpRead]; rfl⟩

end Sys2Proof.Machine
end

