-- ==== Sys2Proof/Tests/Slice0.lean ====
section
/-! SUPPORT. Small tests against the spec's vectors (95_test_vectors.md), and for every statement with hypotheses a
concrete input that meets them. Expected values are the vectors', or words written out from R95 and R96. -/
namespace Sys2Proof.Tests

open Sys2Proof Sys2Proof.Machine

/-! ### Small states -/

/-- CFG_A of 95_test_vectors.md in a table of four entries; entry 3 is unused. -/
def cfgA : CfgRegs := { ctl := [0x02, 0x1B, 0x03, 0x00], esc := [0x53, 0x45, 0x46, 0x00], num := 3 }

/-- CFG_B of 95_test_vectors.md. -/
def cfgB : CfgRegs := { ctl := [0x02, 0x1B, 0x03, 0x11], esc := [0x53, 0x45, 0x46, 0x58], num := 4 }

/-- The memory of the TXBYTE vectors. -/
def payload : Memory := [(0x1000, 0x41), (0x1001, 0x02), (0x1002, 0x1B), (0x1003, 0x03), (0x1004, 0x42)]

/-- The INIT idiom with CFG_A and handle 1 (R102). -/
def ready : State :=
  { State.reset with
    cfg := cfgA
    bound := true
    handle := 1
    tx.state := .idle
    written := { cfg := true, handle := true, tx := true, escid := true, rx := true, rxLen := true }
    env.mem := payload }

/-- A frame of the five bytes at 0x1000 in flight. -/
def txAt (st : TxState) (pos escid : Nat) : State :=
  { ready with tx := { state := st, data := 0x1000, len := 5, pos := pos, escid := escid } }

/-- A receive buffer of four bytes beside it. -/
def buffers : Memory := payload ++ [(0x2000, 0), (0x2001, 0), (0x2002, 0), (0x2003, 0)]

/-- A receiver armed with the buffer at 0x2000, `rx_len` left from an earlier frame. -/
def rxAt (st : RxState) (cap pos : Nat) : State :=
  { ready with rx := { state := st, buf := 0x2000, cap := cap, pos := pos, len := 1 }, env.mem := buffers }

/-- A payload of one byte just taken, with a continuation attached that answers `a`. -/
def contAt (a : ContAnswer) : State :=
  { ready with
    params.hasCont := true
    tx := { state := .data, data := 0x1000, len := 1, pos := 1, escid := 0 }
    env.contAnswers := [a] }

/-- A frame of `len` payload bytes at 0x1000 just submitted. -/
def sofState (len : Nat) : State :=
  { ready with
    tx := { state := .sof, data := 0x1000, len := len, pos := 0, escid := 0 }
    env.response := some { status := .ok, byte := none } }

/-- The operation answers a next state and `p` holds of it. -/
def answers (x : Res State) (p : State → Bool) : Bool :=
  match x with
  | .next t => p t
  | .fault _ => false
  | .refused _ => false

/-- The status and the byte on the response port. -/
def said (t : State) : Option (Status × Option Byte) := t.env.response.map fun r => (r.status, r.byte)

/-! ### WellFormed: one ill-formed term for each check -/

theorem test_wf_configure_ctl_length : (Instr.configure [2, 27, 3] [83, 69, 70, 0] 3).wf Config.default = false := by
  decide
theorem test_wf_configure_esc_length : (Instr.configure [2, 27, 3, 0] [83, 69, 70] 3).wf Config.default = false := by
  decide
theorem test_wf_configure_num : (Instr.configure [2, 27, 3, 0] [83, 69, 70, 0] 8).wf Config.default = false := by decide
theorem test_wf_bind_handle : (Instr.bind 256).wf Config.default = false := by decide
theorem test_wf_submit_data : (Instr.submit false (2 ^ 32) 5).wf Config.default = false := by decide
theorem test_wf_submit_len : (Instr.submit false 0x1000 (2 ^ 16)).wf Config.default = false := by decide
theorem test_wf_supply_data : (Instr.supply false (2 ^ 32) 4).wf Config.default = false := by decide
theorem test_wf_supply_cap : (Instr.supply false 0x2000 (2 ^ 16)).wf Config.default = false := by decide
theorem test_wf_accepts_the_widest_operands :
    (Instr.bind 255).wf Config.default = true ∧ (Instr.submit true (2 ^ 32 - 1) (2 ^ 16 - 1)).wf Config.default = true ∧
      (Instr.configure [2, 27, 3, 17] [83, 69, 70, 88] 7).wf Config.default = true := by decide

/-! ### Decode: words written out from R95 and R96 (operands above the opcode nibble, log entry 10) -/

/-- CFG_A: nibble 1, then `02 1B 03 00`, then `53 45 46 00`, then 3. -/
theorem test_decode_configure :
    decode Config.default 0x3_00464553_00031B02_1 = .ok (.configure [0x02, 0x1B, 0x03, 0] [0x53, 0x45, 0x46, 0] 3) := by
  decide
theorem test_decode_bind : decode Config.default 0x012 = .ok (.bind 1) := by decide
/-- `SUBMIT pdu_null=0 data=0x1000 len=5`: the bundle is 5 on 32 bits of data on one bit of `pdu_null`. -/
theorem test_decode_submit :
    decode Config.default (0x3 + 2 ^ 4 * 0 + 2 ^ 5 * 0x1000 + 2 ^ 37 * 5) = .ok (.submit false 0x1000 5) := by decide
theorem test_decode_supply :
    decode Config.default (0x4 + 2 ^ 4 * 1 + 2 ^ 5 * 0x2000 + 2 ^ 37 * 4) = .ok (.supply true 0x2000 4) := by decide
theorem test_decode_without_operands :
    [0x5, 0x6, 0x7, 0x8, 0x9].map (decodeTableWord 4) =
      [some .gettx, some .clrtx, some .getrx, some .clrrx, some .step] := by decide
theorem test_decode_reserved :
    [0x0, 0xA, 0xB, 0xC, 0xD, 0xE, 0xF].map (decodeTableWord 4) =
      [some .reserved0, some (.reservedAB 0), some (.reservedAB 1), some (.reservedCF 0), some (.reservedCF 1),
        some (.reservedCF 2), some (.reservedCF 3)] := by decide
theorem test_decode_excess : decode Config.default 0x19 = .error .excessBits := by decide
theorem test_encode_bind : encode Config.default (.bind 1) = some 0x012 := by decide
theorem test_encode_internal : encode Config.default (.rxbyte 2) = none := by decide

/-! ### One operation each -/

/-- V-SE-7 -/
theorem test_configure_mid_frame :
    answers (exec (.configure cfgB.ctl cfgB.esc 4) { txAt .data 2 0 with rx := (rxAt .esc 4 2).rx, rxLast := .byteReceived })
      (fun t => t.cfg == cfgB && t.tx == { (txAt .data 2 0).tx with state := .config } &&
        t.rx == { (rxAt .esc 4 2).rx with state := .idle } && !t.bound && t.rxLast == .ok && t.handle == 1 &&
        t.env.trace == []) = true := by decide
/-- V-SE-4 -/
theorem test_bind_refused_in_flight :
    answers (exec (.bind 2) (txAt .data 2 0)) (fun t => said t == some (.invalidArgument, none) && t.handle == 1) = true := by
  decide
/-- V-SE-6 -/
theorem test_bind_under_a_receive_frame :
    answers (exec (.bind 2) (rxAt .data 4 3))
      (fun t => said t == some (.ok, none) && t.handle == 2 && t.rx == (rxAt .data 4 3).rx) = true := by decide
/-- V-SU-7 -/
theorem test_submit_from_finished :
    answers (exec (.submit false 0x3000 9) (txAt .finished 5 2))
      (fun t => said t == some (.ok, none) && t.tx == { state := .sof, data := 0x3000, len := 9, pos := 0, escid := 2 })
      = true := by decide
/-- V-SU-6 -/
theorem test_submit_refused_in_flight :
    answers (exec (.submit false 0x3000 9) (txAt .data 2 0))
      (fun t => said t == some (.invalidArgument, none) && t.tx == (txAt .data 2 0).tx) = true := by decide
/-- V-SU-15 -/
theorem test_supply_from_finished :
    answers (exec (.supply false 0x2000 4) (rxAt .finished 4 1))
      (fun t => said t == some (.ok, none) && t.rx == { state := .sof, buf := 0x2000, cap := 4, pos := 0, len := 1 })
      = true := by decide
/-- V-SU-12 -/
theorem test_supply_refused_unbound :
    answers (exec (.supply false 0x2000 4) { ready with bound := false, tx.state := .config })
      (fun t => said t == some (.invalidArgument, none) && t.rx == ready.rx) = true := by decide
/-- V-ST-1, V-ST-4 -/
theorem test_gettx :
    answers (exec .gettx (txAt .finished 5 2)) (fun t => said t == some (.frameFinished, none)) = true ∧
      answers (exec .gettx (txAt .idle 5 2)) (fun t => said t == some (.pending, none)) = true := by decide
/-- V-ST-2, V-ST-5 -/
theorem test_clrtx :
    answers (exec .clrtx (txAt .finished 5 2)) (fun t => said t == some (.ok, none) && t.tx == (txAt .idle 5 2).tx) = true ∧
      answers (exec .clrtx (txAt .data 2 0)) (fun t => said t == some (.ok, none) && t.tx == (txAt .data 2 0).tx) = true := by
  decide
/-- V-ST-7, V-ST-10, V-ST-11 -/
theorem test_getrx :
    answers (exec .getrx (rxAt .finished 4 1)) (fun t => said t == some (.frameFinished, none)) = true ∧
      answers (exec .getrx (rxAt .idle 4 1)) (fun t => said t == some (.ok, none)) = true ∧
      answers (exec .getrx (rxAt .error 4 4)) (fun t => said t == some (.pending, none)) = true := by decide
/-- V-ST-8, V-ST-12 -/
theorem test_clrrx :
    answers (exec .clrrx (rxAt .finished 4 1)) (fun t => said t == some (.ok, none) && t.rx == (rxAt .idle 4 1).rx) = true ∧
      answers (exec .clrrx (rxAt .error 4 4)) (fun t => said t == some (.ok, none) && t.rx == (rxAt .error 4 4).rx) = true := by
  decide
/-- V-TX-2 -/
theorem test_txbyte_escapes :
    answers (exec .txbyte (txAt .data 1 3)) (fun t => said t == some (.ok, some 0x1B) && t.tx == (txAt .esc 2 0).tx) = true := by
  decide
/-- V-TX-11 -/
theorem test_txbyte_continues :
    answers (exec .txbyte (contAt { more := true, data := 0x1000, len := 2, pos := 1, writes := [(0x1001, 0x02)] }))
      (fun t => said t == some (.ok, some 0x1B) && t.tx == { state := .esc, data := 0x1000, len := 2, pos := 2, escid := 0 })
      = true := by decide
/-- V-RX-5, its third byte -/
theorem test_rxbyte_unescapes :
    answers (exec (.rxbyte 0x45) (rxAt .esc 4 0))
      (fun t => said t == some (.byteReceived, none) && t.rx == (rxAt .data 4 1).rx && memGet t.env.mem 0x2000 == some 0x1B)
      = true := by decide
/-- V-RX-17, its last byte -/
theorem test_rxbyte_overflows_on_an_escape_pair :
    answers (exec (.rxbyte 0x53) (rxAt .esc 1 1))
      (fun t => said t == some (.byteReceived, none) && t.rx == (rxAt .error 1 1).rx && t.env.mem == buffers) = true := by
  decide
/-- V-DR-8 -/
theorem test_step_moves_both_directions :
    answers (exec .step { txAt .data 0 0 with
        tx.len := 1, rx := (rxAt .data 4 0).rx, env.mem := buffers, env.writeAnswers := [true], env.readAnswers := [some 0x42] })
      (fun t => t.env.trace == [.memRead 0x1000 0x41, .tpWrite 1 0x41 true, .tpRead 1 (some 0x42), .memWrite 0x2000 0x42] &&
        t.tx.pos == 1 && t.rx.pos == 1 && t.rxLast == .byteReceived) = true := by decide
/-- V-DR-4 -/
theorem test_step_swallows_a_write_failure :
    answers (exec .step { txAt .sof 0 0 with env.writeAnswers := [false] })
      (fun t => said t == some (.ok, none) && t.tx.state == .data && t.env.trace == [.tpWrite 1 0x02 false]) = true := by
  decide
/-- V-RS-1, V-RS-2 -/
theorem test_reserved :
    answers (exec .reserved0 ready) (fun t => said t == some (.invalidArgument, none)) = true ∧
      answers (exec (.reservedAB 1) ready) (fun t => said t == some (.invalidArgument, none)) = true ∧
      answers (exec (.reservedCF 3) ready) (fun t => said t == some (.invalidArgument, none)) = true := by decide
/-- V-RE-1 -/
theorem test_reset_input :
    answers (step { txAt .esc 2 0 with rx := (rxAt .error 4 4).rx, rxLast := .byteReceived, env.inputs := [.reset] })
      (fun t => { t with env := State.reset.env } == State.reset) = true := by decide
/-- The codes of R24, R28, R33 on the status port. -/
theorem test_status_port_codes :
    statusPort { txAt .esc 2 0 with rx := (rxAt .error 4 4).rx, rxLast := .byteReceived } .txState = .next 4 ∧
      statusPort (rxAt .error 4 4) .rxState = .next 5 ∧
      statusPort { ready with rxLast := .frameFinished } .rxLast = .next 3 := ⟨rfl, rfl, rfl⟩
/-- U5: a store past the supplied buffer has no step. -/
theorem test_store_past_the_buffer_stops :
    exec (.rxbyte 0x42) (rxAt .data 5 4) = .fault .unplacedByte := rfl
/-- V-WF-6, V-WF-10 -/
theorem test_frames :
    frameOf cfgA [0x41, 0x02, 0x1B, 0x03, 0x42] = [0x02, 0x41, 0x1B, 0x53, 0x1B, 0x45, 0x1B, 0x46, 0x42, 0x03] ∧
      frameOf { cfgB with num := 3 } [0x11] = [0x02, 0x11, 0x03] := by decide
/-- The step runs a command placed with withFetchWord from reset. -/
theorem test_fetch : answers (step (State.reset.withFetchWord 4 0x7)) (fun t => said t == some (.ok, none)) = true := by
  decide

/-! ### Every statement's hypotheses can be met -/

theorem witness_decodeOfEncodedCommand :
    Instr.wf Config.default (.configure cfgB.ctl cfgB.esc 7) = true ∧ Instr.wf Config.default (.rxbyte 0xFF) = true ∧
      Instr.wf Config.default (.supply true (2 ^ 32 - 1) (2 ^ 16 - 1)) = true := by decide
theorem witness_encodeOfDecodedWord : decode Config.default 0xFF2 = .ok (.bind 0xFF) := by decide
theorem witness_stepRunsTheDecodedCommand :
    ∃ s t : State, s.env.inputs = .command 0x9 :: [] ∧ decode s.params 0x9 = .ok .step ∧
      t.env.inputs = .command 0x19 :: [] ∧ decode t.params 0x19 = .error .excessBits :=
  ⟨{ ready with env.inputs := [.command 0x9] }, { ready with env.inputs := [.command 0x19] }, rfl, rfl, rfl, rfl⟩
theorem witness_stepOnOtherInputs :
    ∃ s t u : State, s.env.inputs = [] ∧ t.env.inputs = .hostWrite (2 ^ 32 - 1) 7 :: [] ∧
      2 ^ 32 - 1 < 2 ^ t.params.addrW ∧ u.env.inputs = .reset :: [.command 0x9] :=
  ⟨ready, { ready with env.inputs := [.hostWrite (2 ^ 32 - 1) 7] }, { ready with env.inputs := [.reset, .command 0x9] },
    rfl, rfl, by decide, rfl⟩
theorem witness_statusPortShowsTheRegisters : ready.cfg.ctl[3]? = some 0x00 ∧ ready.cfg.esc[0]? = some 0x53 := by decide
theorem witness_bindResult :
    State.reset.tx.state = .config ∧ ready.tx.state = .idle ∧ (txAt .finished 5 0).tx.state = .finished ∧
      (txAt .sof 0 0).tx.state = .sof ∧ (txAt .eof 5 0).tx.state = .eof := by decide
theorem witness_submitResult :
    ((ready.tx.state = .idle ∨ ready.tx.state = .finished) ∧ false = false ∧ (1 : Nat) ≠ 0 ∧ (2 ^ 16 - 1 : Nat) ≠ 0 ∧
      ready.bound = true) ∧
    ¬ ((State.reset.tx.state = .idle ∨ State.reset.tx.state = .finished) ∧ false = false ∧ (1 : Nat) ≠ 0 ∧ (1 : Nat) ≠ 0 ∧
      State.reset.bound = true) := by decide
theorem witness_supplyResult :
    (((rxAt .finished 4 1).rx.state = .idle ∨ (rxAt .finished 4 1).rx.state = .finished) ∧ false = false ∧
      (2 ^ 32 - 1 : Nat) ≠ 0 ∧ (1 : Nat) ≠ 0 ∧ (rxAt .finished 4 1).bound = true) ∧
    ¬ (((rxAt .error 4 4).rx.state = .idle ∨ (rxAt .error 4 4).rx.state = .finished) ∧ false = false ∧ (1 : Nat) ≠ 0 ∧
      (1 : Nat) ≠ 0 ∧ (rxAt .error 4 4).bound = true) := by decide
theorem witness_txbyteWithNothingToSend :
    State.reset.tx.state = .config ∧ ready.tx.state = .idle ∧ (txAt .finished 5 0).tx.state = .finished := by decide
theorem witness_txbyteSendsSof :
    (txAt .sof 0 0).tx.state = .sof ∧ (txAt .sof 0 0).cfg.ctl[0]? = some 0x02 := by
  decide

/-- The payload's last byte at the last address of the space. -/
def lastAddress : State :=
  { ready with
    tx := { state := .data, data := 2 ^ 32 - 1, len := 1, pos := 0, escid := 0 }
    env.mem := [(2 ^ 32 - 1, 0x41)] }

theorem witness_txbyteTakesAPayloadByte :
    ((txAt .data 3 0).tx.state = .data ∧ (txAt .data 3 0).tx.pos < (txAt .data 3 0).tx.len ∧
      (txAt .data 3 0).tx.data + (txAt .data 3 0).tx.pos < 2 ^ 32 ∧
      memGet (txAt .data 3 0).env.mem 0x1003 = some 0x03 ∧ lookupIn cfgA.ctl cfgA.num 0x03 = some 2 ∧
      (txAt .data 3 0).cfg.ctl[1]? = some 0x1B) ∧
    (lastAddress.tx.state = .data ∧ lastAddress.tx.pos < lastAddress.tx.len ∧
      lastAddress.tx.data + lastAddress.tx.pos < 2 ^ lastAddress.params.addrW ∧
      memGet lastAddress.env.mem (lastAddress.tx.data + lastAddress.tx.pos) = some 0x41 ∧
      lookupIn lastAddress.cfg.ctl lastAddress.cfg.num 0x41 = none ∧
      lastAddress.cfg.num ≤ lastAddress.cfg.ctl.length) := by decide

/-- An illegal configuration whose count passes the table (R22, U1). -/
def overlong : State := { ready with cfg := { cfgB with num := 7 } }

theorem witness_lookupIsTheLeastMatch :
    ready.cfg.num ≤ ready.cfg.ctl.length ∧ ready.cfg.num ≤ ready.cfg.esc.length ∧
      overlong.cfg.ctl.length < overlong.cfg.num ∧ 0x41 ∉ overlong.cfg.ctl ∧
      overlong.cfg.esc.length < overlong.cfg.num ∧ 0x41 ∉ overlong.cfg.esc := by decide
theorem witness_txbyteEndsTheFrame :
    (txAt .data 5 2).cfg.ctl[2]? = some 0x03 ∧ (txAt .data 5 2).tx.state = .data ∧
      ¬ (txAt .data 5 2).tx.pos < (txAt .data 5 2).tx.len ∧ (txAt .data 5 2).params.hasCont = false ∧
      (txAt .eof 5 2).tx.state = .eof ∧ (txAt .eof 5 2).cfg.ctl[2]? = some 0x03 := by decide

/-- The continuations of V-TX-10, V-TX-12 and V-TX-11. -/
def declining : State := contAt { more := false, data := 0, len := 0, pos := 0, writes := [] }
def emptyHanded : State := contAt { more := true, data := 0x1100, len := 0, pos := 0, writes := [] }
def supplying : State := contAt { more := true, data := 0x1000, len := 2, pos := 1, writes := [(0x1001, 0x02)] }

theorem witness_txbyteAsksTheContinuation :
    (∀ s ∈ [declining, emptyHanded, supplying], s.tx.state = .data ∧ ¬ s.tx.pos < s.tx.len ∧ s.params.hasCont = true ∧
      s.cfg.ctl[2]? = some 0x03) ∧
    (contRequest declining).1.more = false ∧
    (contRequest emptyHanded).1.more = true ∧ ¬ (contRequest emptyHanded).1.pos < (contRequest emptyHanded).1.len ∧
    (contRequest supplying).1.more = true ∧ (contRequest supplying).1.pos < (contRequest supplying).1.len := by decide
theorem witness_continuationRequest : supplying.params.Legal ∧ ContsOblige supplying :=
  ⟨by decide, by unfold ContsOblige; decide⟩
theorem witness_txbyteSendsTheSubstitute :
    (txAt .esc 2 2).tx.state = .esc ∧
      (txAt .esc 2 2).cfg.esc[(txAt .esc 2 2).tx.escid]? = some 0x46 := by decide

/-- The invariant holds of a frame in flight in both directions. -/
theorem witness_inv_of {s : State} (hs : Shape s) (hc : Coherent s) (hk : s.env.contAnswers = []) : ChanInv s :=
  ⟨hs, hc, by simp [ContsOblige, hk]⟩

/-- Both directions mid-frame: the transmitter about to send the substitute of its last byte, the receiver's buffer
one byte from full. -/
def busy : State := { txAt .esc 5 2 with rx := (rxAt .esc 4 3).rx, env.mem := buffers }

theorem witness_busy_inv : ChanInv busy := by
  refine witness_inv_of ⟨?_, ?_, ?_, ?_, ?_, ?_, ?_, ?_, ?_, ?_, ?_, ?_, ?_, ?_, ?_⟩
    ⟨?_, ?_, ?_, ?_, ?_, ?_, ?_, ?_, ?_⟩ rfl <;> first | decide | (unfold memInSpace; decide)

/-- Reading is asked of no state that neither sends a payload byte nor asks the continuation. -/
theorem witness_readable_of {s : State} (h : txReads s = none) : TxReadable s := by
  intro r hr
  rw [h] at hr
  cases hr

theorem witness_txbyteYieldsOneByteInFlight :
    ChanInv busy ∧ Configured busy ∧ TxReadable busy ∧
      (busy.tx.state = .sof ∨ busy.tx.state = .data ∨ busy.tx.state = .esc) :=
  ⟨witness_busy_inv, by unfold Configured; decide, witness_readable_of rfl, .inr (.inr rfl)⟩

/-- The same with a payload byte to read. -/
theorem witness_txbyteYieldsOneByteInData :
    ChanInv (txAt .data 4 0) ∧ Configured (txAt .data 4 0) ∧ TxReadable (txAt .data 4 0) ∧
      (txAt .data 4 0).tx.state = .data := by
  refine ⟨witness_inv_of ⟨?_, ?_, ?_, ?_, ?_, ?_, ?_, ?_, ?_, ?_, ?_, ?_, ?_, ?_, ?_⟩
    ⟨?_, ?_, ?_, ?_, ?_, ?_, ?_, ?_, ?_⟩ rfl, by unfold Configured; decide, ?_, rfl⟩
  case refine_25 =>
    intro r hr
    have : txReads (txAt .data 4 0) = some (0x1004, payload) := rfl
    rw [this] at hr
    cases hr
    decide
  all_goals first | decide | (unfold memInSpace; decide)

theorem witness_rxbyteDiscards :
    (rxAt .idle 4 0).rx.state = .idle ∧ (rxAt .finished 4 1).rx.state = .finished ∧
      (rxAt .error 4 4).rx.state = .error ∧ (rxAt .error 4 4).cfg.ctl[2]? = some 0x03 ∧ (0x02 : Byte) ≠ 0x03 := by decide
theorem witness_rxbyteHuntsForSof :
    (rxAt .sof 4 0).rx.state = .sof ∧ (rxAt .sof 4 0).cfg.ctl[0]? = some 0x02 ∧
      (0x41 : Byte) ≠ 0x02 := by decide
theorem witness_rxbyteControlByteInData :
    (rxAt .data 4 4).rx.state = .data ∧ (rxAt .data 4 4).cfg.ctl[0]? = some 0x02 ∧
      (rxAt .data 4 4).cfg.ctl[1]? = some 0x1B ∧ (0x1B : Byte) ≠ 0x02 := by decide
theorem witness_rxbyteFinishesTheFrame :
    (rxAt .data 4 4).rx.state = .data ∧ (rxAt .data 4 4).cfg.ctl[0]? = some 0x02 ∧
      (rxAt .data 4 4).cfg.ctl[1]? = some 0x1B ∧ (rxAt .data 4 4).cfg.ctl[2]? = some 0x03 ∧ (0x03 : Byte) ≠ 0x02 ∧
      (0x03 : Byte) ≠ 0x1B := by decide
theorem witness_rxStoreStoresOrOverflows :
    (rxAt .data 4 3).rx.pos < (rxAt .data 4 3).rx.cap ∧
      placed (rxAt .data 4 3).params (rxAt .data 4 3).env.mem ((rxAt .data 4 3).rx.buf + (rxAt .data 4 3).rx.pos) ∧
      ¬ (rxAt .data 4 4).rx.pos < (rxAt .data 4 4).rx.cap := by decide
theorem witness_rxbyteStoresADataByte :
    (rxAt .data 4 3).rx.state = .data ∧ (rxAt .data 4 3).cfg.ctl[0]? = some 0x02 ∧
      (rxAt .data 4 3).cfg.ctl[1]? = some 0x1B ∧ (rxAt .data 4 3).cfg.ctl[2]? = some 0x03 ∧
      ((0x53 : Byte) ≠ 0x02 ∧ (0x53 : Byte) ≠ 0x1B ∧ (0x53 : Byte) ≠ 0x03) ∧
      (rxAt .data 4 3).rx.pos < (rxAt .data 4 3).rx.cap ∧
      placed (rxAt .data 4 3).params (rxAt .data 4 3).env.mem (rxStoreAddr (rxAt .data 4 3)) ∧
      ¬ (rxAt .data 4 4).rx.pos < (rxAt .data 4 4).rx.cap := by decide
theorem witness_rxbyteUnescapes :
    (rxAt .esc 4 3).rx.state = .esc ∧
      (lookupIn cfgA.esc cfgA.num 0x46 = some 2 ∧ (rxAt .esc 4 3).cfg.ctl[2]? = some 0x03) ∧
      (lookupIn cfgA.esc cfgA.num 0x03 = none ∧ cfgA.num ≤ cfgA.esc.length) ∧
      (rxAt .esc 4 3).rx.pos < (rxAt .esc 4 3).rx.cap ∧
      placed (rxAt .esc 4 3).params (rxAt .esc 4 3).env.mem (rxStoreAddr (rxAt .esc 4 3)) ∧
      ¬ (rxAt .esc 4 4).rx.pos < (rxAt .esc 4 4).rx.cap := by decide
theorem witness_stepCommandWithNothingToDo : State.reset.tx.state = .config ∧ State.reset.rx.state = .idle := by decide
theorem witness_stepCommandTransmitHalf :
    ∃ (s u : State) (st : Status) (b : Byte), s.rx.state = .idle ∧ s.tx.state = .esc ∧ exec .txbyte s = .next u ∧
      u.env.response = some { status := st, byte := some b } ∧ s.env.writeAnswers = [false] :=
  ⟨{ txAt .esc 5 2 with env.writeAnswers := [false] }, _, _, _, rfl, rfl, rfl, rfl, rfl⟩

/-- A receiver with a read answer waiting and nothing to send. -/
def reading (a : Option Byte) : State := { rxAt .data 4 3 with env.readAnswers := [a] }

/-- The same with a frame in flight whose next write the transport refuses. -/
def fullDuplex (a : Option Byte) : State := { reading a with tx := (txAt .data 1 0).tx, env.writeAnswers := [false] }

theorem witness_stepCommandReceiveHalf :
    ∃ t r u st, (reading (some 0x41)).rx.state ≠ .idle ∧ TransmitHalfLeaves (reading (some 0x41)) t ∧
      ReadAnswered (some 0x41) t r ∧ exec (.rxbyte 0x41) r = .next u ∧
      u.env.response = some { status := st, byte := none } :=
  ⟨_, _, _, _, by decide, .inl ⟨.inr (.inl rfl), rfl⟩, .inl ⟨[], rfl, rfl⟩, rfl, rfl⟩
theorem witness_stepCommandReceiveHalf_fullDuplex :
    ∃ t r u st, (fullDuplex (some 0x41)).rx.state ≠ .idle ∧ TxInFlight (fullDuplex (some 0x41)) ∧
      TransmitHalfLeaves (fullDuplex (some 0x41)) t ∧ ReadAnswered (some 0x41) t r ∧
      exec (.rxbyte 0x41) r = .next u ∧ u.env.response = some { status := st, byte := none } :=
  ⟨_, _, _, _, by decide, .inr (.inl rfl),
    .inr ⟨.inr (.inl rfl), _, _, _, _, rfl, rfl, .inl ⟨[], rfl, rfl⟩⟩, .inl ⟨[], rfl, rfl⟩, rfl, rfl⟩
theorem witness_stepCommandReceiveHalf_failedRead :
    ∃ t r, (fullDuplex none).rx.state ≠ .idle ∧ TransmitHalfLeaves (fullDuplex none) t ∧ ReadAnswered none t r :=
  ⟨_, _, by decide, .inr ⟨.inr (.inl rfl), _, _, _, _, rfl, rfl, .inl ⟨[], rfl, rfl⟩⟩, .inl ⟨[], rfl, rfl⟩⟩
theorem witness_stepCommandCompletes : ChanInv busy ∧ Configured busy ∧ TxReadable busy ∧ RxWritable busy :=
  ⟨witness_busy_inv, by unfold Configured; decide, witness_readable_of rfl, by unfold RxWritable; decide⟩

/-- Out of order from reset, where no table is written, and from a state with CFG_A loaded and not yet bound. -/
theorem witness_startUpOutOfOrder :
    (State.reset.tx.state = .config ∧ State.reset.rx.state = .idle ∧ State.reset.bound = false ∧
      State.reset.cfg.ctl[0]? = some 0 ∧ elementWritten State.reset (.ctl 0) = false) ∧
    ∃ s : State, s.tx.state = .config ∧ s.rx.state = .idle ∧ s.bound = false ∧ s.cfg.ctl[0]? = some 0x02 ∧
      s.env.readAnswers = some 0x02 :: [some 0x41] :=
  ⟨by decide, { ready with bound := false, tx.state := .config, env.readAnswers := [some 0x02, some 0x41] },
    rfl, rfl, rfl, rfl, rfl⟩

/-- Buffers that wrap the address space. -/
def wrapping : State :=
  { ready with
    tx := { state := .data, data := 2 ^ 32 - 1, len := 2, pos := 1, escid := 0 }
    rx := { state := .data, buf := 2 ^ 32 - 1, cap := 2, pos := 1, len := 0 } }

/-- Buffers longer than the memory behind them. -/
def overrunning (st : RxState) : State := { rxAt st 5 4 with tx := { (txAt .data 5 0).tx with len := 6 } }

/-- A receiver whose next byte, read in STEP, goes past the buffer, with a frame in flight. -/
def overrunRead : State :=
  { rxAt .data 5 4 with tx := (txAt .data 1 0).tx, env.readAnswers := [some 0x41], env.writeAnswers := [true] }

theorem witness_addressesOutsideTheBuffersFault :
    (txReads wrapping = some (2 ^ 32, payload) ∧ stopsAt wrapping.params payload (2 ^ 32) .addressOutsideSpace) ∧
    (txReads (overrunning .data) = some (0x1005, buffers) ∧
      stopsAt (overrunning .data).params buffers 0x1005 .unplacedByte) ∧
    (wrapping.rx.pos < wrapping.rx.cap ∧ wrapping.rx.state = .data ∧
      stopsAt wrapping.params wrapping.env.mem (rxStoreAddr wrapping) .addressOutsideSpace ∧
      wrapping.cfg.ctl.take 3 = [0x02, 0x1B, 0x03] ∧ (0x41 : Byte) ∉ wrapping.cfg.ctl.take 3) ∧
    ((overrunning .esc).rx.pos < (overrunning .esc).rx.cap ∧ (overrunning .esc).rx.state = .esc ∧
      stopsAt (overrunning .esc).params (overrunning .esc).env.mem (rxStoreAddr (overrunning .esc)) .unplacedByte ∧
      lookupIn cfgA.esc cfgA.num 0x46 = some 2 ∧ cfgA.ctl[2]? = some 0x03 ∧
      lookupIn cfgA.esc cfgA.num 0x41 = none ∧ cfgA.num ≤ cfgA.esc.length) ∧
    (∃ t r, overrunRead.rx.state ≠ .idle ∧ TransmitHalfLeaves overrunRead t ∧ ReadAnswered (some 0x41) t r ∧
      exec (.rxbyte 0x41) r = .fault .unplacedByte) :=
  ⟨by decide, by decide, by decide, by decide, _, _, by decide,
    .inr ⟨.inr (.inl rfl), _, _, _, _, rfl, rfl, .inl ⟨[], rfl, rfl⟩⟩, .inl ⟨[], rfl, rfl⟩, rfl⟩
theorem witness_commandsOtherThanStep : Instr.internal (.bind 1) = false ∧ Instr.bind 1 ≠ .step := by decide

/-- An input for every statement about an operation that answers a next state. -/
theorem witness_execAnswers :
    (∃ t, exec .txbyte (txAt .data 1 0) = .next t) ∧ (∃ t, exec (.rxbyte 0x41) (rxAt .data 4 3) = .next t) ∧
      (∃ t, exec .step { reading (some 0x41) with tx := (txAt .sof 0 0).tx, env.writeAnswers := [true] } = .next t) ∧
      (∃ t, exec (.bind 2) ready = .next t) :=
  ⟨⟨_, rfl⟩, ⟨_, rfl⟩, ⟨_, rfl⟩, ⟨_, rfl⟩⟩
theorem witness_rxLenWrittenOnlyOnEof :
    ∃ t, exec (.rxbyte 0x03) (rxAt .data 4 4) = .next t ∧ t.rx.len ≠ (rxAt .data 4 4).rx.len := ⟨_, rfl, by decide⟩
theorem witness_rxLastWriters :
    ∃ t u, exec .step (reading (some 0x41)) = .next t ∧ t.rxLast ≠ (reading (some 0x41)).rxLast ∧
      exec (.configure cfgB.ctl cfgB.esc 4) { ready with rxLast := .byteReceived } = .next u ∧
      u.rxLast ≠ Status.byteReceived :=
  ⟨_, _, rfl, by decide, rfl, by decide⟩
theorem witness_receiveTransitionsComplete :
    ∃ t u, exec (.rxbyte 0x1B) (rxAt .data 4 4) = .next t ∧ t.rx.state ≠ (rxAt .data 4 4).rx.state ∧
      exec .step { rxAt .esc 4 4 with env.readAnswers := [some 0x53] } = .next u ∧ u.rx.state ≠ (rxAt .esc 4 4).rx.state :=
  ⟨_, _, rfl, by decide, rfl, by decide⟩
theorem witness_transmitTransitionsComplete :
    ∃ t u, exec .txbyte (txAt .data 1 0) = .next t ∧ t.tx.state ≠ (txAt .data 1 0).tx.state ∧
      exec .clrtx (txAt .finished 5 0) = .next u ∧ u.tx.state ≠ (txAt .finished 5 0).tx.state :=
  ⟨_, _, rfl, by decide, rfl, by decide⟩
theorem witness_invalidArgumentCauses :
    ∃ t, exec (.submit false 0x3000 9) (txAt .data 2 0) = .next t ∧
      t.env.response = some { status := .invalidArgument, byte := none } := ⟨_, rfl, rfl⟩
theorem witness_statusesOfEachCommand : ∃ t, Instr.internal .getrx = false ∧ exec .getrx (rxAt .error 4 4) = .next t :=
  ⟨_, rfl, rfl⟩
theorem witness_writeFailureIsSwallowed :
    (∃ t, exec .step { txAt .data 1 0 with env.writeAnswers := false :: [] } = .next t) ∧
      ∃ t, exec .step { reading (some 0x41) with env.writeAnswers := false :: [] } = .next t := ⟨⟨_, rfl⟩, ⟨_, rfl⟩⟩
theorem witness_errorIsLeftOnlyByEofOrConfigure :
    ∃ t, (rxAt .error 4 4).rx.state = .error ∧ exec (.rxbyte 0x03) (rxAt .error 4 4) = .next t ∧ t.rx.state ≠ .error :=
  ⟨_, rfl, rfl, by decide⟩
theorem witness_busy_with_input : ChanInv { busy with env.inputs := [.command 0x5] } :=
  ⟨⟨witness_busy_inv.shape.params, witness_busy_inv.shape.ctl, witness_busy_inv.shape.esc, witness_busy_inv.shape.num,
    witness_busy_inv.shape.handle, witness_busy_inv.shape.txData, witness_busy_inv.shape.txLen,
    witness_busy_inv.shape.txPos, witness_busy_inv.shape.escid, witness_busy_inv.shape.rxBuf,
    witness_busy_inv.shape.rxCap, witness_busy_inv.shape.rxPos, witness_busy_inv.shape.rxLen,
    witness_busy_inv.shape.mem, witness_busy_inv.shape.space⟩,
   ⟨witness_busy_inv.coherent.boundIff, witness_busy_inv.coherent.rxBound, witness_busy_inv.coherent.txPosLe,
    witness_busy_inv.coherent.rxPosLe, witness_busy_inv.coherent.rxFinished, witness_busy_inv.coherent.notEof,
    witness_busy_inv.coherent.escidFound, witness_busy_inv.coherent.txWritten, witness_busy_inv.coherent.rxWritten⟩,
   witness_busy_inv.conts⟩
theorem witness_everyStepKeepsTheInvariant :
    ∃ s t, ChanInv s ∧ s.env.inputs = [.command 0x5] ∧ step s = .next t ∧ t.env.inputs = [] :=
  ⟨_, _, witness_busy_with_input, rfl, rfl, rfl⟩

/-- The sender's premises: an accepted SUBMIT of a buffer that holds the payload. -/
theorem witness_wireSequenceOfAFrame :
    exec (.submit false 0x1000 2) ready = .next (sofState 2) ∧
      (sofState 2).env.response = some { status := .ok, byte := none } ∧
      3 ≤ (sofState 2).cfg.ctl.length ∧ (sofState 2).cfg.num ≤ (sofState 2).cfg.ctl.length ∧
      (sofState 2).cfg.num ≤ (sofState 2).cfg.esc.length ∧ (sofState 2).params.hasCont = false ∧
      0x1000 + 2 ≤ 2 ^ (sofState 2).params.addrW ∧ holdsAt (sofState 2).env.mem 0x1000 [0x41, 0x02] ∧
      (sofState 2).rx.state = .idle :=
  ⟨rfl, rfl, by decide, by decide, by decide, rfl, by decide, by unfold holdsAt; decide, rfl⟩

/-- The configuration of CFG_A is legal. -/
theorem witness_cfgA_legal : CfgLegal Config.default cfgA := by constructor <;> decide
/-- Two identifiers with one substitute: clause (d) of R22 alone fails. -/
def sharedSubstitute : State := { ready with cfg := { cfgA with esc := [0x53, 0x45, 0x53, 0x00] } }

theorem witness_stepRunsTheDecodedCommand_legality :
    (sharedSubstitute.written.cfg = true ∧ ¬ CfgLegal sharedSubstitute.params sharedSubstitute.cfg) ∧
      (ready.written.cfg = true ∧ CfgLegal ready.params ready.cfg) ∧ State.reset.written.cfg = false :=
  ⟨⟨rfl, fun h => h.escDistinct 0 (by decide) 2 (by decide) (by decide) rfl⟩, ⟨rfl, witness_cfgA_legal⟩, rfl⟩
/-- R22, U1: the run after a CONFIGURE that shares a substitute is refused, and the machine itself answers. -/
theorem test_illegal_configuration_refused :
    stepUnderLegalCfg sharedSubstitute = .refused .illegalConfiguration ∧ step sharedSubstitute = .next sharedSubstitute :=
  ⟨rfl, rfl⟩
/-- Its last identifier, the boundary of the clause on legal configurations. -/
theorem witness_lookupIsTheLeastMatch_legal :
    CfgLegal ready.params ready.cfg ∧ 2 < ready.cfg.num ∧ ready.cfg.ctl[2]? = some 0x03 ∧
      ready.cfg.esc[2]? = some 0x46 :=
  ⟨witness_cfgA_legal, by decide, rfl, rfl⟩

/-- The round trip's further premises: a receiver with the sender's configuration whose buffer the frame fills. -/
theorem witness_roundTrip :
    (sofState 2).cfg.ctl.length = (sofState 2).params.nCtl ∧ (sofState 2).cfg.esc.length = (sofState 2).params.nCtl ∧
      CfgLegal (sofState 2).params (sofState 2).cfg ∧ (rxAt .sof 2 0).cfg = (sofState 2).cfg ∧
      (rxAt .sof 2 0).rx.state = .sof ∧ (rxAt .sof 2 0).rx.pos = 0 ∧
      [(0x41 : Byte), 0x02].length ≤ (rxAt .sof 2 0).rx.cap ∧
      bufferAt (rxAt .sof 2 0).params (rxAt .sof 2 0).env.mem (rxAt .sof 2 0).rx.buf (rxAt .sof 2 0).rx.cap :=
  ⟨rfl, rfl, witness_cfgA_legal, rfl, rfl, rfl, by decide, by decide⟩
theorem witness_overflowBoundary :
    (rxAt .sof 1 0).cfg.ctl.length = (rxAt .sof 1 0).params.nCtl ∧
      (rxAt .sof 1 0).cfg.esc.length = (rxAt .sof 1 0).params.nCtl ∧ CfgLegal (rxAt .sof 1 0).params (rxAt .sof 1 0).cfg ∧
      (rxAt .sof 1 0).rx.state = .sof ∧ (rxAt .sof 1 0).rx.pos = 0 ∧
      [(0x41 : Byte), 0x02].length = (rxAt .sof 1 0).rx.cap + 1 ∧
      bufferAt (rxAt .sof 1 0).params (rxAt .sof 1 0).env.mem (rxAt .sof 1 0).rx.buf (rxAt .sof 1 0).rx.cap :=
  ⟨rfl, rfl, witness_cfgA_legal, rfl, rfl, rfl, by decide⟩

/-! ### The fairness premises can be met -/

theorem witness_declining_inv : ChanInv declining := by
  refine ⟨⟨?_, ?_, ?_, ?_, ?_, ?_, ?_, ?_, ?_, ?_, ?_, ?_, ?_, ?_, ?_⟩,
    ⟨?_, ?_, ?_, ?_, ?_, ?_, ?_, ?_, ?_⟩, by unfold ContsOblige; decide⟩ <;>
    first | decide | (unfold memInSpace; decide)

/-- A finished frame and an idle receiver stay so, and touch no memory. -/
theorem witness_quiet_stays {s : State} (ht : s.tx.state = .finished) (hr : s.rx.state = .idle)
    (hp : RxWritable s) : BuffersStayPlaced s := by
  intro n
  induction n generalizing s with
  | zero =>
    intro t h
    simp only [stepRun, Host.Outcome.next.injEq] at h
    subst h
    exact ⟨witness_readable_of (by simp [txReads, contAsked, ht]), hp⟩
  | succ n ih =>
    intro t h
    have : exec .step s = .next (respond .ok s) := by
      simp [exec, execStep, txHalf, rxHalf, txReady, ht, hr]
    rw [stepRun, this] at h
    exact ih (s := respond .ok s) ht hr hp t h

theorem witness_frameEndsOnceTheContinuationDeclines :
    ChanInv declining ∧ Configured declining ∧ BuffersStayPlaced declining ∧ declining.tx.state = .data ∧
      declining.params.hasCont = true ∧ ContinuationDeclines declining := by
  refine ⟨witness_declining_inv, by unfold Configured; decide, ?_, rfl, rfl, by unfold ContinuationDeclines; decide⟩
  intro n t h
  cases n with
  | zero =>
    simp only [stepRun, Host.Outcome.next.injEq] at h
    subst h
    exact ⟨witness_readable_of rfl, fun h => absurd h (by decide)⟩
  | succ n => exact witness_quiet_stays (s := _) rfl rfl (fun h => absurd h (by decide)) n t h

/-- A frame whose last byte, its EOF, is still to be sent, beside a receiver in ERROR to which `ctl[EOF]` comes. -/
def lastSent : State :=
  { txAt .data 5 2 with
    rx := (rxAt .error 4 4).rx
    env.mem := buffers
    env.readAnswers := [some 0x03]
    env.writeAnswers := [true] }

theorem witness_lastSent_inv : ChanInv lastSent := by
  refine witness_inv_of ⟨?_, ?_, ?_, ?_, ?_, ?_, ?_, ?_, ?_, ?_, ?_, ?_, ?_, ?_, ?_⟩
    ⟨?_, ?_, ?_, ?_, ?_, ?_, ?_, ?_, ?_⟩ rfl <;> first | decide | (unfold memInSpace; decide)

theorem witness_receptionEndsOnceTheTransportBringsEof_inFlight :
    ChanInv lastSent ∧ Configured lastSent ∧ BuffersStayPlaced lastSent ∧ TxInFlight lastSent ∧
      lastSent.params.hasCont = false ∧ TransportBrings 0x03 lastSent ∧ lastSent.rx.state = .error ∧
      lastSent.cfg.ctl[2]? = some 0x03 := by
  refine ⟨witness_lastSent_inv, by unfold Configured; decide, ?_, .inr (.inl rfl), rfl,
    by unfold TransportBrings; decide, rfl, rfl⟩
  intro n t h
  cases n with
  | zero =>
    simp only [stepRun, Host.Outcome.next.injEq] at h
    subst h
    exact ⟨witness_readable_of rfl, fun h => absurd h (by decide)⟩
  | succ n => exact witness_quiet_stays (s := _) rfl rfl (fun _ => by decide) n t h

/-- ERROR with `ctl[EOF]` to come, and an armed receiver to which a frame comes with a failed read inside it. -/
theorem witness_receptionEndsOnceTheTransportBringsEof :
    (∃ s : State, s.tx.state = .idle ∧ s.rx.state = .error ∧ s.cfg.ctl[2]? = some 0x03 ∧ TransportBrings 0x03 s) ∧
    ∃ s : State, s.tx.state = .idle ∧ s.rx.state = .sof ∧ s.rx.pos = 0 ∧ s.cfg.ctl.length = s.params.nCtl ∧
      s.cfg.esc.length = s.params.nCtl ∧ CfgLegal s.params s.cfg ∧ [(0x02 : Byte)].length ≤ s.rx.cap ∧
      bufferAt s.params s.env.mem s.rx.buf s.rx.cap ∧ bytesBrought s = frameOf s.cfg [0x02] :=
  ⟨⟨{ rxAt .error 4 4 with env.readAnswers := [some 0x41, none, some 0x03] }, rfl, rfl, rfl,
      by unfold TransportBrings; decide⟩,
    ⟨{ rxAt .sof 4 0 with env.readAnswers := [some 0x02, some 0x1B, none, some 0x53, some 0x03] }, rfl, rfl, rfl, rfl,
      rfl, witness_cfgA_legal, by decide, by decide, rfl⟩⟩

end Sys2Proof.Tests
end

section
/-! PROOFS. The step on the command port. -/
namespace Sys2Proof.Machine

/-- With a command as the oldest input, the step takes it off the list and runs its word (R8). -/
theorem step_of_command {s : State} {w : Nat} {rest : List Input} (h : s.env.inputs = .command w :: rest) :
    step s = runCommand w { s with env.inputs := rest } := by
  simp only [step, nextInput, h]

theorem runCommand_of_decode_ok {s : State} {w : Nat} {i : Instr} (h : decode s.params w = .ok i) :
    runCommand w s = exec i s := by
  simp only [runCommand, h]

theorem runCommand_of_decode_excessBits {s : State} {w : Nat} (h : decode s.params w = .error .excessBits) :
    runCommand w s = .refused .excessCommandBits := by
  simp only [runCommand, h]

/-- Settles O4: taking the input off leaves the parameters that `decode` reads, so the word decodes alike before and
after; the guarded step is the two cases of legality. -/
theorem stepRunsTheDecodedCommand : Obligations.StepRunsTheDecodedCommand := by
  intro s
  refine ⟨fun w rest hin => ⟨fun i hok => ?_, fun hexcess => ?_⟩, stepUnderLegalCfg_refused, stepUnderLegalCfg_eq_step⟩
  · exact (step_of_command hin).trans (runCommand_of_decode_ok hok)
  · exact (step_of_command hin).trans (runCommand_of_decode_excessBits hexcess)

end Sys2Proof.Machine
end

section
/-! PROOFS. One inversion lemma for every operation: what it can do to the state, whatever the instruction. -/
namespace Sys2Proof.Machine

/-- What an operation that answers can do to the state, with the guard it passed (R98, R120, R121, R140, R150, R170,
R184, R210); TXBYTE, RXBYTE and the halves of STEP keep their own inversion lemmas. -/
inductive Effect : Instr → State → State → Prop where
  /-- a report, a reserved opcode, a refused command, a clear with nothing to clear: the response alone -/
  | answers {i : Instr} {s : State} (st : Status) : Effect i s (respond st s)
  | configures {ctl esc : List Byte} {num : Nat} {s : State} :
    Effect (.configure ctl esc num) s (respond .ok { s with
      cfg := { ctl := ctl, esc := esc, num := num }
      rx.state := .idle, tx.state := .config, bound := false, rxLast := .ok, written.cfg := true })
  | binds {h : Nat} {s : State} (allowed : bindAllowed s.tx.state = true) :
    Effect (.bind h) s (respond .ok { s with handle := h, bound := true, tx.state := .idle, written.handle := true })
  | submits {n : Bool} {data len : Nat} {s : State} (allowed : submitAllowed s.tx.state = true)
    (operand : pduAccepted n data len = true) (bound : s.bound = true) :
    Effect (.submit n data len) s (respond .ok { s with
      tx.data := data, tx.len := len, tx.pos := 0, tx.state := .sof, written.tx := true })
  | supplies {n : Bool} {data cap : Nat} {s : State} (allowed : supplyAllowed s.rx.state = true)
    (operand : pduAccepted n data cap = true) (bound : s.bound = true) :
    Effect (.supply n data cap) s (respond .ok { s with
      rx.buf := data, rx.cap := cap, rx.pos := 0, rx.state := .sof, written.rx := true })
  | clearsTx {s : State} (finished : s.tx.state = .finished) :
    Effect .clrtx s (respond .ok { s with tx.state := .idle })
  | clearsRx {s : State} (finished : s.rx.state = .finished) :
    Effect .clrrx s (respond .ok { s with rx.state := .idle })
  | steps {s u w : State} (transmit : txHalf s = .next u) (receive : rxHalf u = .next w) :
    Effect .step s (respond .ok w)
  | sends {s u : State} {st : Status} {o : Option Byte} (sent : txByte s = .next (u, st, o)) :
    Effect .txbyte s (respondByte st o u)
  | receives {b : Byte} {s u : State} {st : Status} (received : rxByte b s = .next (u, st)) :
    Effect (.rxbyte b) s (respond st u)

/-- A guarded command answers what its guard selects. -/
theorem ite_next_cases {c : Prop} [Decidable c] {u v t : State}
    (h : (if c then .next u else .next v : Res State) = .next t) : (c ∧ t = u) ∨ (¬ c ∧ t = v) := by
  by_cases hc : c <;> simp only [hc, if_true, if_false, Host.Outcome.next.injEq] at h
  · exact .inl ⟨hc, h.symm⟩
  · exact .inr ⟨hc, h.symm⟩

/-- Every operation that answers has one of the effects. -/
theorem exec_effect {i : Instr} {s t : State} (h : exec i s = .next t) : Effect i s t := by
  cases i with
  | configure ctl esc num => cases h; exact .configures
  | bind hd =>
    obtain ⟨ha, rfl⟩ | ⟨-, rfl⟩ := ite_next_cases h
    · exact .binds ha
    · exact .answers _
  | submit n d l =>
    obtain ⟨hg, rfl⟩ | ⟨-, rfl⟩ := ite_next_cases h
    · simp only [Bool.and_eq_true] at hg
      obtain ⟨ha, ho, hb⟩ := hg
      exact .submits ha ho hb
    · exact .answers _
  | supply n d c =>
    obtain ⟨hg, rfl⟩ | ⟨-, rfl⟩ := ite_next_cases h
    · simp only [Bool.and_eq_true] at hg
      obtain ⟨ha, ho, hb⟩ := hg
      exact .supplies ha ho hb
    · exact .answers _
  | gettx => cases h; exact .answers _
  | clrtx =>
    obtain ⟨hf, rfl⟩ | ⟨-, rfl⟩ := ite_next_cases h
    · exact .clearsTx hf
    · exact .answers _
  | getrx => cases h; exact .answers _
  | clrrx =>
    obtain ⟨hf, rfl⟩ | ⟨-, rfl⟩ := ite_next_cases h
    · exact .clearsRx hf
    · exact .answers _
  | step =>
    obtain ⟨u, w, hu, hw, rfl⟩ := execStep_cases h
    exact .steps hu hw
  | reserved0 => cases h; exact .answers _
  | reservedAB x => cases h; exact .answers _
  | reservedCF x => cases h; exact .answers _
  | txbyte =>
    obtain ⟨u, st, o, hu, rfl⟩ := exec_txbyte h
    exact .sends hu
  | rxbyte b =>
    obtain ⟨u, st, hu, rfl⟩ := exec_rxbyte h
    exact .receives hu

end Sys2Proof.Machine
end

section
/-! PROOFS. A decoded command fits the command port (R96). -/
namespace Sys2Proof

/-- What a decoded word stands for fits the port: each operand is cut to its width. -/
theorem decode_wf {P : Params} {w : Nat} {i : Instr} (h : decode P w = .ok i) : i.wf P = true := by
  have hmod : ∀ n k : Nat, n % 2 ^ k < 2 ^ k := fun n k => Nat.mod_lt _ (Nat.two_pow_pos k)
  simp only [decode] at h
  split at h
  case h_2 =>
    obtain ⟨-, rfl⟩ := closed_eq_ok.mp h
    simp [Instr.wf, wfConfigure, takeBytes_length, hmod]
  all_goals
    obtain ⟨-, rfl⟩ := closed_eq_ok.mp h
    simp [Instr.wf, wfPdu, hmod]

end Sys2Proof
end

section
/-! PROOFS. The channel invariant (R34) in four parts, each about the registers it reads and no others, and how the
moves of the two state machines keep their part. -/
namespace Sys2Proof.Machine

/-- The setup's part of the invariant. -/
structure SetupInv (P : Params) (cfg : CfgRegs) (handle : Nat) : Prop where
  params : P.Legal
  ctl    : cfg.ctl.length = P.nCtl
  esc    : cfg.esc.length = P.nCtl
  num    : cfg.num < 2 ^ P.numW
  handle : handle < 2 ^ P.handleW

/-- The environment's part: memory, and the premise of R34 (c) on the answers still to come. -/
structure EnvInv (P : Params) (mem : Memory) (conts : List ContAnswer) : Prop where
  canonical : memWf mem = true
  space     : memInSpace P mem
  conts     : ∀ a ∈ conts, (onPort P a).Obliging

/-- The transmit group's part; `num` bounds the identifier, the two flags say what was written. -/
structure TxInv (P : Params) (num : Nat) (bound : Bool) (tx : TxRegs) (wEscid wTx : Bool) : Prop where
  data       : tx.data < 2 ^ P.addrW
  len        : tx.len < 2 ^ P.lenW
  pos        : tx.pos < 2 ^ P.lenW
  escid      : tx.escid < 2 ^ P.escidW
  boundIff   : bound = true ↔ tx.state ≠ .config
  posLe      : tx.state = .sof ∨ tx.state = .data ∨ tx.state = .esc → tx.pos ≤ tx.len
  notEof     : tx.state ≠ .eof
  escidFound : tx.state = .esc → tx.escid < num ∧ tx.escid < P.nCtl ∧ wEscid = true
  written    : tx.state ≠ .config → tx.state ≠ .idle → wTx = true

/-- The receive group's part. -/
structure RxInv (P : Params) (bound : Bool) (rx : RxRegs) (wRx : Bool) : Prop where
  buf      : rx.buf < 2 ^ P.addrW
  cap      : rx.cap < 2 ^ P.lenW
  pos      : rx.pos < 2 ^ P.lenW
  len      : rx.len < 2 ^ P.lenW
  bound    : rx.state ≠ .idle → bound = true
  posLe    : rx.state ≠ .idle → rx.pos ≤ rx.cap
  finished : rx.state = .finished → rx.len = rx.pos
  written  : rx.state ≠ .idle → wRx = true

/-- The invariant is its four parts. -/
theorem chanInv_iff {s : State} :
    ChanInv s ↔
      SetupInv s.params s.cfg s.handle ∧ EnvInv s.params s.env.mem s.env.contAnswers ∧
      TxInv s.params s.cfg.num s.bound s.tx s.written.escid s.written.tx ∧
      RxInv s.params s.bound s.rx s.written.rx := by
  constructor
  · rintro ⟨hs, hc, hk⟩
    exact ⟨⟨hs.params, hs.ctl, hs.esc, hs.num, hs.handle⟩, ⟨hs.mem, hs.space, hk⟩,
      ⟨hs.txData, hs.txLen, hs.txPos, hs.escid, hc.boundIff, hc.txPosLe, hc.notEof, hc.escidFound, hc.txWritten⟩,
      ⟨hs.rxBuf, hs.rxCap, hs.rxPos, hs.rxLen, hc.rxBound, hc.rxPosLe, hc.rxFinished, hc.rxWritten⟩⟩
  · rintro ⟨hp, he, ht, hr⟩
    exact ⟨⟨hp.params, hp.ctl, hp.esc, hp.num, hp.handle, ht.data, ht.len, ht.pos, ht.escid, hr.buf, hr.cap, hr.pos,
        hr.len, he.canonical, he.space⟩,
      ⟨ht.boundIff, hr.bound, ht.posLe, hr.posLe, hr.finished, ht.notEof, ht.escidFound, ht.written, hr.written⟩,
      he.conts⟩

/-! ### The four parts after reset (R35) -/

theorem setupInv_reset {P : Params} (hP : P.Legal) :
    SetupInv P { ctl := List.replicate P.nCtl 0, esc := List.replicate P.nCtl 0, num := 0 } 0 :=
  ⟨hP, by simp, by simp, Nat.two_pow_pos _, Nat.two_pow_pos _⟩

theorem txInv_reset (P : Params) (num : Nat) (wEscid wTx : Bool) :
    TxInv P num false { state := .config, data := 0, len := 0, pos := 0, escid := 0 } wEscid wTx := by
  constructor <;> simp

theorem rxInv_reset (P : Params) (bound wRx : Bool) :
    RxInv P bound { state := .idle, buf := 0, cap := 0, pos := 0, len := 0 } wRx := by
  constructor <;> simp

/-! ### Memory and the continuation's answers -/

section Env
variable {P : Params} {m : Memory} {l : List ContAnswer}

theorem EnvInv.memPut (h : EnvInv P m l) {a : Nat} (v : Byte) (ha : a < 2 ^ P.addrW) : EnvInv P (memPut m a v) l :=
  ⟨memWf_memPut a v h.canonical, memInSpace_memPut v h.space ha, h.conts⟩

theorem EnvInv.memPutAll (h : EnvInv P m l) {ws : List (Nat × Byte)} (hw : ∀ w ∈ ws, w.1 < 2 ^ P.addrW) :
    EnvInv P (memPutAll m ws) l :=
  ⟨memWf_memPutAll ws h.canonical, memInSpace_memPutAll h.space hw, h.conts⟩

theorem EnvInv.tail (h : EnvInv P m l) : EnvInv P m l.tail :=
  ⟨h.canonical, h.space, fun a ha => h.conts a (List.mem_of_mem_tail ha)⟩

end Env

/-! ### The moves of the transmitter (R141) -/

section Tx
variable {P : Params} {num : Nat} {bound wEscid wTx : Bool} {tx : TxRegs}

/-- CONFIGURE disarms the transmitter, whatever the identifier bound becomes. -/
theorem TxInv.toConfig (h : TxInv P num bound tx wEscid wTx) (num' : Nat) :
    TxInv P num' false { tx with state := .config } wEscid wTx :=
  ⟨h.data, h.len, h.pos, h.escid, by simp, by simp, by simp, by simp, by simp⟩

/-- BIND and CLRTX leave the transmitter idle and bound. -/
theorem TxInv.toIdle (h : TxInv P num bound tx wEscid wTx) :
    TxInv P num true { tx with state := .idle } wEscid wTx :=
  ⟨h.data, h.len, h.pos, h.escid, by simp, by simp, by simp, by simp, by simp⟩

/-- A frame in flight moves to DATA or FINISHED with its position inside the payload. -/
theorem TxInv.goOn (h : TxInv P num bound tx wEscid wTx) (hc : tx.state ≠ .config) (hi : tx.state ≠ .idle)
    {st : TxState} (hst : st = .data ∨ st = .finished) {pos : Nat} (hp : pos ≤ tx.len) :
    TxInv P num bound { tx with state := st, pos := pos } wEscid wTx := by
  have hb : bound = true := h.boundIff.mpr hc
  have hw : wTx = true := h.written hc hi
  obtain rfl | rfl := hst <;>
    exact ⟨h.data, h.len, hp.trans_lt h.len, h.escid, by simp [hb], fun _ => hp, by simp, by simp, fun _ _ => hw⟩

/-- SUBMIT and the continuation load pointer, length and position. -/
theorem TxInv.load (h : TxInv P num bound tx wEscid wTx) (hb : bound = true) {st : TxState}
    (hst : st = .sof ∨ st = .data) {data len pos : Nat} (hd : data < 2 ^ P.addrW) (hl : len < 2 ^ P.lenW)
    (hp : pos ≤ len) :
    TxInv P num bound { state := st, data := data, len := len, pos := pos, escid := tx.escid } wEscid true := by
  obtain rfl | rfl := hst <;>
    exact ⟨hd, hl, hp.trans_lt hl, h.escid, by simp [hb], fun _ => hp, by simp, by simp, fun _ _ => rfl⟩

/-- A table index fits the width of `tx_escid` (R20). -/
theorem lt_two_pow_escidW {i : Nat} (hi : i < P.nCtl) : i < 2 ^ P.escidW :=
  lt_of_le_of_lt (Nat.le_sub_one_of_lt hi) Nat.lt_log2_self

/-- DATA enters ESC with an identifier found in the table. -/
theorem TxInv.escape (h : TxInv P num bound tx wEscid wTx) (hs : tx.state = .data) {i : Nat} (hn : i < num)
    (hi : i < P.nCtl) : TxInv P num bound { tx with escid := i, state := .esc } true wTx := by
  have hb : bound = true := h.boundIff.mpr (by simp [hs])
  have hw : wTx = true := h.written (by simp [hs]) (by simp [hs])
  exact ⟨h.data, h.len, h.pos, lt_two_pow_escidW hi, by simp [hb], fun _ => h.posLe (.inr (.inl hs)), by simp,
    fun _ => ⟨hn, hi, rfl⟩, fun _ _ => hw⟩

end Tx

/-! ### The moves of the receiver (R181) -/

section Rx
variable {P : Params} {bound wRx : Bool} {rx : RxRegs}

/-- An idle receiver owes no more than its widths. -/
theorem RxInv.toIdle (h : RxInv P bound rx wRx) (bound' : Bool) {pos : Nat} (hp : pos < 2 ^ P.lenW) :
    RxInv P bound' { rx with state := .idle, pos := pos } wRx :=
  ⟨h.buf, h.cap, hp, h.len, by simp, by simp, by simp, by simp⟩

/-- SUPPLY arms the receiver. -/
theorem RxInv.arm (h : RxInv P bound rx wRx) (hb : bound = true) {buf cap : Nat} (hd : buf < 2 ^ P.addrW)
    (hc : cap < 2 ^ P.lenW) :
    RxInv P bound { state := .sof, buf := buf, cap := cap, pos := 0, len := rx.len } true :=
  ⟨hd, hc, Nat.two_pow_pos _, h.len, fun _ => hb, fun _ => Nat.zero_le _, by simp, fun _ => rfl⟩

/-- An armed receiver moves on, short of FINISHED, with its position inside the buffer. -/
theorem RxInv.goOn (h : RxInv P bound rx wRx) (hi : rx.state ≠ .idle) {st : RxState} (hf : st ≠ .finished)
    {pos : Nat} (hp : pos ≤ rx.cap) : RxInv P bound { rx with state := st, pos := pos } wRx :=
  ⟨h.buf, h.cap, hp.trans_lt h.cap, h.len, fun _ => h.bound hi, fun _ => hp, fun he => absurd he hf,
    fun _ => h.written hi⟩

/-- EOF finishes a frame at the current position. -/
theorem RxInv.finish (h : RxInv P bound rx wRx) (hi : rx.state ≠ .idle) :
    RxInv P bound { rx with len := rx.pos, state := .finished } wRx :=
  ⟨h.buf, h.cap, h.pos, h.pos, fun _ => h.bound hi, fun _ => h.posLe hi, fun _ => rfl, fun _ => h.written hi⟩

end Rx

end Sys2Proof.Machine
end

section
/-! PROOFS. What the continuation may answer (R145), and that every part of an operation keeps the channel invariant. -/
namespace Sys2Proof.Machine

/-! ### The continuation's answers -/

/-- An answer in the widths of the port's lines. -/
structure AnswerFits (P : Params) (a : ContAnswer) : Prop where
  data   : a.data < 2 ^ P.addrW
  len    : a.len < 2 ^ P.lenW
  pos    : a.pos < 2 ^ P.lenW
  writes : ∀ w ∈ a.writes, w.1 < 2 ^ P.addrW

/-- Addresses cut to the port's width are inside the space. -/
theorem lt_of_mem_cut {P : Params} {ws : List (Nat × Byte)} :
    ∀ w ∈ ws.map fun w => (w.1 % 2 ^ P.addrW, w.2), w.1 < 2 ^ P.addrW := by
  intro w hw
  obtain ⟨v, -, rfl⟩ := List.mem_map.mp hw
  exact Nat.mod_lt _ (Nat.two_pow_pos _)

theorem onPort_fits (P : Params) (a : ContAnswer) : AnswerFits P (onPort P a) :=
  ⟨Nat.mod_lt _ (Nat.two_pow_pos _), Nat.mod_lt _ (Nat.two_pow_pos _), Nat.mod_lt _ (Nat.two_pow_pos _), lt_of_mem_cut⟩

theorem obliging_fits {P : Params} (hP : P.Legal) (a : ContAnswer) : AnswerFits P (obliging P a) := by
  have hlen : a.len % 2 ^ P.lenW < 2 ^ P.lenW := Nat.mod_lt _ (Nat.two_pow_pos _)
  refine ⟨?_, hlen, lt_of_le_of_lt (Nat.le_of_lt_succ (Nat.mod_lt _ (Nat.succ_pos _))) hlen, lt_of_mem_cut⟩
  obtain ⟨-, -, hAddr⟩ := hP
  simp only [obliging]
  split
  · exact Nat.one_lt_two_pow (by omega)
  · exact Nat.mod_lt _ (Nat.two_pow_pos _)

theorem obliging_obliging (P : Params) (a : ContAnswer) : (obliging P a).Obliging := by
  intro _
  refine ⟨?_, Nat.le_of_lt_succ (Nat.mod_lt _ (Nat.succ_pos _))⟩
  simp only [obliging]
  split
  · exact one_ne_zero
  · assumption

/-- Scripted or free, the next answer fits the port. -/
theorem contRequest_fits {s : State} (hP : s.params.Legal) : AnswerFits s.params (contRequest s).1 := by
  simp only [contRequest, drawCont]
  split
  · exact onPort_fits _ _
  · exact obliging_fits hP _

/-- Scripted or free, the next answer keeps its obligations when the scripted ones do. -/
theorem contRequest_obliging {s : State} (hk : ContsOblige s) : (contRequest s).1.Obliging := by
  simp only [contRequest, drawCont]
  split
  · rename_i a rest ha
    exact hk a (by simp [ha])
  · exact obliging_obliging _ _

theorem contRequest_env_mem (s : State) : (contRequest s).2.env.mem = memPutAll s.env.mem (contRequest s).1.writes := by
  simp [contRequest]

/-- A request takes one answer off the script, if one is there. -/
theorem contRequest_env_contAnswers (s : State) : (contRequest s).2.env.contAnswers = s.env.contAnswers.tail := by
  simp only [contRequest, drawCont, note_env_contAnswers]
  split <;> simp [*]

theorem contRequest_inv {s : State} (h : ChanInv s) : ChanInv (contRequest s).2 := by
  obtain ⟨hs, he, ht, hr⟩ := chanInv_iff.mp h
  refine chanInv_iff.mpr ⟨by simpa using hs, ?_, by simpa using ht, by simpa using hr⟩
  rw [contRequest_params, contRequest_env_mem, contRequest_env_contAnswers]
  exact (he.memPutAll (contRequest_fits hs.params).writes).tail

/-- In DATA, asking the continuation keeps the invariant: R145 obliges it to a position inside its payload. -/
theorem afterCont_inv {s : State} (h : ChanInv s) (hd : s.tx.state = .data) : ChanInv (afterCont s) := by
  have hc : ChanInv (contRequest s).2 := contRequest_inv h
  unfold afterCont
  split
  · split
    next more =>
      obtain ⟨hs, he, ht, hr⟩ := chanInv_iff.mp hc
      have hf : AnswerFits (contRequest s).2.params (contRequest s).1 := by
        simpa using contRequest_fits h.shape.params
      have hb : (contRequest s).2.bound = true := ht.boundIff.mpr (by simp [hd])
      have hl := ht.load hb (.inr rfl) hf.data hf.len (contRequest_obliging h.conts more).2
      exact chanInv_iff.mpr ⟨hs, he, by simpa [hd] using hl, hr⟩
    · exact hc
  · exact h

/-- A continuation that supplied a byte left the position short of the length. -/
theorem afterCont_pos_lt {s : State} (h : contSupplied s = true) : (afterCont s).tx.pos < (afterCont s).tx.len := by
  simp only [contSupplied, Bool.and_eq_true, decide_eq_true_eq] at h
  obtain ⟨attached, more, hp⟩ := h
  simpa [afterCont, attached, more] using hp

/-! ### Updates outside the invariant's registers -/

section Outside
variable {s : State}

theorem respond_inv (h : ChanInv s) (st : Status) : ChanInv (respond st s) :=
  chanInv_iff.mpr ((chanInv_iff (s := s)).mp h)

theorem respondByte_inv (h : ChanInv s) (st : Status) (o : Option Byte) : ChanInv (respondByte st o s) :=
  chanInv_iff.mpr ((chanInv_iff (s := s)).mp h)

theorem rxLast_inv (h : ChanInv s) (st : Status) : ChanInv { s with rxLast := st } :=
  chanInv_iff.mpr ((chanInv_iff (s := s)).mp h)

theorem inputs_inv (h : ChanInv s) (rest : List Input) : ChanInv { s with env.inputs := rest } :=
  chanInv_iff.mpr ((chanInv_iff (s := s)).mp h)

theorem tpWrite_inv (h : ChanInv s) (b : Byte) : ChanInv (tpWrite b s) :=
  chanInv_iff.mpr (by simpa using (chanInv_iff (s := s)).mp h)

theorem tpRead_inv (h : ChanInv s) : ChanInv (tpRead s).2 :=
  chanInv_iff.mpr (by simpa using (chanInv_iff (s := s)).mp h)

end Outside

/-! ### TXBYTE and the transmit half -/

/-- A frame in flight moves to DATA or FINISHED. -/
theorem txGoOn_inv {s : State} (h : ChanInv s) (hc : s.tx.state ≠ .config) (hi : s.tx.state ≠ .idle) {st : TxState}
    (hst : st = .data ∨ st = .finished) {pos : Nat} (hp : pos ≤ s.tx.len) :
    ChanInv { s with tx.state := st, tx.pos := pos } := by
  obtain ⟨hs, he, ht, hr⟩ := chanInv_iff.mp h
  exact chanInv_iff.mpr ⟨hs, he, ht.goOn hc hi hst hp, hr⟩

theorem escaping_inv {s : State} (h : ChanInv s) (hd : s.tx.state = .data) {i : Nat} (hn : i < s.cfg.num)
    (hi : i < s.cfg.ctl.length) : ChanInv (escaping i s) := by
  obtain ⟨hs, he, ht, hr⟩ := chanInv_iff.mp h
  exact chanInv_iff.mpr ⟨hs, he, ht.escape hd hn (hs.ctl ▸ hi), hr⟩

theorem tookByte_inv {s : State} (h : ChanInv s) (hd : s.tx.state = .data) (hp : s.tx.pos < s.tx.len) (v : Byte) :
    ChanInv (tookByte v s) := by
  obtain ⟨hs, he, ht, hr⟩ := chanInv_iff.mp h
  have := ht.goOn (by simp [hd]) (by simp [hd]) (.inl hd) hp
  exact chanInv_iff.mpr ⟨hs, he, this, hr⟩

theorem txTake_inv {s : State} {r : TxResult} (h : ChanInv s) (hd : s.tx.state = .data) (hp : s.tx.pos < s.tx.len)
    (hr : txTake s = .next r) : ChanInv r.1 := by
  obtain ⟨v, -, -, ⟨-, rfl⟩ | ⟨i, e, hl, -, rfl⟩⟩ := txTake_cases hr
  · exact tookByte_inv h hd hp v
  · obtain ⟨hl, -⟩ := lookupCtl_eq_next.mp hl
    obtain ⟨hn, hi⟩ := lookupIn_lt hl
    exact escaping_inv (tookByte_inv h hd hp v) hd hn hi

theorem txEnd_inv {s : State} {r : TxResult} (h : ChanInv s) (hd : s.tx.state = .data) (hr : txEnd s = .next r) :
    ChanInv r.1 := by
  obtain ⟨e, -, rfl⟩ := txEnd_cases hr
  exact txGoOn_inv h (by simp [hd]) (by simp [hd]) (.inr rfl) (h.coherent.txPosLe (.inr (.inl hd)))

/-- TXBYTE keeps the invariant (R141). -/
theorem txByte_inv {s : State} {r : TxResult} (h : ChanInv s) (hr : txByte s = .next r) : ChanInv r.1 := by
  have posLe := h.coherent.txPosLe
  obtain ⟨-, rfl⟩ | ⟨hs, b, -, rfl⟩ | ⟨hs, hp, hr⟩ | ⟨hs, -, hc, hr⟩ | ⟨hs, -, -, hr⟩ | ⟨hs, b, -, rfl⟩ | ⟨hs, -⟩ :=
    txByte_cases hr
  · exact h
  · exact txGoOn_inv h (by simp [hs]) (by simp [hs]) (.inl rfl) (posLe (.inl hs))
  · exact txTake_inv h hs hp hr
  · exact txTake_inv (afterCont_inv h hs) ((afterCont_state s).1.trans hs) (afterCont_pos_lt hc) hr
  · exact txEnd_inv (afterCont_inv h hs) ((afterCont_state s).1.trans hs) hr
  · exact txGoOn_inv h (by simp [hs]) (by simp [hs]) (.inl rfl) (posLe (.inr (.inr hs)))
  · exact absurd hs h.coherent.notEof

theorem txHalf_inv {s t : State} (h : ChanInv s) (ht : txHalf s = .next t) : ChanInv t := by
  obtain ⟨-, rfl⟩ | ⟨-, u, st, b, hu, rfl⟩ := txHalf_cases ht
  · exact h
  · exact tpWrite_inv (txByte_inv h hu) b

/-! ### RXBYTE and the receive half -/

/-- An armed receiver moves on, short of FINISHED. -/
theorem rxGoOn_inv {s : State} (h : ChanInv s) (hi : s.rx.state ≠ .idle) {st : RxState} (hf : st ≠ .finished)
    {pos : Nat} (hp : pos ≤ s.rx.cap) : ChanInv { s with rx.state := st, rx.pos := pos } := by
  obtain ⟨hs, he, ht, hr⟩ := chanInv_iff.mp h
  exact chanInv_iff.mpr ⟨hs, he, ht, hr.goOn hi hf hp⟩

/-- RxStore keeps the invariant: the cursor moves at most up to the capacity (R182). -/
theorem rxStore_inv {v : Byte} {s t : State} (h : ChanInv s) (hd : s.rx.state = .data) (ht : rxStore v s = .next t) :
    ChanInv t := by
  have hi : s.rx.state ≠ .idle := by simp [hd]
  obtain ⟨hp, hplaced, rfl⟩ | ⟨-, rfl⟩ := rxStore_cases ht
  · obtain ⟨hs, he, ht, hr⟩ := chanInv_iff.mp h
    have := hr.goOn hi (st := s.rx.state) (by simp [hd]) hp
    exact chanInv_iff.mpr ⟨hs, he.memPut v hplaced.1, ht, this⟩
  · exact rxGoOn_inv h hi (by simp) (h.coherent.rxPosLe hi)

theorem rxData_inv {b : Byte} {s : State} {r : RxResult} (h : ChanInv s) (hd : s.rx.state = .data)
    (hr : rxData b s = .next r) : ChanInv r.1 := by
  have hi : s.rx.state ≠ .idle := by simp [hd]
  obtain ⟨_, -, ⟨-, rfl⟩ | ⟨-, _, -, ⟨-, rfl⟩ | ⟨-, _, -, ⟨-, rfl⟩ | ⟨-, t, ht, rfl⟩⟩⟩⟩ := rxData_cases hr
  · exact rxGoOn_inv h hi (st := s.rx.state) (by simp [hd]) (Nat.zero_le _)
  · exact rxGoOn_inv h hi (by simp) (h.coherent.rxPosLe hi)
  · obtain ⟨hs, he, ht, hr⟩ := chanInv_iff.mp h
    exact chanInv_iff.mpr ⟨hs, he, ht, hr.finish hi⟩
  · exact rxStore_inv h hd ht

theorem leaveError_inv {s : State} (h : ChanInv s) : ChanInv (leaveError s) := by
  obtain ⟨hs, he, ht, hr⟩ := chanInv_iff.mp h
  exact chanInv_iff.mpr ⟨hs, he, ht, hr.toIdle _ (Nat.two_pow_pos _)⟩

/-- RXBYTE keeps the invariant (R171). -/
theorem rxByte_inv {b : Byte} {s : State} {r : RxResult} (h : ChanInv s) (hr : rxByte b s = .next r) : ChanInv r.1 := by
  obtain ⟨-, rfl⟩ | ⟨-, rfl⟩ | ⟨hs, c, -, ⟨-, rfl⟩ | ⟨-, rfl⟩⟩ | ⟨hs, hr⟩ | ⟨hs, hr⟩ | ⟨-, c, -, ⟨-, rfl⟩ | ⟨-, rfl⟩⟩ :=
    rxByte_cases hr
  · exact h
  · exact h
  · exact rxGoOn_inv h (by simp [hs]) (by simp) (Nat.zero_le _)
  · exact h
  · exact rxData_inv h hs hr
  · obtain ⟨v, t, -, ht, rfl⟩ := rxEsc_cases hr
    have hi : s.rx.state ≠ .idle := by simp [hs]
    have hdata := rxGoOn_inv h hi (st := .data) (by simp) (h.coherent.rxPosLe hi)
    exact rxStore_inv hdata rfl ht
  · exact leaveError_inv h
  · exact h

theorem rxHalf_inv {s t : State} (h : ChanInv s) (ht : rxHalf s = .next t) : ChanInv t := by
  obtain ⟨-, rfl⟩ | ⟨-, -, rfl⟩ | ⟨-, b, u, st, -, hu, rfl⟩ := rxHalf_cases ht
  · exact h
  · exact tpRead_inv h
  · exact rxLast_inv (rxByte_inv (tpRead_inv h) hu) st

/-! ### The operations, the host and reset -/

/-- Every operation with operands that fit the port keeps the invariant (R34). -/
theorem exec_inv {i : Instr} {s t : State} (h : ChanInv s) (hwf : i.wf s.params = true) (ht : exec i s = .next t) :
    ChanInv t := by
  obtain ⟨hs, he, htx, hrx⟩ := chanInv_iff.mp h
  cases exec_effect ht with
  | answers st => exact respond_inv h st
  | @configures ctl esc num =>
    simp only [Instr.wf, wfConfigure, Bool.and_eq_true, beq_iff_eq, decide_eq_true_eq] at hwf
    obtain ⟨⟨hctl, hesc⟩, hnum⟩ := hwf
    exact chanInv_iff.mpr
      ⟨⟨hs.params, hctl, hesc, hnum, hs.handle⟩, he, htx.toConfig num, hrx.toIdle false hrx.pos⟩
  | binds _ =>
    have hh := of_decide_eq_true hwf
    have hr : RxInv s.params true s.rx s.written.rx := { hrx with bound := fun _ => rfl }
    exact chanInv_iff.mpr ⟨{ hs with handle := hh }, he, htx.toIdle, hr⟩
  | submits _ _ hb =>
    simp only [Instr.wf, wfPdu, Bool.and_eq_true, decide_eq_true_eq] at hwf
    exact chanInv_iff.mpr ⟨hs, he, htx.load hb (.inl rfl) hwf.1 hwf.2 (Nat.zero_le _), hrx⟩
  | supplies _ _ hb =>
    simp only [Instr.wf, wfPdu, Bool.and_eq_true, decide_eq_true_eq] at hwf
    exact chanInv_iff.mpr ⟨hs, he, htx, hrx.arm hb hwf.1 hwf.2⟩
  | clearsTx hf =>
    have hb : s.bound = true := htx.boundIff.mpr (by simp [hf])
    exact chanInv_iff.mpr ⟨hs, he, by simpa [hb] using htx.toIdle, hrx⟩
  | clearsRx _ => exact chanInv_iff.mpr ⟨hs, he, htx, hrx.toIdle _ hrx.pos⟩
  | steps hu hw => exact respond_inv (rxHalf_inv (txHalf_inv h hu) hw) _
  | sends hu => exact respondByte_inv (txByte_inv h hu) _ _
  | receives hu => exact respond_inv (rxByte_inv h hu) _

theorem hwReset_inv {s : State} (h : ChanInv s) : ChanInv (hwReset s) := by
  obtain ⟨hs, he, -, -⟩ := chanInv_iff.mp h
  exact chanInv_iff.mpr ⟨setupInv_reset hs.params, he, txInv_reset _ _ _ _, rxInv_reset _ _ _⟩

theorem hostWrite_inv {s : State} (h : ChanInv s) (a : Nat) (v : Byte) : ChanInv (hostWrite a v s) := by
  obtain ⟨hs, he, ht, hr⟩ := chanInv_iff.mp h
  exact chanInv_iff.mpr ⟨hs, he.memPut v (Nat.mod_lt _ (Nat.two_pow_pos _)), ht, hr⟩

/-- Settles O53: by the oldest input; a decoded command fits the port, and every part of every operation keeps the four
parts of the invariant. -/
theorem everyStepKeepsTheInvariant : Obligations.EveryStepKeepsTheInvariant := by
  intro s t h hstep
  obtain ⟨-, rfl⟩ | ⟨rest, ⟨w, i, -, hi, ht⟩ | ⟨-, rfl⟩ | ⟨a, v, -, rfl⟩⟩ := step_cases hstep
  · exact h
  · exact exec_inv (inputs_inv h rest) (decode_wf hi) ht
  · exact hwReset_inv (inputs_inv h rest)
  · exact hostWrite_inv (inputs_inv h rest) a v

/-- Settles O52: the reset values of the four parts. -/
theorem invariantAtReset : Obligations.InvariantAtReset :=
  chanInv_iff.mpr ⟨setupInv_reset (by decide), ⟨rfl, by simp [memInSpace, State.reset], by simp [State.reset]⟩,
    txInv_reset _ _ _ _, rxInv_reset _ _ _⟩

end Sys2Proof.Machine
end

section
/-! PROOFS. The registers after TXBYTE, RXBYTE and the halves of STEP: which may differ, and from where to where. -/
namespace Sys2Proof.Machine

/-! ### The transmitter -/

theorem txEof_cases {s : State} {r : TxResult} (h : txEof s = .next r) :
    ∃ e, readCtl idEOF s = .next e ∧ r = ({ s with tx.state := .finished }, .ok, some e) := by
  obtain ⟨e, he, h⟩ := andThen_eq_next.mp h
  simp only [Host.Outcome.next.injEq] at h
  exact ⟨e, he, h.symm⟩

/-- A row of the transmit table (R141) that leads from `s` to another state, with registers `tx` after it. -/
def TxRow (s : State) (tx : TxRegs) : Prop :=
  (s.tx.state = .sof ∧ tx.state = .data) ∨
  (s.tx.state = .data ∧ tx.state = .esc ∧ tx.escid < s.cfg.num) ∨
  (s.tx.state = .data ∧ s.tx.len ≤ s.tx.pos ∧ tx.state = .finished) ∨
  (s.tx.state = .esc ∧ tx.state = .data) ∨
  (s.tx.state = .eof ∧ tx.state = .finished)

/-- Taking a byte in DATA keeps state and identifier, or enters ESC with an identifier below `num`. -/
theorem txTake_row {s u : State} {r : TxResult} (hd : s.tx.state = .data) (hu : u.tx.state = s.tx.state)
    (hi : u.tx.escid = s.tx.escid) (hc : u.cfg = s.cfg) (h : txTake u = .next r) :
    (r.1.tx.state = s.tx.state ∧ r.1.tx.escid = s.tx.escid) ∨ (r.1.tx.state = .esc ∧ TxRow s r.1.tx) := by
  obtain ⟨-, -, -, -, ⟨hs, he⟩ | ⟨hs, hn, -, -⟩, -⟩ := txTake_facts h
  · exact .inl ⟨hs.trans hu, he.trans hi⟩
  · exact .inr ⟨hs, .inr (.inl ⟨hd, hs, hc ▸ hn⟩)⟩

/-- TXBYTE keeps `tx_state` or follows a row of R141, and keeps `tx_escid` unless the row enters ESC (R26). -/
theorem txByte_row {s : State} {r : TxResult} (h : txByte s = .next r) :
    (r.1.tx.state = s.tx.state ∧ r.1.tx.escid = s.tx.escid) ∨ (r.1.tx.state = .esc ∧ TxRow s r.1.tx) ∨
      (r.1.tx.escid = s.tx.escid ∧ TxRow s r.1.tx) := by
  obtain ⟨hstate, hescid⟩ := afterCont_state s
  obtain ⟨-, rfl⟩ | ⟨hs, b, -, rfl⟩ | ⟨hs, -, h⟩ | ⟨hs, -, -, h⟩ | ⟨hs, hp, -, h⟩ | ⟨hs, b, -, rfl⟩ | ⟨hs, h⟩ :=
    txByte_cases h
  · exact .inl ⟨rfl, rfl⟩
  · exact .inr (.inr ⟨rfl, .inl ⟨hs, rfl⟩⟩)
  · exact (txTake_row hs rfl rfl rfl h).imp_right .inl
  · exact (txTake_row hs hstate hescid (afterCont_keeps s).cfg h).imp_right .inl
  · obtain ⟨e, -, rfl⟩ := txEnd_cases h
    exact .inr (.inr ⟨hescid, .inr (.inr (.inl ⟨hs, Nat.le_of_not_lt hp, rfl⟩))⟩)
  · exact .inr (.inr ⟨rfl, .inr (.inr (.inr (.inl ⟨hs, rfl⟩)))⟩)
  · obtain ⟨e, -, rfl⟩ := txEof_cases h
    exact .inr (.inr ⟨rfl, .inr (.inr (.inr (.inr ⟨hs, rfl⟩)))⟩)

theorem txByte_row_of_ne {s : State} {r : TxResult} (h : txByte s = .next r) (hne : r.1.tx.state ≠ s.tx.state) :
    TxRow s r.1.tx := by
  obtain ⟨hs, -⟩ | ⟨-, hr⟩ | ⟨-, hr⟩ := txByte_row h
  · exact absurd hs hne
  · exact hr
  · exact hr

theorem txByte_escid_of_ne {s : State} {r : TxResult} (h : txByte s = .next r) (hne : r.1.tx.state ≠ .esc) :
    r.1.tx.escid = s.tx.escid := by
  obtain ⟨-, he⟩ | ⟨hs, -⟩ | ⟨he, -⟩ := txByte_row h
  · exact he
  · exact absurd hs hne
  · exact he

/-- The transmit half moves `tx_state` along a row of R141. -/
theorem txHalf_row_of_ne {s t : State} (h : txHalf s = .next t) (hne : t.tx.state ≠ s.tx.state) : TxRow s t.tx := by
  obtain ⟨-, rfl⟩ | ⟨-, u, st, b, hu, rfl⟩ := txHalf_cases h
  · exact absurd rfl hne
  · rw [tpWrite_tx] at hne ⊢
    exact txByte_row_of_ne hu hne

/-- Pointer and length, and the continuation's script, move only when the continuation is asked (R25, R146). -/
theorem txByte_of_not_asked {s : State} {r : TxResult} (h : txByte s = .next r) (hask : contAsked s = false) :
    r.1.tx.data = s.tx.data ∧ r.1.tx.len = s.tx.len ∧ r.1.env.contAnswers = s.env.contAnswers := by
  have hoff : s.tx.state = .data → ¬ s.tx.pos < s.tx.len → afterCont s = s := fun hs hp =>
    afterCont_off (by simpa [contAsked, hs, hp] using hask)
  have htake : txTake s = .next r →
      r.1.tx.data = s.tx.data ∧ r.1.tx.len = s.tx.len ∧ r.1.env.contAnswers = s.env.contAnswers := fun h => by
    obtain ⟨hdata, hlen, -, hconts, -⟩ := txTake_facts h
    exact ⟨hdata, hlen, hconts⟩
  obtain ⟨-, rfl⟩ | ⟨-, b, -, rfl⟩ | ⟨-, -, h⟩ | ⟨hs, hp, -, h⟩ | ⟨hs, hp, -, h⟩ | ⟨-, b, -, rfl⟩ | ⟨-, h⟩ :=
    txByte_cases h
  · exact ⟨rfl, rfl, rfl⟩
  · exact ⟨rfl, rfl, rfl⟩
  · exact htake h
  · exact htake (hoff hs hp ▸ h)
  · rw [hoff hs hp] at h
    obtain ⟨e, -, rfl⟩ := txEnd_cases h
    exact ⟨rfl, rfl, rfl⟩
  · exact ⟨rfl, rfl, rfl⟩
  · obtain ⟨e, -, rfl⟩ := txEof_cases h
    exact ⟨rfl, rfl, rfl⟩

/-! ### The receiver -/

/-- RXBYTE returns BYTE_RECEIVED or FRAME_FINISHED (R171). -/
theorem rxByte_status {b : Byte} {s : State} {r : RxResult} (h : rxByte b s = .next r) :
    r.2 = .byteReceived ∨ r.2 = .frameFinished := by
  obtain ⟨-, rfl⟩ | ⟨-, rfl⟩ | ⟨-, c, -, ⟨-, rfl⟩ | ⟨-, rfl⟩⟩ | ⟨-, h⟩ | ⟨-, h⟩ | ⟨-, c, -, ⟨-, rfl⟩ | ⟨-, rfl⟩⟩ :=
    rxByte_cases h
  · exact .inl rfl
  · exact .inr rfl
  · exact .inl rfl
  · exact .inl rfl
  · obtain ⟨_, -, ⟨-, rfl⟩ | ⟨-, _, -, ⟨-, rfl⟩ | ⟨-, _, -, ⟨-, rfl⟩ | ⟨-, t, -, rfl⟩⟩⟩⟩ := rxData_cases h
    · exact .inl rfl
    · exact .inl rfl
    · exact .inr rfl
    · exact .inl rfl
  · obtain ⟨v, t, -, -, rfl⟩ := rxEsc_cases h
    exact .inl rfl
  · exact .inr rfl
  · exact .inl rfl

/-- `rx_len` after the receive half: as before, or the position when EOF came in DATA (R176, R212). -/
theorem rxHalf_len {s t : State} (h : rxHalf s = .next t) :
    t.rx.len = s.rx.len ∨ (s.rx.state = .data ∧ t.rx.state = .finished ∧ t.rx.len = s.rx.pos) := by
  obtain ⟨-, rfl⟩ | ⟨-, -, rfl⟩ | ⟨-, b, u, st, -, hu, rfl⟩ := rxHalf_cases h
  · exact .inl rfl
  · exact .inl (by simp)
  · simpa using rxByte_len hu

@[simp] theorem tpRead_env_trace (s : State) :
    (tpRead s).2.env.trace = s.env.trace ++ [.tpRead s.handle (tpRead s).1] := by
  simp [tpRead]

/-- The receive half records a status only after a successful read from `tp_handle` (R212). -/
theorem rxHalf_rxLast {s t : State} (h : rxHalf s = .next t) (hne : t.rxLast ≠ s.rxLast) :
    (∃ b l, t.env.trace = s.env.trace ++ .tpRead s.handle (some b) :: l) ∧
      (t.rxLast = .byteReceived ∨ t.rxLast = .frameFinished) := by
  obtain ⟨-, rfl⟩ | ⟨-, -, rfl⟩ | ⟨-, b, u, st, hb, hu, rfl⟩ := rxHalf_cases h
  · exact absurd rfl hne
  · exact absurd (tpRead_rxLast s) hne
  · obtain ⟨m, -, htrace⟩ := rxByte_trace hu
    exact ⟨⟨b, m, by simpa [hb] using htrace⟩, rxByte_status hu⟩

/-- The requests between two states whose records differ by an extension. -/
theorem newEvents_of_trace {s t : State} {l : List Event} (h : t.env.trace = s.env.trace ++ l) : newEvents s t = l := by
  simp [newEvents, h]

/-! ### STEP -/

theorem StepKeeps.trans {s t u : State} (h : StepKeeps s t) (k : StepKeeps t u) : StepKeeps s u :=
  ⟨k.params.trans h.params, k.cfg.trans h.cfg, k.bound.trans h.bound, k.handle.trans h.handle, k.inputs.trans h.inputs,
    k.wCfg.trans h.wCfg⟩

/-- What the two halves of STEP together leave alone. -/
theorem halves_keep {s u w : State} (hu : txHalf s = .next u) (hw : rxHalf u = .next w) : StepKeeps s w :=
  (txHalf_keeps hu).1.trans (rxHalf_keeps hw).1

end Sys2Proof.Machine
end

section
/-! PROOFS. Frames and writers: which operation changes which registers (R20, R23 to R31). -/
namespace Sys2Proof.Machine

/-- Settles O38: by what each operation can do; TXBYTE, RXBYTE and the halves of STEP keep the setup. -/
theorem configurationAndBindingWriters : Obligations.ConfigurationAndBindingWriters := by
  intro i s t h
  cases exec_effect h with
  | answers => exact ⟨rfl, fun _ => rfl, fun _ _ => rfl, fun _ => rfl⟩
  | configures => exact ⟨rfl, fun hn => absurd rfl (hn _ _ _), fun hn _ => absurd rfl (hn _ _ _), fun _ => rfl⟩
  | binds => exact ⟨rfl, fun _ => rfl, fun _ hn => absurd rfl (hn _), fun hn => absurd rfl (hn _)⟩
  | submits => exact ⟨rfl, fun _ => rfl, fun _ _ => rfl, fun _ => rfl⟩
  | supplies => exact ⟨rfl, fun _ => rfl, fun _ _ => rfl, fun _ => rfl⟩
  | clearsTx => exact ⟨rfl, fun _ => rfl, fun _ _ => rfl, fun _ => rfl⟩
  | clearsRx => exact ⟨rfl, fun _ => rfl, fun _ _ => rfl, fun _ => rfl⟩
  | steps hu hw =>
    have k := halves_keep hu hw
    exact ⟨k.params, fun _ => k.cfg, fun _ _ => k.bound, fun _ => k.handle⟩
  | sends hu =>
    have k := txByte_keeps hu
    exact ⟨k.params, fun _ => k.cfg, fun _ _ => k.bound, fun _ => k.handle⟩
  | receives hu =>
    have k := rxByte_keeps hu
    exact ⟨k.params, fun _ => k.cfg, fun _ _ => k.bound, fun _ => k.handle⟩

/-- Settles O39: by what each operation can do; TXBYTE keeps the receive group, RXBYTE the transmit group, and neither
alone records `rx_last`. -/
theorem directionsAreIndependent : Obligations.DirectionsAreIndependent := by
  intro i s t h
  cases exec_effect h with
  | answers => exact ⟨fun _ _ _ _ _ => rfl, fun _ _ _ _ _ _ => rfl, fun _ _ => rfl⟩
  | configures =>
    exact ⟨fun _ _ _ _ hn => absurd rfl (hn _ _ _), fun _ _ _ _ _ hn => absurd rfl (hn _ _ _),
      fun _ hn => absurd rfl (hn _ _ _)⟩
  | binds => exact ⟨fun _ _ _ _ _ => rfl, fun _ _ _ _ hn _ => absurd rfl (hn _), fun _ _ => rfl⟩
  | submits => exact ⟨fun _ _ _ _ _ => rfl, fun hn _ _ _ _ _ => absurd rfl (hn _ _ _), fun _ _ => rfl⟩
  | supplies => exact ⟨fun hn _ _ _ _ => absurd rfl (hn _ _ _), fun _ _ _ _ _ _ => rfl, fun _ _ => rfl⟩
  | clearsTx => exact ⟨fun _ _ _ _ _ => rfl, fun _ hn _ _ _ _ => absurd rfl hn, fun _ _ => rfl⟩
  | clearsRx => exact ⟨fun _ hn _ _ _ => absurd rfl hn, fun _ _ _ _ _ _ => rfl, fun _ _ => rfl⟩
  | steps =>
    exact ⟨fun _ _ hn _ _ => absurd rfl hn, fun _ _ hn _ _ _ => absurd rfl hn, fun hn _ => absurd rfl hn⟩
  | sends hu =>
    have k := txByte_keeps hu
    exact ⟨fun _ _ _ _ _ => k.rx, fun _ _ _ hn _ _ => absurd rfl hn, fun _ _ => k.rxLast⟩
  | receives hu =>
    have k := rxByte_keeps hu
    exact ⟨fun _ _ _ hn _ => absurd rfl (hn _), fun _ _ _ _ _ _ => k.tx, fun _ _ => k.rxLast⟩

/-- Settles O40: what TXBYTE leaves alone, the transmit registers by its rows, and memory by the continuation's writes. -/
theorem txbyteFrame : Obligations.TxbyteFrame := by
  intro s t h
  obtain ⟨u, st, o, hu, rfl⟩ := exec_txbyte h
  have k := txByte_keeps hu
  have hmem : u.env.mem = memPutAll s.env.mem (contWrites s) := txByte_mem hu
  exact ⟨k.params, k.cfg, k.bound, k.handle, k.rx, k.rxLast, k.wCfg, k.inputs, k.reads, k.writes,
    txByte_of_not_asked hu, txByte_escid_of_ne hu, fun a ha => hmem ▸ memGet_memPutAll_other _ _ ha⟩

/-- Settles O41: what RXBYTE leaves alone, `rx_len` by its one writer, and memory by the cursor. -/
theorem rxbyteFrame : Obligations.RxbyteFrame := by
  intro s t b h
  obtain ⟨u, st, hu, rfl⟩ := exec_rxbyte h
  have k := rxByte_keeps hu
  have hlen : u.rx.state ≠ .finished → u.rx.len = s.rx.len := fun hne =>
    (rxByte_len hu).resolve_right fun ⟨_, hf, _⟩ => hne hf
  exact ⟨k.params, k.cfg, k.bound, k.handle, k.tx, k.rxLast, k.buf, k.cap, hlen, k.wCfg, k.inputs, k.reads, k.writes,
    k.conts, fun a ha => rxByte_mem hu ha⟩

/-- Settles O43: no command writes `rx_len`; RXBYTE, alone or in STEP, writes it on EOF in DATA. -/
theorem rxLenWrittenOnlyOnEof : Obligations.RxLenWrittenOnlyOnEof := by
  intro i s t h hne
  cases exec_effect h with
  | answers => exact absurd rfl hne
  | configures => exact absurd rfl hne
  | binds => exact absurd rfl hne
  | submits => exact absurd rfl hne
  | supplies => exact absurd rfl hne
  | clearsTx => exact absurd rfl hne
  | clearsRx => exact absurd rfl hne
  | steps hu hw =>
    have hrx := (txHalf_keeps hu).2.1
    have hlen := rxHalf_len hw
    rw [hrx] at hlen
    exact ⟨.inl rfl, hlen.resolve_left hne⟩
  | sends hu => exact absurd (congrArg RxRegs.len (txByte_keeps hu).rx) hne
  | receives hu => exact ⟨.inr ⟨_, rfl⟩, (rxByte_len hu).resolve_left hne⟩

/-- Settles O44: only CONFIGURE and the receive half of STEP write `rx_last`; the half's read stands among the requests
after those of the transmit half. -/
theorem rxLastWriters : Obligations.RxLastWriters := by
  intro i s t h hne
  cases exec_effect h with
  | answers => exact absurd rfl hne
  | configures => exact .inl ⟨⟨_, _, _, rfl⟩, rfl⟩
  | binds => exact absurd rfl hne
  | submits => exact absurd rfl hne
  | supplies => exact absurd rfl hne
  | clearsTx => exact absurd rfl hne
  | clearsRx => exact absurd rfl hne
  | @steps _ u w hu hw =>
    obtain ⟨ku, -, hlast, -⟩ := txHalf_keeps hu
    obtain ⟨⟨b, l, hread⟩, hstatus⟩ := rxHalf_rxLast hw (hlast ▸ hne)
    obtain ⟨c, m, x, -, -, -, hwrite⟩ := txHalf_trace hu
    rw [hwrite, List.append_assoc] at hread
    have hev := newEvents_of_trace (t := respond .ok w) hread
    exact .inr ⟨rfl, ⟨b, by simp [hev, ku.handle]⟩, hstatus⟩
  | sends hu => exact absurd (txByte_keeps hu).rxLast hne
  | receives hu => exact absurd (rxByte_keeps hu).rxLast hne

/-- Settles O46: by what each operation can do; the guards of BIND and SUBMIT name the states they leave, and TXBYTE,
alone or in STEP, follows a row of R141. -/
theorem transmitTransitionsComplete : Obligations.TransmitTransitionsComplete := by
  intro i s t h hne
  cases exec_effect h with
  | answers => exact absurd rfl hne
  | configures => exact .inl ⟨⟨_, _, _, rfl⟩, rfl⟩
  | binds allowed =>
    refine .inr (.inl ⟨⟨_, rfl⟩, ?_, rfl⟩)
    cases hs : s.tx.state <;> simp_all [bindAllowed]
  | submits allowed =>
    refine .inr (.inr (.inl ⟨⟨_, _, _, rfl⟩, ?_, rfl⟩))
    cases hs : s.tx.state <;> simp_all [submitAllowed]
  | supplies => exact absurd rfl hne
  | clearsTx finished => exact .inr (.inr (.inr (.inl ⟨rfl, finished, rfl⟩)))
  | clearsRx => exact absurd rfl hne
  | @steps _ u w hu hw =>
    have htx : w.tx = u.tx := (rxHalf_keeps hw).2.1
    rw [respond_tx, htx] at hne ⊢
    exact .inr (.inr (.inr (.inr ⟨.inr rfl, txHalf_row_of_ne hu hne⟩)))
  | sends hu => exact .inr (.inr (.inr (.inr ⟨.inl rfl, txByte_row_of_ne hu hne⟩)))
  | receives hu => exact absurd (congrArg TxRegs.state (rxByte_keeps hu).tx) hne

end Sys2Proof.Machine
end

section
/-! PROOFS. The status port (R20, R242) in every state and after reset (R35). -/
namespace Sys2Proof.Machine

/-- Settles O6: the four elements reset gives a value stand at code 0; which count as written, element by element. -/
theorem resetStateOnTheStatusPort : Obligations.ResetStateOnTheStatusPort := by
  refine ⟨rfl, rfl, rfl, rfl, fun e => ?_⟩
  cases e <;> simp [elementWritten, State.reset]

/-- The status port reads a table entry that exists. -/
theorem statusPort_ctl {s : State} {i : Nat} {b : Byte} (h : s.cfg.ctl[i]? = some b) :
    statusPort s (.ctl i) = .next b.toNat := by
  rw [statusPort, readCtl_eq_next.mpr h, andThen_next]

theorem statusPort_esc {s : State} {i : Nat} {b : Byte} (h : s.cfg.esc[i]? = some b) :
    statusPort s (.esc i) = .next b.toNat := by
  rw [statusPort, readEsc_eq_next.mpr h, andThen_next]

/-- Settles O7: a table entry by its read, the coded registers value by value, the rest as they stand. -/
theorem statusPortShowsTheRegisters : Obligations.StatusPortShowsTheRegisters := by
  intro s
  have hbound : statusPort s .tpBound = .next (if s.bound = true then 1 else 0) := by
    rw [statusPort]; cases s.bound <;> rfl
  refine ⟨fun _ _ => statusPort_ctl, fun _ _ => statusPort_esc, rfl, hbound, rfl, ?txState, rfl, rfl, rfl, rfl, ?rxState,
    rfl, rfl, rfl, rfl, ?rxLast⟩
  case txState => rw [statusPort]; cases s.tx.state <;> rfl
  case rxState => rw [statusPort]; cases s.rx.state <;> rfl
  case rxLast => rw [statusPort]; cases s.rxLast <;> rfl

end Sys2Proof.Machine
end

section
/-! PROOFS. The frame of STEP (R64, R210, R216), from the frames of its two halves. -/
namespace Sys2Proof.Machine

/-- With no frame in flight the transmit half does nothing (R211). -/
theorem txHalf_of_quiet {s : State} (h : TxQuiet s) : txHalf s = .next s :=
  TransmitHalfLeaves.eq_txHalf (.inl ⟨h, rfl⟩)

/-- An idle receiver has no receive half (R212). -/
theorem rxHalf_of_idle {s : State} (h : s.rx.state = .idle) : rxHalf s = .next s := if_pos h

/-- With no frame in flight STEP keeps the transmit group. -/
theorem halves_tx_of_quiet {s u w : State} (hu : txHalf s = .next u) (hw : rxHalf u = .next w) (h : TxQuiet s) :
    w.tx = s.tx := by
  cases (txHalf_of_quiet h).symm.trans hu
  obtain ⟨-, htx, -, -⟩ := rxHalf_keeps hw
  exact htx

/-- With the receiver idle STEP keeps the receive group and `rx_last`. -/
theorem halves_rx_of_idle {s u w : State} (hu : txHalf s = .next u) (hw : rxHalf u = .next w)
    (h : s.rx.state = .idle) : w.rx = s.rx ∧ w.rxLast = s.rxLast := by
  obtain ⟨-, hrx, hlast, -, -⟩ := txHalf_keeps hu
  cases (rxHalf_of_idle (s := u) (hrx ▸ h)).symm.trans hw
  exact ⟨hrx, hlast⟩

/-- STEP changes at most what the continuation writes and, with room left, the byte at the cursor: the transmit half
leaves the cursor to the receive half as it was. -/
theorem halves_mem {s u w : State} (hu : txHalf s = .next u) (hw : rxHalf u = .next w) {a : Nat}
    (hcont : ∀ v ∈ contWrites s, v.1 ≠ a) (hstore : s.rx.pos < s.rx.cap → a ≠ rxStoreAddr s) :
    memGet w.env.mem a = memGet s.env.mem a := by
  obtain ⟨-, hrx, -, -, -⟩ := txHalf_keeps hu
  have hstore_u : u.rx.pos < u.rx.cap → a ≠ rxStoreAddr u := by rwa [rxStoreAddr, hrx]
  exact (rxHalf_mem hw hstore_u).trans (txHalf_mem hu hcont)

/-- Settles O42: from what each half of STEP leaves alone. -/
theorem stepCommandFrame : Obligations.StepCommandFrame := by
  intro s t h
  obtain ⟨u, w, hu, hw, rfl⟩ := execStep_cases h
  have k := halves_keep hu hw
  obtain ⟨-, hrx, -, -, -⟩ := txHalf_keeps hu
  obtain ⟨-, -, hbuf, hcap⟩ := rxHalf_keeps hw
  exact ⟨k.params, k.cfg, k.bound, k.handle, k.inputs, hbuf.trans (congrArg RxRegs.buf hrx),
    hcap.trans (congrArg RxRegs.cap hrx), halves_tx_of_quiet (w := w) hu hw,
    halves_rx_of_idle (w := w) hu hw, fun _ => halves_mem hu hw⟩

end Sys2Proof.Machine
end

section
/-! PROOFS. Where an access outside the supplied buffers stops an operation (R67, R74, U5). -/
namespace Sys2Proof.Machine

/-- A sequence stops with a fault of its first part, or goes on to a fault of its second. -/
theorem andThen_eq_fault {α β : Type} {x : Res α} {f : α → Res β} {r : Fault} :
    andThen x f = .fault r ↔ x = .fault r ∨ ∃ a, x = .next a ∧ f a = .fault r := by
  cases x <;> simp

variable {s t : State} {b sof esc eof v : Byte} {f : Fault}

/-! ### The payload read of TXBYTE -/

/-- Taking a payload byte outside the buffer stops. -/
theorem txTake_fault (h : stopsAt s.params s.env.mem (s.tx.data + s.tx.pos) f) : txTake s = .fault f := by
  have hread : memRead (s.tx.data + s.tx.pos) s = .fault f := andThen_eq_fault.mpr (.inl (placedByte_eq_fault.mpr h))
  exact andThen_eq_fault.mpr (.inl hread)

/-- A continuation that continues the frame leaves its three values loaded (R146). -/
theorem afterCont_continued (hc : s.params.hasCont = true) (hm : (contRequest s).1.more = true) :
    afterCont s = contLoad (contRequest s).1 (contRequest s).2 := by
  rw [afterCont, if_pos hc, if_pos hm]

/-- Where TXBYTE would read, it takes a payload byte in DATA, before or after asking the continuation (R144, R146). -/
theorem txByte_of_txReads {r : Nat × Memory} (h : txReads s = some r) :
    s.tx.state = .data ∧
      ∃ u, txByte s = txTake u ∧ u.params = s.params ∧ r = (u.tx.data + u.tx.pos, u.env.mem) := by
  unfold txReads at h
  split at h
  next hnow =>
    obtain ⟨hd, hp⟩ := hnow
    exact ⟨hd, s, by simp only [txByte, hd, if_pos hp], rfl, (Option.some.inj h).symm⟩
  next =>
    split at h
    next hcont =>
      obtain ⟨hask, hm, hlt⟩ := hcont
      obtain ⟨hd, hp, hc⟩ : s.tx.state = .data ∧ ¬ s.tx.pos < s.tx.len ∧ s.params.hasCont = true := by
        simpa [contAsked] using hask
      have hsup : contSupplied s = true := by simp [contSupplied, hc, hm, hlt]
      refine ⟨hd, afterCont s, ?_, (afterCont_keeps s).params, ?_⟩
      · simp only [txByte, hd, if_neg hp, txExhausted_eq, hsup, if_true]
      · rw [afterCont_continued hc hm]
        exact (Option.some.inj h).symm
    · simp at h

theorem txByte_fault {r : Nat × Memory} (hr : txReads s = some r) (h : stopsAt s.params r.2 r.1 f) :
    txByte s = .fault f := by
  obtain ⟨-, u, hu, hparams, rfl⟩ := txByte_of_txReads hr
  rw [hu]
  exact txTake_fault (hparams ▸ h)

theorem txHalf_fault (hr : txReady s.tx.state = true) (h : txByte s = .fault f) : txHalf s = .fault f := by
  rw [txHalf, if_pos hr, h, andThen_fault]

/-! ### The store of RXBYTE -/

/-- Storing below the capacity but outside the buffer's memory stops. -/
theorem rxStore_fault (hp : s.rx.pos < s.rx.cap) (h : stopsAt s.params s.env.mem (rxStoreAddr s) f) (v : Byte) :
    rxStore v s = .fault f := by
  have hwrite : memWrite (s.rx.buf + s.rx.pos) v s = .fault f :=
    andThen_eq_fault.mpr (.inl (placedByte_eq_fault.mpr h))
  rw [rxStore, if_pos hp, hwrite, andThen_fault]

/-- RXBYTE in DATA of a byte that is none of SOF, ESC and EOF stops where RxStore stops (R177). -/
theorem rxByte_fault_of_data (hd : s.rx.state = .data) (hsof : s.cfg.ctl[idSOF]? = some sof)
    (hesc : s.cfg.ctl[idESC]? = some esc) (heof : s.cfg.ctl[idEOF]? = some eof) (h0 : b ≠ sof) (h1 : b ≠ esc)
    (h2 : b ≠ eof) (h : rxStore b s = .fault f) : rxByte b s = .fault f := by
  simp only [rxByte, hd, rxData, readCtl_eq_next.mpr hsof, readCtl_eq_next.mpr hesc, readCtl_eq_next.mpr heof,
    andThen_next, if_neg h0, if_neg h1, if_neg h2, h, andThen_fault]

/-- RXBYTE in ESC of a byte that stands for `v` stops where RxStore of `v` stops (R179). -/
theorem rxByte_fault_of_esc (he : s.rx.state = .esc) (hv : unescape b s = .next v)
    (h : rxStore v { s with rx.state := .data } = .fault f) : rxByte b s = .fault f := by
  simp only [rxByte, he, rxEsc, hv, andThen_next, h, andThen_fault]

/-- The tables resolve the second byte of an escape pair: to an identifier's control byte, or to the byte itself. -/
theorem unescape_resolves
    (h : (∃ i v, lookupIn s.cfg.esc s.cfg.num b = some i ∧ s.cfg.ctl[i]? = some v) ∨
      (lookupIn s.cfg.esc s.cfg.num b = none ∧ s.cfg.num ≤ s.cfg.esc.length)) :
    ∃ v, unescape b s = .next v := by
  obtain ⟨i, v, hl, hv⟩ | ⟨hl, hn⟩ := h
  · exact ⟨v, unescape_match hl hv⟩
  · exact ⟨b, unescape_raw hl hn⟩

/-- The receive half stops where RXBYTE of the byte it read stops (R212). -/
theorem rxHalf_fault {r : State} (hi : s.rx.state ≠ .idle) (hread : tpRead s = (some b, r))
    (h : rxByte b r = .fault f) : rxHalf s = .fault f := by
  simp only [rxHalf, if_neg hi, hread, rxFeedAnswer, h, andThen_fault]

/-! ### The operations -/

theorem exec_txbyte_fault (h : txByte s = .fault f) : exec .txbyte s = .fault f :=
  andThen_eq_fault.mpr (.inl h)

/-- RXBYTE as an operation stops exactly where the shared RXBYTE stops. -/
theorem exec_rxbyte_fault : exec (.rxbyte b) s = .fault f ↔ rxByte b s = .fault f :=
  andThen_eq_fault.trans (by simp)

theorem exec_step_fault_of_transmit (h : txHalf s = .fault f) : exec .step s = .fault f :=
  andThen_eq_fault.mpr (.inl h)

theorem exec_step_fault_of_receive (ht : txHalf s = .next t) (h : rxHalf t = .fault f) : exec .step s = .fault f :=
  andThen_eq_fault.mpr (.inr ⟨t, ht, andThen_eq_fault.mpr (.inl h)⟩)

/-- Settles O36: the fault of the byte's access is passed on by every part up to the operation. -/
theorem addressesOutsideTheBuffersFault : Obligations.AddressesOutsideTheBuffersFault := by
  intro s f
  refine ⟨fun r hr hstop => ?transmit, fun hp hstop => ⟨rxStore_fault hp hstop, ?data, ?esc⟩, ?step⟩
  case transmit =>
    obtain ⟨hd, -⟩ := txByte_of_txReads hr
    have hfault := txByte_fault hr hstop
    exact ⟨exec_txbyte_fault hfault, exec_step_fault_of_transmit (txHalf_fault (by rw [hd]; rfl) hfault)⟩
  case data =>
    intro b sof esc eof hd hsof hesc heof h0 h1 h2
    exact exec_rxbyte_fault.mpr (rxByte_fault_of_data hd hsof hesc heof h0 h1 h2 (rxStore_fault hp hstop b))
  case esc =>
    intro b he hresolved
    obtain ⟨v, hv⟩ := unescape_resolves hresolved
    have hstore : rxStore v { s with rx.state := .data } = .fault f :=
      rxStore_fault (s := { s with rx.state := .data }) hp hstop v
    exact exec_rxbyte_fault.mpr (rxByte_fault_of_esc he hv hstore)
  case step =>
    intro t r b hi ht hread h
    have hhalf := ht.eq_txHalf
    obtain ⟨-, hrx, -, -, -⟩ := txHalf_keeps hhalf
    have hi_t : t.rx.state ≠ .idle := hrx ▸ hi
    exact exec_step_fault_of_receive hhalf (rxHalf_fault hi_t hread.eq_tpRead (exec_rxbyte_fault.mp h))

end Sys2Proof.Machine
end

section
/-! PROOFS. The command word (R95, R96, R98): each operand bundle decodes to exactly the operands laid out in it, and
so decoding and encoding are inverse. -/
namespace Sys2Proof

variable {P : Params}

/-! ### Operands on a bundle -/

/-- A value of `k` bits below another is read back, and so is the other. -/
theorem field_parts {k d : Nat} (h : d < 2 ^ k) (l : Nat) :
    (d + 2 ^ k * l) % 2 ^ k = d ∧ (d + 2 ^ k * l) / 2 ^ k = l := by
  rw [Nat.add_mul_mod_self_left, Nat.add_mul_div_left _ _ (Nat.two_pow_pos k), Nat.mod_eq_of_lt h,
    Nat.div_eq_of_lt h, Nat.zero_add]
  exact ⟨rfl, rfl⟩

/-- A flag in bit 0 is read back, and so is what stands above it. -/
theorem flag_parts (n : Bool) (r : Nat) : ((n.toNat + 2 * r) % 2 == 1) = n ∧ (n.toNat + 2 * r) / 2 = r := by
  cases n with
  | false => simp
  | true => simp [Nat.add_mul_div_left]

theorem flag_add_rest (r : Nat) : (r % 2 == 1).toNat + 2 * (r / 2) = r := by
  rcases Nat.mod_two_eq_zero_or_one r with h | h <;> simp [h] <;> omega

/-- Nothing above `k` bits: the low `k` bits are the whole value. -/
theorem mod_two_pow_of_div_eq_zero {k r : Nat} (h : r / 2 ^ k = 0) : r % 2 ^ k = r :=
  Nat.mod_eq_of_lt ((Nat.div_eq_zero_iff_lt (Nat.two_pow_pos k)).mp h)

theorem decodeConfigure_putBytes {ctl esc : List Byte} {num : Nat} (h : wfConfigure P ctl esc num = true) :
    decodeConfigure P (putBytes ctl (putBytes esc num)) = .ok (.configure ctl esc num) := by
  simp only [wfConfigure, Bool.and_eq_true, beq_iff_eq, decide_eq_true_eq] at h
  obtain ⟨⟨hctl, hesc⟩, hnum⟩ := h
  have hfirst := takeBytes_putBytes ctl (putBytes esc num)
  have hsecond := takeBytes_putBytes esc num
  rw [hctl] at hfirst
  rw [hesc] at hsecond
  simp only [decodeConfigure, hfirst, hsecond, closed_eq_ok, Nat.div_eq_of_lt hnum, Nat.mod_eq_of_lt hnum, true_and]

theorem decodePdu_bundle {d l : Nat} (h : wfPdu P d l = true) (n : Bool) (mk : Bool → Nat → Nat → Instr) :
    decodePdu P (n.toNat + 2 * (d + 2 ^ P.addrW * l)) mk = .ok (mk n d l) := by
  simp only [wfPdu, Bool.and_eq_true, decide_eq_true_eq] at h
  obtain ⟨hd, hl⟩ := h
  obtain ⟨hflag, hrest⟩ := flag_parts n (d + 2 ^ P.addrW * l)
  obtain ⟨hptr, hsize⟩ := field_parts hd l
  simp only [decodePdu, hflag, hrest, hptr, hsize, closed_eq_ok, Nat.div_eq_of_lt hl, Nat.mod_eq_of_lt hl, true_and]

/-- A bundle that decodes as CONFIGURE is its operands laid out. -/
theorem bundle_of_decodeConfigure {r : Nat} {i : Instr} (h : decodeConfigure P r = .ok i) :
    i.opcode = some 1 ∧ i.bundle P = r := by
  obtain ⟨hexcess, rfl⟩ := closed_eq_ok.mp h
  refine ⟨rfl, ?_⟩
  rw [Instr.bundle, mod_two_pow_of_div_eq_zero hexcess, putBytes_takeBytes, putBytes_takeBytes]

/-- A bundle that decodes as a PDU operand is that operand laid out. -/
theorem bundle_of_decodePdu {r : Nat} {mk : Bool → Nat → Nat → Instr} {i : Instr} (h : decodePdu P r mk = .ok i) :
    ∃ n d l, i = mk n d l ∧ n.toNat + 2 * (d + 2 ^ P.addrW * l) = r := by
  obtain ⟨hexcess, rfl⟩ := closed_eq_ok.mp h
  refine ⟨_, _, _, rfl, ?_⟩
  rw [mod_two_pow_of_div_eq_zero hexcess, Nat.mod_add_div, flag_add_rest]

/-! ### Words -/

/-- A word is its instruction's when opcode nibble and bundle agree. -/
theorem encode_of_parts {i : Instr} {w : Nat} (hop : i.opcode = some (w % 16)) (hb : i.bundle P = w / 16) :
    encode P i = some w := by
  rw [encode, hop, Option.map_some, hb, Nat.mod_add_div]

/-- A word with no bundle. -/
theorem encode_of_closed {i j : Instr} {w : Nat} (h : closed (w / 16) j = .ok i) (hop : j.opcode = some (w % 16))
    (hb : j.bundle P = 0) : encode P i = some w := by
  obtain ⟨hr, rfl⟩ := closed_eq_ok.mp h
  exact encode_of_parts hop (hb.trans hr.symm)

/-- A decoded word is its instruction's: only CONFIGURE (0x1), BIND (0x2), SUBMIT (0x3) and SUPPLY (0x4) have operands. -/
theorem encode_of_decode {w : Nat} {i : Instr} (h : decode P w = .ok i) : encode P i = some w := by
  simp only [decode] at h
  split at h
  case h_2 hop =>
    obtain ⟨ho, hb⟩ := bundle_of_decodeConfigure h
    exact encode_of_parts (hop ▸ ho) hb
  case h_3 hop =>
    obtain ⟨hexcess, rfl⟩ := closed_eq_ok.mp h
    exact encode_of_parts (by rw [hop]; rfl) (mod_two_pow_of_div_eq_zero hexcess)
  case h_4 hop =>
    obtain ⟨n, d, l, rfl, hb⟩ := bundle_of_decodePdu h
    exact encode_of_parts (by rw [hop]; rfl) hb
  case h_5 hop =>
    obtain ⟨n, d, l, rfl, hb⟩ := bundle_of_decodePdu h
    exact encode_of_parts (by rw [hop]; rfl) hb
  case h_16 =>
    have hop : w % 16 = 15 := by simp only [imp_false] at *; omega
    exact encode_of_closed h (by rw [hop]; rfl) rfl
  all_goals
    rename_i hop
    exact encode_of_closed h (by rw [hop]; rfl) rfl

/-- The word laid out for a well-formed command decodes to it: its bundle by its operands, or empty. -/
theorem decode_of_opcode {i : Instr} {op : Nat} (hop : i.opcode = some op) (hwf : i.wf P = true) :
    decode P (op + 16 * i.bundle P) = .ok i := by
  cases i
  case txbyte => cases hop
  case rxbyte => cases hop
  case configure ctl esc num =>
    cases hop
    simp only [decode, word_parts 1 _ (by decide)]
    exact decodeConfigure_putBytes hwf
  case bind h =>
    cases hop
    have hlt : h < 2 ^ P.handleW := of_decide_eq_true hwf
    simp only [decode, word_parts 2 _ (by decide)]
    exact closed_eq_ok.mpr ⟨Nat.div_eq_of_lt hlt, congrArg _ (Nat.mod_eq_of_lt hlt)⟩
  case submit n d l =>
    cases hop
    simp only [decode, word_parts 3 _ (by decide)]
    exact decodePdu_bundle hwf n _
  case supply n d c =>
    cases hop
    simp only [decode, word_parts 4 _ (by decide)]
    exact decodePdu_bundle hwf n _
  case reservedAB x =>
    cases hop
    obtain rfl | rfl := (by decide : ∀ x : BitVec 1, x = 0 ∨ x = 1) x
    all_goals simp [decode, Instr.bundle, closed]
  case reservedCF x =>
    cases hop
    obtain rfl | rfl | rfl | rfl := (by decide : ∀ x : BitVec 2, x = 0 ∨ x = 1 ∨ x = 2 ∨ x = 3) x
    all_goals simp [decode, Instr.bundle, closed]
  all_goals
    cases hop
    simp [decode, Instr.bundle, closed]

/-- The operations without an opcode are the internal ones (R95). -/
theorem internal_eq_opcode_isNone (i : Instr) : i.internal = i.opcode.isNone := by
  cases i <;> rfl

/-- Settles O1: an instruction without an opcode is internal; with one, its word decodes operand by operand. -/
theorem decodeOfEncodedCommand : Obligations.DecodeOfEncodedCommand := by
  intro P i hwf
  rw [internal_eq_opcode_isNone, encode]
  cases hop : i.opcode with
  | none => exact .inl ⟨rfl, rfl⟩
  | some op => exact .inr ⟨rfl, _, rfl, decode_of_opcode hop hwf⟩

/-- Settles O2: decoding cuts each operand to its width, and loses no bit of the word. -/
theorem encodeOfDecodedWord : Obligations.EncodeOfDecodedWord :=
  fun _ _ _ h => ⟨decode_wf h, encode_of_decode h⟩

/-- Settles O3: word by word. -/
theorem wordsOfTheOpcodeTable : Obligations.WordsOfTheOpcodeTable :=
  ⟨rfl, rfl, rfl, rfl, rfl, rfl, rfl, rfl, rfl, rfl, rfl, rfl, rfl⟩

end Sys2Proof
end

section
/-! PROOFS. What a table lookup answers (R92), and that legality leaves one match (R22). -/
namespace Sys2Proof.Machine

/-! ### One scan of a table -/

section Scan
variable {tbl : List Byte} {n i : Nat} {b : Byte}

theorem scanTable_eq_some :
    scanTable tbl n b 0 = .next (some i) ↔ i < n ∧ tbl[i]? = some b ∧ ∀ j < i, tbl[j]? ≠ some b := by
  rw [scanTable_eq_next, lookupIn_eq_some]
  simp

theorem scanTable_eq_none (hn : n ≤ tbl.length) :
    scanTable tbl n b 0 = .next none ↔ ∀ j < n, tbl[j]? ≠ some b := by
  rw [scanTable_eq_next, lookupIn_eq_none]
  simp [hn]

/-- A scan that finds nothing in the whole table and is to go on is refused. -/
theorem scanTable_refused (hn : tbl.length < n) (hb : b ∉ tbl) : scanTable tbl n b 0 = .refused .tableEntryAbsent := by
  have hnone : lookupIn tbl n b = none :=
    lookupIn_eq_none.mpr fun _ _ hj => hb (List.mem_of_getElem? hj)
  rw [scanTable_eq, hnone]
  exact if_neg (Nat.not_le.mpr hn)

/-- Among distinct entries any match is the answer. -/
theorem scanTable_of_distinct (hd : ∀ i < n, ∀ j < n, i ≠ j → tbl[i]? ≠ tbl[j]?) (hi : i < n) (hb : tbl[i]? = some b) :
    scanTable tbl n b 0 = .next (some i) :=
  scanTable_eq_some.mpr
    ⟨hi, hb, fun j hj hjb => hd i hi j (hj.trans hi) (Nat.ne_of_gt hj) (hb.trans hjb.symm)⟩

end Scan

/-- Settles O14: both lookups are one scan, each of its own table. -/
theorem lookupIsTheLeastMatch : Obligations.LookupIsTheLeastMatch := by
  intro s b
  refine ⟨fun _ => scanTable_eq_some, fun _ => scanTable_eq_some, scanTable_eq_none, scanTable_eq_none,
    scanTable_refused, scanTable_refused, fun legal i hi => ⟨scanTable_of_distinct legal.ctlDistinct hi, fun hb => ?_⟩⟩
  exact ⟨scanTable_of_distinct legal.escDistinct hi hb,
    fun j hj hjb => legal.escNotCtl i hi j hj (hb.trans hjb.symm)⟩

end Sys2Proof.Machine
end

section
/-! PROOFS. What the commands answer (R97), the reserved opcodes among them (R98). -/
namespace Sys2Proof.Machine

/-- GETTX reports PENDING or FRAME_FINISHED (R149). -/
theorem txStatus_cases (st : TxState) : txStatus st = .pending ∨ txStatus st = .frameFinished := by
  cases st <;> simp [txStatus]

/-- GETRX reports OK, PENDING or FRAME_FINISHED (R183). -/
theorem rxStatus_cases (st : RxState) : rxStatus st = .ok ∨ rxStatus st = .pending ∨ rxStatus st = .frameFinished := by
  cases st <;> simp [rxStatus]

/-- A command with a guard answers OK or INVALID_ARGUMENT (R121, R140, R170). -/
theorem guarded_response {c : Prop} [Decidable c] {s u t : State}
    (h : (if c then .next (respond .ok u) else .next (respond .invalidArgument s) : Res State) = .next t) :
    ∃ st, t.env.response = some { status := st, byte := none } ∧ (st = .ok ∨ st = .invalidArgument) := by
  obtain ⟨-, rfl⟩ | ⟨-, rfl⟩ := ite_next_cases h
  · exact ⟨_, rfl, .inl rfl⟩
  · exact ⟨_, rfl, .inr rfl⟩

/-- Settles O48: command by command; a guard selects OK or INVALID_ARGUMENT, a report is a function of the state. -/
theorem statusesOfEachCommand : Obligations.StatusesOfEachCommand := by
  intro i s t hi h
  cases i with
  | configure => cases h; exact ⟨_, rfl, rfl⟩
  | bind => exact guarded_response h
  | submit => exact guarded_response h
  | supply => exact guarded_response h
  | gettx => cases h; exact ⟨_, rfl, txStatus_cases _⟩
  | clrtx => obtain ⟨-, rfl⟩ | ⟨-, rfl⟩ := ite_next_cases h <;> exact ⟨_, rfl, rfl⟩
  | getrx => cases h; exact ⟨_, rfl, rxStatus_cases _⟩
  | clrrx => obtain ⟨-, rfl⟩ | ⟨-, rfl⟩ := ite_next_cases h <;> exact ⟨_, rfl, rfl⟩
  | step =>
    obtain ⟨u, w, -, -, rfl⟩ := execStep_cases h
    exact ⟨_, rfl, rfl⟩
  | reserved0 => cases h; exact ⟨_, rfl, rfl⟩
  | reservedAB => cases h; exact ⟨_, rfl, rfl⟩
  | reservedCF => cases h; exact ⟨_, rfl, rfl⟩
  | txbyte => cases hi
  | rxbyte => cases hi

/-- Settles O34: every reserved opcode is the one reserved command. -/
theorem reservedOpcodesDoNothing : Obligations.ReservedOpcodesDoNothing :=
  fun _ _ _ => ⟨rfl, rfl, rfl⟩

end Sys2Proof.Machine
end

section
/-! PROOFS. The length of a frame on the wire (R94). -/
namespace Sys2Proof.Machine

/-- An escaped byte takes two bytes on the wire, any other byte one (R91). -/
theorem stuffOf_length (c : CfgRegs) (b : Byte) :
    (stuffOf c b).length = 1 + if (lookupIn c.ctl c.num b).isSome then 1 else 0 := by
  unfold stuffOf
  cases lookupIn c.ctl c.num b <;> rfl

/-- Stuffing adds one byte for each escaped byte. -/
theorem flatMap_stuffOf_length (c : CfgRegs) (p : List Byte) :
    (p.flatMap (stuffOf c)).length = p.length + escapesIn c p := by
  unfold escapesIn
  induction p with
  | nil => rfl
  | cons b bs ih =>
    rw [List.flatMap_cons, List.length_append, stuffOf_length, ih, List.length_cons, List.countP_cons]
    omega

theorem escapesIn_le_length (c : CfgRegs) (p : List Byte) : escapesIn c p ≤ p.length := List.countP_le_length

/-- Settles O54: the two delimiters around the stuffed payload, of which at most every byte is escaped. -/
theorem frameLength : Obligations.FrameLength := by
  intro c p
  have hlen : (frameOf c p).length = p.length + escapesIn c p + 2 := by
    simp only [frameOf, List.length_cons, List.length_append, List.length_nil, flatMap_stuffOf_length]
  have hle := escapesIn_le_length c p
  exact ⟨hlen, by omega, by omega⟩

end Sys2Proof.Machine
end

section
/-! PROOFS. The setup commands: what CONFIGURE disarms (R120) and what BIND's guard selects (R121). -/
namespace Sys2Proof.Machine

/-! ### No transfer without a binding -/

/-- SUBMIT is refused while no handle is bound, whatever its operand (R140). -/
theorem exec_submit_of_unbound {s : State} (h : s.bound = false) (n : Bool) (data len : Nat) :
    exec (.submit n data len) s = .next (respond .invalidArgument s) := by
  simp [exec, execSubmit, h]

/-- SUPPLY is refused while no handle is bound, whatever its operand (R170). -/
theorem exec_supply_of_unbound {s : State} (h : s.bound = false) (n : Bool) (data cap : Nat) :
    exec (.supply n data cap) s = .next (respond .invalidArgument s) := by
  simp [exec, execSupply, h]

/-- Settles O8: CONFIGURE ends with no handle bound, so that SUBMIT and SUPPLY are refused. -/
theorem configureLoadsAndDisarms : Obligations.ConfigureLoadsAndDisarms :=
  fun _ _ _ _ => ⟨_, rfl, rfl, fun n d l => ⟨exec_submit_of_unbound rfl n d l, exec_supply_of_unbound rfl n d l⟩⟩

/-! ### The guard of BIND -/

theorem bindAllowed_iff {st : TxState} : bindAllowed st = true ↔ st = .config ∨ st = .idle ∨ st = .finished := by
  cases st <;> simp [bindAllowed]

/-- The states BIND refuses are those of a frame in flight. -/
theorem bindAllowed_eq_false_iff {st : TxState} :
    bindAllowed st = false ↔ st = .sof ∨ st = .data ∨ st = .esc ∨ st = .eof := by
  cases st <;> simp [bindAllowed]

theorem exec_bind_of_allowed {s : State} (h : bindAllowed s.tx.state = true) (hd : Nat) :
    exec (.bind hd) s =
      .next (respond .ok { s with handle := hd, bound := true, tx.state := .idle, written.handle := true }) :=
  if_pos h

theorem exec_bind_of_refused {s : State} (h : bindAllowed s.tx.state = false) (hd : Nat) :
    exec (.bind hd) s = .next (respond .invalidArgument s) :=
  if_neg (ne_true_of_eq_false h)

/-- Settles O9: the seven transmit states are the two values of BIND's guard. -/
theorem bindResult : Obligations.BindResult :=
  fun _ hd => ⟨fun h => exec_bind_of_allowed (bindAllowed_iff.mpr h) hd,
    fun h => exec_bind_of_refused (bindAllowed_eq_false_iff.mpr h) hd⟩

end Sys2Proof.Machine
end

section
/-! PROOFS. What TXBYTE answers in each state (R142 to R148), as equations, and the statements that say so. -/
namespace Sys2Proof.Machine

variable {s : State} {b : Byte}

/-! ### TXBYTE by `tx_state` -/

theorem txByte_of_quiet (h : TxQuiet s) : txByte s = .next (s, .pending, none) := by
  obtain hs | hs | hs := h <;> simp only [txByte, hs]

theorem txByte_of_sof (hs : s.tx.state = .sof) (hb : s.cfg.ctl[idSOF]? = some b) :
    txByte s = .next ({ s with tx.state := .data }, .ok, some b) := by
  simp only [txByte, hs, txSof, readCtl_eq_next.mpr hb, andThen_next]

theorem txByte_of_remaining (hs : s.tx.state = .data) (hp : s.tx.pos < s.tx.len) : txByte s = txTake s := by
  simp only [txByte, hs, if_pos hp]

theorem txByte_of_exhausted (hs : s.tx.state = .data) (hp : ¬ s.tx.pos < s.tx.len) :
    txByte s = if contSupplied s then txTake (afterCont s) else txEnd (afterCont s) := by
  simp only [txByte, hs, if_neg hp, txExhausted_eq]

theorem txByte_of_esc (hs : s.tx.state = .esc) (hb : s.cfg.esc[s.tx.escid]? = some b) :
    txByte s = .next ({ s with tx.state := .data }, .ok, some b) := by
  simp only [txByte, hs, txEsc, readEsc_eq_next.mpr hb, andThen_next]

theorem txByte_of_eof (hs : s.tx.state = .eof) (hb : s.cfg.ctl[idEOF]? = some b) :
    txByte s = .next ({ s with tx.state := .finished }, .ok, some b) := by
  simp only [txByte, hs, txEof, readCtl_eq_next.mpr hb, andThen_next]

/-- The frame ends once the payload is exhausted and no continuation supplies a byte (R146). -/
theorem txByte_of_ended (hs : s.tx.state = .data) (hp : ¬ s.tx.pos < s.tx.len) (hc : contSupplied s = false)
    (hb : s.cfg.ctl[idEOF]? = some b) :
    txByte s = .next ({ afterCont s with tx.state := .finished }, .ok, some b) := by
  rw [txByte_of_exhausted hs hp, hc, if_neg Bool.false_ne_true]
  exact txEnd_next ((afterCont_keeps s).cfg ▸ hb)

/-- A continuation that supplied a byte leaves TXBYTE to run on the new values (R146). -/
theorem txByte_of_supplied (hs : s.tx.state = .data) (hp : ¬ s.tx.pos < s.tx.len) (hc : contSupplied s = true) :
    txByte s = txByte (afterCont s) := by
  rw [txByte_of_exhausted hs hp, hc, if_pos rfl,
    txByte_of_remaining ((afterCont_state s).1.trans hs) (afterCont_pos_lt hc)]

/-! ### The continuation's three answers (R146) -/

theorem contSupplied_off (h : s.params.hasCont = false) : contSupplied s = false := by
  simp only [contSupplied, h, Bool.false_and]

theorem contSupplied_declined (h : (contRequest s).1.more = false) : contSupplied s = false := by
  simp only [contSupplied, h, Bool.false_and, Bool.and_false]

/-- An attached continuation that continues supplies a byte exactly when its position is short of its length. -/
theorem contSupplied_continued (hc : s.params.hasCont = true) (hm : (contRequest s).1.more = true) :
    contSupplied s = decide ((contRequest s).1.pos < (contRequest s).1.len) := by
  simp only [contSupplied, hc, hm, Bool.true_and]

/-- A continuation that declines leaves the three registers as they were. -/
theorem afterCont_declined (hc : s.params.hasCont = true) (hm : (contRequest s).1.more = false) :
    afterCont s = (contRequest s).2 := by
  simp only [afterCont, hc, hm, if_true, Bool.false_eq_true, if_false]

/-! ### TXBYTE as an operation -/

theorem exec_txbyte_of_txByte {u : State} {st : Status} {o : Option Byte} (h : txByte s = .next (u, st, o)) :
    exec .txbyte s = .next (respondByte st o u) :=
  andThen_eq_next.mpr ⟨_, h, rfl⟩

/-- The operation depends on the state only through the shared TXBYTE. -/
theorem exec_txbyte_congr {u : State} (h : txByte s = txByte u) : exec .txbyte s = exec .txbyte u := by
  simp only [exec, execTxbyte, h]

/-- Settles O11: the three states with no frame in flight. -/
theorem txbyteWithNothingToSend : Obligations.TxbyteWithNothingToSend :=
  fun _ h => exec_txbyte_of_txByte (txByte_of_quiet h)

/-- Settles O12: SOF reads the table alone. -/
theorem txbyteSendsSof : Obligations.TxbyteSendsSof :=
  fun _ _ hs hb => exec_txbyte_of_txByte (txByte_of_sof hs hb)

/-- Settles O18: ESC reads the table alone. -/
theorem txbyteSendsTheSubstitute : Obligations.TxbyteSendsTheSubstitute :=
  fun _ _ hs hb => exec_txbyte_of_txByte (txByte_of_esc hs hb)

/-- Settles O15: with no continuation attached nothing is asked before the frame ends; EOF is the same end. -/
theorem txbyteEndsTheFrame : Obligations.TxbyteEndsTheFrame := by
  rintro s b hb (⟨hs, hp, hc⟩ | hs)
  · have h := txByte_of_ended hs hp (contSupplied_off hc) hb
    rw [afterCont_off hc] at h
    exact exec_txbyte_of_txByte h
  · exact exec_txbyte_of_txByte (txByte_of_eof hs hb)

/-- Settles O13: the byte read is looked up once; a match sends ESC, none sends the byte. -/
theorem txbyteTakesAPayloadByte : Obligations.TxbyteTakesAPayloadByte := by
  intro s v hs hp ha hm
  have htake := txByte_of_remaining hs hp
  exact ⟨fun i e hl he => exec_txbyte_of_txByte (htake.trans (txTake_esc ha hm hl he)),
    fun hl hn => exec_txbyte_of_txByte (htake.trans (txTake_plain ha hm hl hn))⟩

/-- Settles O16: the continuation's three answers, of which only a supplied byte goes on with the payload. -/
theorem txbyteAsksTheContinuation : Obligations.TxbyteAsksTheContinuation := by
  intro s b hs hp hc hb
  refine ⟨fun hm => ?declines, fun hm hlt => ?withoutByte, fun hm hlt => ?withByte⟩
  case declines =>
    have h := txByte_of_ended hs hp (contSupplied_declined hm) hb
    rw [afterCont_declined hc hm] at h
    exact exec_txbyte_of_txByte h
  case withoutByte =>
    have hnone : contSupplied s = false := (contSupplied_continued hc hm).trans (decide_eq_false hlt)
    have h := txByte_of_ended hs hp hnone hb
    rw [afterCont_continued hc hm] at h
    exact exec_txbyte_of_txByte h
  case withByte =>
    have hsup : contSupplied s = true := (contSupplied_continued hc hm).trans (decide_eq_true hlt)
    have h := txByte_of_supplied hs hp hsup
    rw [afterCont_continued hc hm] at h
    exact exec_txbyte_congr h

/-- Settles O17: a request is a draw, its writes and its note; what is drawn fits the port and obliges. -/
theorem continuationRequest : Obligations.ContinuationRequest := by
  intro s
  refine ⟨contRequest_trace s, contRequest_env_mem s, contRequest_tx s, contRequest_rx s, contRequest_cfg s,
    contRequest_bound s, contRequest_handle s, contRequest_rxLast s, fun hP hk => ?_⟩
  have hf := contRequest_fits hP
  exact ⟨contRequest_obliging hk, hf.data, hf.len, hf.pos, hf.writes⟩

end Sys2Proof.Machine
end

section
/-! PROOFS. TXBYTE in a frame in flight answers OK with one byte (R151). -/
namespace Sys2Proof.Machine

variable {s : State}

/-- TXBYTE, or a part of it, answers OK with one byte. -/
def YieldsByte (x : Res TxResult) : Prop := ∃ u b, x = .next (u, .ok, some b)

/-- Taking a placed byte yields it or ESC: the lookup stays in the table. -/
theorem txTake_yields (hn : s.cfg.num ≤ s.cfg.ctl.length) (hesc : idESC < s.cfg.ctl.length)
    (h : placed s.params s.env.mem (s.tx.data + s.tx.pos)) : YieldsByte (txTake s) := by
  obtain ⟨ha, hm⟩ := h
  obtain ⟨v, hm⟩ := Option.isSome_iff_exists.mp hm
  cases hl : lookupIn s.cfg.ctl s.cfg.num v with
  | none => exact ⟨_, _, txTake_plain ha hm hl hn⟩
  | some i => exact ⟨_, _, txTake_esc ha hm hl (List.getElem?_eq_getElem hesc)⟩

theorem txReads_of_remaining (hs : s.tx.state = .data) (hp : s.tx.pos < s.tx.len) :
    txReads s = some (s.tx.data + s.tx.pos, s.env.mem) :=
  if_pos ⟨hs, hp⟩

/-- Where the continuation supplied a byte, TXBYTE reads it from what the continuation left. -/
theorem txReads_of_supplied (hs : s.tx.state = .data) (hp : ¬ s.tx.pos < s.tx.len) (hc : contSupplied s = true) :
    txReads s = some ((afterCont s).tx.data + (afterCont s).tx.pos, (afterCont s).env.mem) := by
  obtain ⟨hon, hm, hlt⟩ : s.params.hasCont = true ∧ (contRequest s).1.more = true ∧
      (contRequest s).1.pos < (contRequest s).1.len := by simpa [contSupplied] using hc
  have hask : contAsked s = true := by simp [contAsked, hs, hp, hon]
  rw [txReads, if_neg fun h => hp h.2, if_pos ⟨hask, hm, hlt⟩, afterCont_continued hon hm]
  rfl

/-- TXBYTE in DATA yields a payload byte, a byte the continuation supplied, or EOF. -/
theorem txByte_yields_of_data (hs : s.tx.state = .data) (h3 : 3 ≤ s.cfg.ctl.length)
    (hn : s.cfg.num ≤ s.cfg.ctl.length) (hr : TxReadable s) : YieldsByte (txByte s) := by
  have hcfg : (afterCont s).cfg = s.cfg := (afterCont_keeps s).cfg
  by_cases hp : s.tx.pos < s.tx.len
  · rw [txByte_of_remaining hs hp]
    exact txTake_yields hn (Nat.lt_of_succ_lt h3) (hr _ (txReads_of_remaining hs hp))
  · cases hc : contSupplied s with
    | true =>
      rw [txByte_of_exhausted hs hp, hc, if_pos rfl]
      refine txTake_yields (hcfg ▸ hn) (hcfg ▸ Nat.lt_of_succ_lt h3) ?_
      rw [(afterCont_keeps s).params]
      exact hr _ (txReads_of_supplied hs hp hc)
    | false => exact ⟨_, _, txByte_of_ended hs hp hc (List.getElem?_eq_getElem h3)⟩

/-- In flight under the invariant, every table entry TXBYTE reads exists. -/
theorem txByte_yields (h : ChanInv s) (hn : Configured s) (hr : TxReadable s)
    (hs : s.tx.state = .sof ∨ s.tx.state = .data ∨ s.tx.state = .esc) : YieldsByte (txByte s) := by
  have hctl := h.shape.ctl
  have h3 : 3 ≤ s.cfg.ctl.length := hctl ▸ h.shape.params.1
  obtain hs | hs | hs := hs
  · exact ⟨_, _, txByte_of_sof hs (List.getElem?_eq_getElem (Nat.lt_of_lt_of_le (by decide) h3))⟩
  · exact txByte_yields_of_data hs h3 (hctl ▸ hn) hr
  · obtain ⟨-, hid, -⟩ := h.coherent.escidFound hs
    exact ⟨_, _, txByte_of_esc hs (List.getElem?_eq_getElem (h.shape.esc ▸ hid))⟩

/-- Settles O19: the byte the shared TXBYTE yields stands on the response port. -/
theorem txbyteYieldsOneByteInFlight : Obligations.TxbyteYieldsOneByteInFlight := by
  intro s h hn hr hs
  obtain ⟨u, b, hu⟩ := txByte_yields h hn hr hs
  exact ⟨_, b, exec_txbyte_of_txByte hu, rfl⟩

end Sys2Proof.Machine
end

section
/-! PROOFS. SUBMIT (R140), and the commands that report and clear (R149, R150, R184). -/
namespace Sys2Proof.Machine

variable {s : State} {pduNull : Bool} {data len : Nat}

/-! ### The guard of SUBMIT -/

theorem submitAllowed_iff {st : TxState} : submitAllowed st = true ↔ st = .idle ∨ st = .finished := by
  cases st <;> simp [submitAllowed]

theorem pduAccepted_iff : pduAccepted pduNull data len = true ↔ pduNull = false ∧ data ≠ 0 ∧ len ≠ 0 := by
  simp [pduAccepted]

/-- SUBMIT's guard is the five conditions of R140. -/
theorem submitGuard_iff :
    (submitAllowed s.tx.state && (pduAccepted pduNull data len && s.bound)) = true ↔
      (s.tx.state = .idle ∨ s.tx.state = .finished) ∧ pduNull = false ∧ data ≠ 0 ∧ len ≠ 0 ∧ s.bound = true := by
  rw [Bool.and_eq_true, Bool.and_eq_true, submitAllowed_iff, pduAccepted_iff, and_assoc, and_assoc]

/-- Settles O10: the guard's two values. -/
theorem submitResult : Obligations.SubmitResult :=
  fun _ _ _ _ => ⟨fun h => if_pos (submitGuard_iff.mpr h), fun h => if_neg (mt submitGuard_iff.mp h)⟩

/-- A SUBMIT that answered OK armed the transmitter with its operand. -/
theorem exec_submit_ok {t : State} (h : exec (.submit pduNull data len) s = .next t)
    (hok : t.env.response = some { status := .ok, byte := none }) :
    t = respond .ok { s with tx.data := data, tx.len := len, tx.pos := 0, tx.state := .sof, written.tx := true } := by
  obtain ⟨-, rfl⟩ | ⟨-, rfl⟩ := ite_next_cases h
  · rfl
  · simp at hok

/-! ### Reports and clears -/

theorem txStatus_eq (st : TxState) : txStatus st = if st = .finished then .frameFinished else .pending := by
  cases st <;> rfl

theorem exec_clrtx : exec .clrtx s =
    .next (respond .ok { s with tx.state := if s.tx.state = .finished then .idle else s.tx.state }) := by
  by_cases hs : s.tx.state = .finished <;> simp only [exec, execClrtx, hs, if_true, if_false]

theorem exec_clrrx : exec .clrrx s =
    .next (respond .ok { s with rx.state := if s.rx.state = .finished then .idle else s.rx.state }) := by
  by_cases hs : s.rx.state = .finished <;> simp only [exec, execClrrx, hs, if_true, if_false]

/-- Settles O20: a report is a function of `tx_state`; a clear outside FINISHED writes back what stands there. -/
theorem statusAndClearCommandsResult : Obligations.StatusAndClearCommandsResult := by
  intro s
  refine ⟨?_, exec_clrtx, exec_clrrx⟩
  rw [← txStatus_eq]
  rfl

end Sys2Proof.Machine
end

section
/-! PROOFS. The bytes of a frame on the wire (R90, R91, R152): an induction over the payload still to be sent. -/
namespace Sys2Proof.Machine

variable {s t u : State}

/-! ### Runs of TXBYTE that return bytes -/

/-- As many calls of TXBYTE as `bs` has bytes return them in order, each with OK, and lead from `s` to `t`. -/
def Emits (s : State) (bs : List Byte) (t : State) : Prop :=
  txPull bs.length s = .next (t, bs.map fun b => (.ok, some b))

/-- Two runs of TXBYTE in a row are one run. -/
theorem txPull_add {m n : Nat} {l k : List (Status × Option Byte)} (h : txPull m s = .next (u, l))
    (hn : txPull n u = .next (t, k)) : txPull (m + n) s = .next (t, l ++ k) := by
  induction m generalizing s l with
  | zero =>
    cases h
    rwa [Nat.zero_add]
  | succ m ih =>
    obtain ⟨r, hr, h⟩ := andThen_eq_next.mp h
    obtain ⟨q, hq, h⟩ := andThen_eq_next.mp h
    cases h
    rw [Nat.succ_add, txPull, hr, andThen_next, ih hq, andThen_next]
    rfl

theorem Emits.append {bs cs : List Byte} (h : Emits s bs u) (k : Emits u cs t) : Emits s (bs ++ cs) t := by
  unfold Emits
  rw [List.length_append, List.map_append]
  exact txPull_add h k

theorem Emits.single {b : Byte} (h : txByte s = .next (t, .ok, some b)) : Emits s [b] t := by
  simp only [Emits, List.length_singleton, txPull, h, andThen_next, List.map_singleton]

/-! ### The payload still to be sent -/

/-- The tables reach the three control values, and every entry that `num` lets a lookup find. -/
structure TablesReach (c : CfgRegs) : Prop where
  controls : 3 ≤ c.ctl.length
  numCtl   : c.num ≤ c.ctl.length
  numEsc   : c.num ≤ c.esc.length

/-- The frame is in DATA, `p` is the payload still to be sent, and no continuation prolongs it. -/
structure Sending (c : CfgRegs) (p : List Byte) (s : State) : Prop where
  cfg    : s.cfg = c
  state  : s.tx.state = .data
  len    : s.tx.len = s.tx.pos + p.length
  holds  : holdsAt s.env.mem (s.tx.data + s.tx.pos) p
  space  : s.tx.data + s.tx.pos + p.length ≤ 2 ^ s.params.addrW
  noCont : s.params.hasCont = false

variable {c : CfgRegs} {p : List Byte} {v : Byte}

/-- A buffer that holds a payload holds its first byte and, one address on, the rest (R61). -/
theorem holdsAt_cons {m : Memory} {base : Nat} (h : holdsAt m base (v :: p)) :
    memGet m base = some v ∧ holdsAt m (base + 1) p := by
  refine ⟨h 0 (Nat.succ_pos _), fun i hi => ?_⟩
  simpa [Nat.add_assoc, Nat.add_comm 1] using h (i + 1) (Nat.succ_lt_succ hi)

theorem getElem?_eq_some_getD {tbl : List Byte} {i : Nat} (h : i < tbl.length) : tbl[i]? = some (tbl.getD i 0) := by
  rw [List.getD_eq_getElem _ _ h, List.getElem?_eq_getElem h]

/-- Once its first byte is taken, the rest of the payload is still to be sent. -/
theorem Sending.tookByte (h : Sending c (v :: p) s) : Sending c p (tookByte v s) := by
  obtain ⟨hcfg, hs, hlen, hholds, hspace, hoff⟩ := h
  rw [List.length_cons] at hlen hspace
  have hlen' : s.tx.len = s.tx.pos + 1 + p.length := by omega
  have hspace' : s.tx.data + (s.tx.pos + 1) + p.length ≤ 2 ^ s.params.addrW := by omega
  exact ⟨hcfg, hs, hlen', (holdsAt_cons hholds).2, hspace', hoff⟩

/-- A payload byte goes out as its stuffing (R91), in one call of TXBYTE or, escaped, in two. -/
theorem Sending.emits_stuffOf (hc : TablesReach c) (h : Sending c (v :: p) s) :
    ∃ u, Emits s (stuffOf c v) u ∧ Sending c p u := by
  have hrest := h.tookByte
  obtain ⟨rfl, hs, hlen, hholds, hspace, -⟩ := h
  rw [List.length_cons] at hlen hspace
  obtain ⟨hm, -⟩ := holdsAt_cons hholds
  have htake := txByte_of_remaining hs (by omega)
  have ha : s.tx.data + s.tx.pos < 2 ^ s.params.addrW := by omega
  unfold stuffOf
  cases hl : lookupIn s.cfg.ctl s.cfg.num v with
  | none => exact ⟨_, .single (htake.trans (txTake_plain ha hm hl hc.numCtl)), hrest⟩
  | some i =>
    have hescape : idESC < s.cfg.ctl.length := Nat.lt_of_succ_lt hc.controls
    have hentry : i < s.cfg.esc.length := (lookupIn_lt hl).1.trans_le hc.numEsc
    have hfirst := Emits.single (htake.trans (txTake_esc ha hm hl (getElem?_eq_some_getD hescape)))
    have hsecond := Emits.single (txByte_of_esc (s := escaping i (Machine.tookByte v s)) rfl
      (getElem?_eq_some_getD hentry))
    exact ⟨_, hfirst.append hsecond, hrest.cfg, rfl, hrest.len, hrest.holds, hrest.space, hrest.noCont⟩

/-- The rest of the payload goes out stuffed, then EOF, and the frame is finished. -/
theorem Sending.emits_rest (hc : TablesReach c) (h : Sending c p s) :
    ∃ t, Emits s (p.flatMap (stuffOf c) ++ [c.ctl.getD idEOF 0]) t ∧ t.tx.state = .finished := by
  induction p generalizing s with
  | nil =>
    obtain ⟨rfl, hs, hlen, -, -, hoff⟩ := h
    have hp : ¬ s.tx.pos < s.tx.len := by simp [hlen]
    exact ⟨_, .single (txByte_of_ended hs hp (contSupplied_off hoff) (getElem?_eq_some_getD hc.controls)), rfl⟩
  | cons v p ih =>
    obtain ⟨u, hu, hrest⟩ := h.emits_stuffOf hc
    obtain ⟨t, ht, hfin⟩ := ih hrest
    rw [List.flatMap_cons, List.append_assoc]
    exact ⟨t, hu.append ht, hfin⟩

/-- Settles O55: SOF, then the payload byte by byte, then EOF; the frame's length is R94's. -/
theorem wireSequenceOfAFrame : Obligations.WireSequenceOfAFrame := by
  intro s₀ s data p hsubmit hok h3 hctl hesc hoff hspace hholds
  have harmed := exec_submit_ok hsubmit hok
  have hc : TablesReach s.cfg := ⟨h3, hctl, hesc⟩
  have hsof : idSOF < s.cfg.ctl.length := Nat.lt_of_lt_of_le (by decide) h3
  have hstart : Sending s.cfg p { s with tx.state := .data } := by
    subst harmed
    exact ⟨rfl, rfl, (Nat.zero_add _).symm, hholds, hspace, hoff⟩
  have hdelimiter := Emits.single (txByte_of_sof (by rw [harmed]; rfl) (getElem?_eq_some_getD hsof))
  obtain ⟨t, ht, hfin⟩ := hstart.emits_rest hc
  have hframe : Emits s (frameOf s.cfg p) t := hdelimiter.append ht
  rw [Emits, (frameLength s.cfg p).1] at hframe
  exact ⟨t, hframe, hfin, txByte_of_quiet (.inr (.inr hfin))⟩

end Sys2Proof.Machine
end

section
/-! PROOFS. What RXBYTE answers in each state (R172 to R182), as equations, and the statements that say so. -/
namespace Sys2Proof.Machine

variable {s t u : State} {b c sof esc eof v : Byte}

/-! ### RXBYTE by `rx_state` -/

theorem rxByte_of_idle (hs : s.rx.state = .idle) : rxByte b s = .next (s, .byteReceived) := by
  simp only [rxByte, hs]

theorem rxByte_of_finished (hs : s.rx.state = .finished) : rxByte b s = .next (s, .frameFinished) := by
  simp only [rxByte, hs]

theorem rxByte_of_sof_match (hs : s.rx.state = .sof) (hc : s.cfg.ctl[idSOF]? = some b) :
    rxByte b s = .next ({ s with rx.pos := 0, rx.state := .data }, .byteReceived) := by
  simp only [rxByte, hs, rxSof, readCtl_eq_next.mpr hc, andThen_next, if_true]

theorem rxByte_of_sof_other (hs : s.rx.state = .sof) (hc : s.cfg.ctl[idSOF]? = some c) (hb : b ≠ c) :
    rxByte b s = .next (s, .byteReceived) := by
  simp only [rxByte, hs, rxSof, readCtl_eq_next.mpr hc, andThen_next, if_neg hb]

/-- SOF in DATA starts the frame again in place (R174). -/
theorem rxByte_of_data_sof (hs : s.rx.state = .data) (h0 : s.cfg.ctl[idSOF]? = some b) :
    rxByte b s = .next ({ s with rx.pos := 0 }, .byteReceived) := by
  simp only [rxByte, hs, rxData, readCtl_eq_next.mpr h0, andThen_next, if_true]

theorem rxByte_of_data_esc (hs : s.rx.state = .data) (h0 : s.cfg.ctl[idSOF]? = some sof)
    (h1 : s.cfg.ctl[idESC]? = some b) (hb : b ≠ sof) :
    rxByte b s = .next ({ s with rx.state := .esc }, .byteReceived) := by
  simp only [rxByte, hs, rxData, readCtl_eq_next.mpr h0, readCtl_eq_next.mpr h1, andThen_next, if_neg hb, if_true]

theorem rxByte_of_data_eof (hs : s.rx.state = .data) (h0 : s.cfg.ctl[idSOF]? = some sof)
    (h1 : s.cfg.ctl[idESC]? = some esc) (h2 : s.cfg.ctl[idEOF]? = some b) (hb0 : b ≠ sof) (hb1 : b ≠ esc) :
    rxByte b s =
      .next ({ s with rx.len := s.rx.pos, rx.state := .finished, written.rxLen := true }, .frameFinished) := by
  simp only [rxByte, hs, rxData, readCtl_eq_next.mpr h0, readCtl_eq_next.mpr h1, readCtl_eq_next.mpr h2, andThen_next,
    if_neg hb0, if_neg hb1, if_true]

/-- Any other byte in DATA goes to RxStore (R177). -/
theorem rxByte_of_data_other (hs : s.rx.state = .data) (h0 : s.cfg.ctl[idSOF]? = some sof)
    (h1 : s.cfg.ctl[idESC]? = some esc) (h2 : s.cfg.ctl[idEOF]? = some eof) (hb0 : b ≠ sof) (hb1 : b ≠ esc)
    (hb2 : b ≠ eof) (ht : rxStore b s = .next t) : rxByte b s = .next (t, .byteReceived) := by
  simp only [rxByte, hs, rxData, readCtl_eq_next.mpr h0, readCtl_eq_next.mpr h1, readCtl_eq_next.mpr h2, andThen_next,
    if_neg hb0, if_neg hb1, if_neg hb2, ht]

/-- In ESC what the byte stands for goes to RxStore, from DATA (R179). -/
theorem rxByte_of_esc (hs : s.rx.state = .esc) (hv : unescape b s = .next v)
    (ht : rxStore v { s with rx.state := .data } = .next t) : rxByte b s = .next (t, .byteReceived) := by
  simp only [rxByte, hs, rxEsc, hv, andThen_next, ht]

theorem rxByte_of_error_eof (hs : s.rx.state = .error) (h2 : s.cfg.ctl[idEOF]? = some b) :
    rxByte b s = .next (leaveError s, .frameFinished) := by
  simp only [rxByte, hs, rxError, readCtl_eq_next.mpr h2, andThen_next, if_true]

theorem rxByte_of_error_other (hs : s.rx.state = .error) (h2 : s.cfg.ctl[idEOF]? = some c) (hb : b ≠ c) :
    rxByte b s = .next (s, .byteReceived) := by
  simp only [rxByte, hs, rxError, readCtl_eq_next.mpr h2, andThen_next, if_neg hb]

/-! ### RXBYTE as an operation -/

theorem exec_rxbyte_of_rxByte {st : Status} (h : rxByte b s = .next (u, st)) :
    exec (.rxbyte b) s = .next (respond st u) :=
  andThen_eq_next.mpr ⟨_, h, rfl⟩

/-- Settles O22: the three states that discard, ERROR by whether the byte is EOF. -/
theorem rxbyteDiscards : Obligations.RxbyteDiscards := by
  intro s b
  refine ⟨fun hs => exec_rxbyte_of_rxByte (rxByte_of_idle hs),
    fun hs => exec_rxbyte_of_rxByte (rxByte_of_finished hs), fun c hs h2 => ⟨?_, fun hb => ?_⟩⟩
  · rintro rfl
    exact exec_rxbyte_of_rxByte (rxByte_of_error_eof hs h2)
  · exact exec_rxbyte_of_rxByte (rxByte_of_error_other hs h2 hb)

/-- Settles O23: by whether the byte is SOF. -/
theorem rxbyteHuntsForSof : Obligations.RxbyteHuntsForSof := by
  intro s b c hs h0
  refine ⟨?_, fun hb => exec_rxbyte_of_rxByte (rxByte_of_sof_other hs h0 hb)⟩
  rintro rfl
  exact exec_rxbyte_of_rxByte (rxByte_of_sof_match hs h0)

/-- Settles O24: SOF is compared before ESC, and neither asks for room. -/
theorem rxbyteControlByteInData : Obligations.RxbyteControlByteInData := by
  intro s b sof esc hs h0 h1
  constructor
  · rintro rfl
    exact exec_rxbyte_of_rxByte (rxByte_of_data_sof hs h0)
  · rintro hb rfl
    exact exec_rxbyte_of_rxByte (rxByte_of_data_esc hs h0 h1 hb)

/-- Settles O25: EOF is compared after SOF and ESC. -/
theorem rxbyteFinishesTheFrame : Obligations.RxbyteFinishesTheFrame :=
  fun _ _ _ _ hs h0 h1 h2 hb0 hb1 => exec_rxbyte_of_rxByte (rxByte_of_data_eof hs h0 h1 h2 hb0 hb1)

/-- Settles O26: by whether the cursor is below the capacity. -/
theorem rxStoreStoresOrOverflows : Obligations.RxStoreStoresOrOverflows :=
  fun _ _ => ⟨rxStore_room, rxStore_full⟩

/-- Settles O27: a byte that is no control byte is what RxStore stores or overflows on. -/
theorem rxbyteStoresADataByte : Obligations.RxbyteStoresADataByte := by
  intro s b sof esc eof hs h0 h1 h2 hb0 hb1 hb2
  exact ⟨fun hp ha => exec_rxbyte_of_rxByte (rxByte_of_data_other hs h0 h1 h2 hb0 hb1 hb2 (rxStore_room hp ha)),
    fun hp => exec_rxbyte_of_rxByte (rxByte_of_data_other hs h0 h1 h2 hb0 hb1 hb2 (rxStore_full hp))⟩

/-- Settles O28: the tables resolve the byte, and what it stands for is stored, or overflows, from DATA. -/
theorem rxbyteUnescapes : Obligations.RxbyteUnescapes := by
  intro s b v hs hresolved
  have hv : unescape b s = .next v := by
    obtain ⟨i, hl, hi⟩ | ⟨hl, hn, rfl⟩ := hresolved
    · exact unescape_match hl hi
    · exact unescape_raw hl hn
  exact ⟨fun hp ha => exec_rxbyte_of_rxByte
      (rxByte_of_esc hs hv (rxStore_room (s := { s with rx.state := .data }) hp ha)),
    fun hp => exec_rxbyte_of_rxByte (rxByte_of_esc hs hv (rxStore_full (s := { s with rx.state := .data }) hp))⟩

end Sys2Proof.Machine
end

section
/-! PROOFS. SUPPLY (R170) and GETRX (R183). -/
namespace Sys2Proof.Machine

variable {s : State} {pduNull : Bool} {data cap : Nat}

theorem supplyAllowed_iff {st : RxState} : supplyAllowed st = true ↔ st = .idle ∨ st = .finished := by
  cases st <;> simp [supplyAllowed]

/-- SUPPLY's guard is the five conditions of R170. -/
theorem supplyGuard_iff :
    (supplyAllowed s.rx.state && (pduAccepted pduNull data cap && s.bound)) = true ↔
      (s.rx.state = .idle ∨ s.rx.state = .finished) ∧ pduNull = false ∧ data ≠ 0 ∧ cap ≠ 0 ∧ s.bound = true := by
  rw [Bool.and_eq_true, Bool.and_eq_true, supplyAllowed_iff, pduAccepted_iff, and_assoc, and_assoc]

/-- Settles O21: the guard's two values. -/
theorem supplyResult : Obligations.SupplyResult :=
  fun _ _ _ _ => ⟨fun h => if_pos (supplyGuard_iff.mpr h), fun h => if_neg (mt supplyGuard_iff.mp h)⟩

theorem rxStatus_eq (st : RxState) :
    rxStatus st = if st = .finished then .frameFinished else if st = .idle then .ok else .pending := by
  cases st <;> rfl

/-- Settles O29: a report is a function of `rx_state`. -/
theorem getrxResult : Obligations.GetrxResult := by
  intro s
  rw [← rxStatus_eq]
  rfl

end Sys2Proof.Machine
end

section
/-! PROOFS. The receive transition relation (R181): every change of `rx_state` is one of its rows. -/
namespace Sys2Proof.Machine

/-- A row of the receive table (R171, R181) along which `b` leads from `rx` under configuration `c` to state `st`. -/
def RxRow (c : CfgRegs) (rx : RxRegs) (b : Byte) (st : RxState) : Prop :=
  (rx.state = .sof ∧ c.ctl[0]? = some b ∧ st = .data) ∨
  (rx.state = .data ∧ c.ctl[0]? ≠ some b ∧ c.ctl[1]? = some b ∧ st = .esc) ∨
  (rx.state = .data ∧ c.ctl[0]? ≠ some b ∧ c.ctl[1]? ≠ some b ∧ c.ctl[2]? = some b ∧ st = .finished) ∨
  (rx.state = .data ∧ c.ctl[0]? ≠ some b ∧ c.ctl[1]? ≠ some b ∧ c.ctl[2]? ≠ some b ∧ rx.cap ≤ rx.pos ∧ st = .error) ∨
  (rx.state = .esc ∧ rx.pos < rx.cap ∧ st = .data) ∨
  (rx.state = .esc ∧ rx.cap ≤ rx.pos ∧ st = .error) ∨
  (rx.state = .error ∧ c.ctl[2]? = some b ∧ st = .idle)

variable {s t : State} {b : Byte} {r : RxResult}

/-- A control value that was read and is not `b`. -/
theorem ctl_ne_some_of_readCtl {i : Nat} {x : Byte} (h : readCtl i s = .next x) (hb : b ≠ x) :
    s.cfg.ctl[i]? ≠ some b := by
  rw [readCtl_eq_next.mp h]
  exact fun he => hb (Option.some.inj he).symm

theorem rxData_row_of_ne (hs : s.rx.state = .data) (h : rxData b s = .next r) (hne : r.1.rx.state ≠ s.rx.state) :
    RxRow s.cfg s.rx b r.1.rx.state := by
  obtain ⟨sof, h0, ⟨-, rfl⟩ | ⟨hb0, esc, h1, ⟨rfl, rfl⟩ | ⟨hb1, eof, h2, ⟨rfl, rfl⟩ | ⟨hb2, t, ht, rfl⟩⟩⟩⟩ :=
    rxData_cases h
  · exact absurd rfl hne
  · exact .inr (.inl ⟨hs, ctl_ne_some_of_readCtl h0 hb0, readCtl_eq_next.mp h1, rfl⟩)
  · exact .inr (.inr (.inl
      ⟨hs, ctl_ne_some_of_readCtl h0 hb0, ctl_ne_some_of_readCtl h1 hb1, readCtl_eq_next.mp h2, rfl⟩))
  · obtain ⟨-, -, rfl⟩ | ⟨hfull, rfl⟩ := rxStore_cases ht
    · exact absurd rfl hne
    · exact .inr (.inr (.inr (.inl ⟨hs, ctl_ne_some_of_readCtl h0 hb0, ctl_ne_some_of_readCtl h1 hb1,
        ctl_ne_some_of_readCtl h2 hb2, Nat.le_of_not_lt hfull, rfl⟩)))

/-- The second byte of an escape pair always changes the state: to DATA, or to ERROR over it (C9). -/
theorem rxEsc_row (hs : s.rx.state = .esc) (h : rxEsc b s = .next r) : RxRow s.cfg s.rx b r.1.rx.state := by
  obtain ⟨v, t, -, ht, rfl⟩ := rxEsc_cases h
  obtain ⟨hroom, -, rfl⟩ | ⟨hfull, rfl⟩ := rxStore_cases ht
  · exact .inr (.inr (.inr (.inr (.inl ⟨hs, hroom, rfl⟩))))
  · exact .inr (.inr (.inr (.inr (.inr (.inl ⟨hs, Nat.le_of_not_lt hfull, rfl⟩)))))

/-- RXBYTE changes `rx_state` only along a row. -/
theorem rxByte_row_of_ne (h : rxByte b s = .next r) (hne : r.1.rx.state ≠ s.rx.state) :
    RxRow s.cfg s.rx b r.1.rx.state := by
  obtain ⟨-, rfl⟩ | ⟨-, rfl⟩ | ⟨hs, c, h0, ⟨rfl, rfl⟩ | ⟨-, rfl⟩⟩ | ⟨hs, h⟩ | ⟨hs, h⟩ |
    ⟨hs, c, h2, ⟨rfl, rfl⟩ | ⟨-, rfl⟩⟩ := rxByte_cases h
  · exact absurd rfl hne
  · exact absurd rfl hne
  · exact .inl ⟨hs, readCtl_eq_next.mp h0, rfl⟩
  · exact absurd rfl hne
  · exact rxData_row_of_ne hs h hne
  · exact rxEsc_row hs h
  · exact .inr (.inr (.inr (.inr (.inr (.inr ⟨hs, readCtl_eq_next.mp h2, rfl⟩)))))
  · exact absurd rfl hne

/-- The receive half changes `rx_state` only along a row, of the byte it read (R212). -/
theorem rxHalf_row_of_ne (h : rxHalf s = .next t) (hne : t.rx.state ≠ s.rx.state) :
    ∃ b l, t.env.trace = s.env.trace ++ .tpRead s.handle (some b) :: l ∧ RxRow s.cfg s.rx b t.rx.state := by
  obtain ⟨-, rfl⟩ | ⟨-, -, rfl⟩ | ⟨-, b, u, st, hb, hu, rfl⟩ := rxHalf_cases h
  · exact absurd rfl hne
  · exact absurd (congrArg RxRegs.state (tpRead_rx s)) hne
  · obtain ⟨m, -, htrace⟩ := rxByte_trace hu
    have hrow := rxByte_row_of_ne hu (by simpa using hne)
    exact ⟨b, m, by simpa [hb] using htrace, by simpa using hrow⟩

/-- Settles O45: by what each operation can do; the guards of SUPPLY and CLRRX name the states they leave, and RXBYTE,
alone or in STEP, follows a row. -/
theorem receiveTransitionsComplete : Obligations.ReceiveTransitionsComplete := by
  intro i s t h hne
  cases exec_effect h with
  | answers => exact absurd rfl hne
  | configures => exact .inl ⟨⟨_, _, _, rfl⟩, rfl⟩
  | binds => exact absurd rfl hne
  | submits => exact absurd rfl hne
  | supplies allowed => exact .inr (.inl ⟨⟨_, _, _, rfl⟩, supplyAllowed_iff.mp allowed, rfl, rfl⟩)
  | clearsTx => exact absurd rfl hne
  | clearsRx finished => exact .inr (.inr (.inl ⟨rfl, finished, rfl⟩))
  | @steps _ u w hu hw =>
    obtain ⟨ku, hrx, -⟩ := txHalf_keeps hu
    obtain ⟨b, l, hread, hrow⟩ := rxHalf_row_of_ne hw (hrx ▸ hne)
    rw [hrx, ku.cfg] at hrow
    obtain ⟨c, m, x, -, -, -, hwrite⟩ := txHalf_trace hu
    rw [hwrite, List.append_assoc] at hread
    have hev := newEvents_of_trace (t := respond .ok w) hread
    exact .inr (.inr (.inr ⟨b, .inr ⟨rfl, by simp [hev, ku.handle]⟩, hrow⟩))
  | sends hu => exact absurd (congrArg RxRegs.state (txByte_keeps hu).rx) hne
  | receives hu => exact .inr (.inr (.inr ⟨_, .inl rfl, rxByte_row_of_ne hu hne⟩))

end Sys2Proof.Machine
end

section
/-! PROOFS. A frame received (R185, R186): the stuffing of a byte stores that byte, and so, by induction over the
payload, the frame stores its payload. -/
namespace Sys2Proof.Machine

variable {s t u r : State}

/-! ### Runs of RXBYTE that finish no frame -/

/-- RXBYTE fed `bs` leads from `s` to `t`, every call returning BYTE_RECEIVED. -/
def Accepts (s : State) (bs : List Byte) (t : State) : Prop :=
  rxFeed bs s = .next (t, List.replicate bs.length .byteReceived)

/-- Two runs of RXBYTE in a row are one run. -/
theorem rxFeed_append {bs cs : List Byte} {l k : List Status} (h : rxFeed bs s = .next (u, l))
    (hk : rxFeed cs u = .next (t, k)) : rxFeed (bs ++ cs) s = .next (t, l ++ k) := by
  induction bs generalizing s l with
  | nil =>
    cases h
    exact hk
  | cons b bs ih =>
    obtain ⟨a, ha, h⟩ := andThen_eq_next.mp h
    obtain ⟨q, hq, h⟩ := andThen_eq_next.mp h
    cases h
    rw [List.cons_append, rxFeed, ha, andThen_next, ih hq, andThen_next]
    rfl

theorem rxFeed_single {b : Byte} {st : Status} (h : rxByte b s = .next (t, st)) : rxFeed [b] s = .next (t, [st]) := by
  simp only [rxFeed, h, andThen_next]

theorem Accepts.append {bs cs : List Byte} (h : Accepts s bs u) (k : Accepts u cs t) : Accepts s (bs ++ cs) t := by
  unfold Accepts
  rw [List.length_append, ← List.replicate_append_replicate]
  exact rxFeed_append h k

theorem Accepts.single {b : Byte} (h : rxByte b s = .next (t, .byteReceived)) : Accepts s [b] t :=
  rxFeed_single h

/-! ### A legal configuration (R22) -/

variable {P : Params} {c : CfgRegs}

theorem CfgLegal.tablesReach (legal : CfgLegal P c) (hctl : c.ctl.length = P.nCtl) (hesc : c.esc.length = P.nCtl) :
    TablesReach c := by
  obtain ⟨h3, hn⟩ := legal.numInRange
  exact ⟨hctl ▸ h3.trans hn, hctl ▸ hn, hesc ▸ hn⟩

/-- Two identifiers have two control values. -/
theorem CfgLegal.ctl_getD_ne (legal : CfgLegal P c) (hc : TablesReach c) {i j : Nat} (hi : i < c.num) (hj : j < c.num)
    (hij : i ≠ j) : c.ctl.getD i 0 ≠ c.ctl.getD j 0 := fun he =>
  legal.ctlDistinct i hi j hj hij (by
    rw [getElem?_eq_some_getD (hi.trans_le hc.numCtl), getElem?_eq_some_getD (hj.trans_le hc.numCtl), he])

/-- The substitute of an identifier is looked up as that identifier. -/
theorem CfgLegal.lookupIn_substitute (legal : CfgLegal P c) (hc : TablesReach c) {i : Nat} (hi : i < c.num) :
    lookupIn c.esc c.num (c.esc.getD i 0) = some i := by
  have hentry := getElem?_eq_some_getD (hi.trans_le hc.numEsc)
  exact lookupIn_eq_some.mpr ⟨hi, hentry,
    fun j hj he => legal.escDistinct i hi j (hj.trans hi) (Nat.ne_of_gt hj) (hentry.trans he.symm)⟩

/-- A byte no lookup finds is no control value. -/
theorem ne_ctl_getD_of_lookupIn_none (hc : TablesReach c) {v : Byte} (hl : lookupIn c.ctl c.num v = none) {i : Nat}
    (hi : i < c.num) : v ≠ c.ctl.getD i 0 := fun he =>
  lookupIn_eq_none.mp hl i hi (by rw [getElem?_eq_some_getD (hi.trans_le hc.numCtl), he])

/-- The three control identifiers are identifiers, with their control values in the table. -/
theorem CfgLegal.control (legal : CfgLegal P c) (hc : TablesReach c) {i : Nat} (hi : i < 3) :
    i < c.num ∧ c.ctl[i]? = some (c.ctl.getD i 0) :=
  ⟨hi.trans_le legal.numInRange.1, getElem?_eq_some_getD (hi.trans_le hc.controls)⟩

/-! ### One payload byte -/

/-- In DATA, receiving the stuffing of `v` (R91) is RxStore of `v`: as it is, or by way of ESC. -/
theorem accepts_stuffOf (legal : CfgLegal P c) (hc : TablesReach c) (hcfg : s.cfg = c) (hs : s.rx.state = .data)
    {v : Byte} (ht : rxStore v s = .next t) : Accepts s (stuffOf c v) t := by
  subst hcfg
  obtain ⟨n0, h0⟩ := legal.control hc (i := idSOF) (by decide)
  obtain ⟨n1, h1⟩ := legal.control hc (i := idESC) (by decide)
  obtain ⟨n2, h2⟩ := legal.control hc (i := idEOF) (by decide)
  unfold stuffOf
  cases hl : lookupIn s.cfg.ctl s.cfg.num v with
  | none =>
    have hne {i : Nat} (hi : i < s.cfg.num) := ne_ctl_getD_of_lookupIn_none hc hl hi
    exact .single (rxByte_of_data_other hs h0 h1 h2 (hne n0) (hne n1) (hne n2) ht)
  | some i =>
    obtain ⟨hi, hv, -⟩ := lookupIn_eq_some.mp hl
    have hopen := rxByte_of_data_esc hs h0 h1 (legal.ctl_getD_ne hc n1 n0 (by decide))
    have hback : ({ s with rx.state := .data } : State) = s := by rw [← hs]
    have hsub : unescape (s.cfg.esc.getD i 0) { s with rx.state := .esc } = .next v :=
      unescape_match (legal.lookupIn_substitute hc hi) hv
    have hclose := rxByte_of_esc (s := { s with rx.state := .esc }) rfl hsub (hback ▸ ht)
    exact (Accepts.single hopen).append (.single hclose)

/-! ### The payload received so far -/

/-- The receiver that was armed as `r` is in DATA with `d` in its buffer, whose bytes are all placed. -/
structure Collecting (r : State) (d : List Byte) (s : State) : Prop where
  cfg    : s.cfg = r.cfg
  state  : s.rx.state = .data
  buf    : s.rx.buf = r.rx.buf
  cap    : s.rx.cap = r.rx.cap
  len    : s.rx.len = r.rx.len
  pos    : s.rx.pos = d.length
  holds  : holdsAt s.env.mem r.rx.buf d
  placed : bufferAt s.params s.env.mem r.rx.buf r.rx.cap

variable {d p : List Byte} {v : Byte}

/-- A payload in memory grows by the byte written behind it (R61). -/
theorem holdsAt_concat {m : Memory} {base : Nat} (h : holdsAt m base d) (v : Byte) :
    holdsAt (memPut m (base + d.length) v) base (d ++ [v]) := by
  intro i hi
  rw [List.length_append, List.length_singleton] at hi
  obtain hlt | rfl := Nat.lt_or_eq_of_le (Nat.le_of_lt_succ hi)
  · rw [memGet_memPut_other _ _ (by omega), List.getElem?_append_left hlt, h i hlt]
  · rw [memGet_memPut_same, List.getElem?_concat_length]

/-- A write leaves a buffer placed. -/
theorem bufferAt_memPut {m : Memory} {base n : Nat} (h : bufferAt P m base n) (a : Nat) (v : Byte) :
    bufferAt P (memPut m a v) base n := fun i hi =>
  ⟨(h i hi).1, memGet_memPut_isSome a v (h i hi).2⟩

/-- With room left, the byte stored is appended to those received. -/
theorem Collecting.store (h : Collecting r d s) (hroom : d.length < r.rx.cap) (v : Byte) :
    rxStore v s = .next (storedByte v s) ∧ Collecting r (d ++ [v]) (storedByte v s) := by
  obtain ⟨hcfg, hs, hbuf, hcap, hlen, hpos, hholds, hplaced⟩ := h
  have haddr : rxStoreAddr s = r.rx.buf + d.length := by rw [rxStoreAddr, hbuf, hpos]
  have hmem : (storedByte v s).env.mem = memPut s.env.mem (r.rx.buf + d.length) v := by rw [← haddr]; rfl
  refine ⟨rxStore_room (by omega) (haddr ▸ hplaced _ hroom), hcfg, hs, hbuf, hcap, hlen, ?pos, ?holds, ?placed⟩
  case pos =>
    rw [List.length_append, List.length_singleton, ← hpos]
    rfl
  case holds => exact hmem ▸ holdsAt_concat hholds v
  case placed => exact hmem ▸ bufferAt_memPut hplaced _ v

/-- A stuffed payload with room in the buffer is appended to what was received. -/
theorem Collecting.accepts_payload (legal : CfgLegal P r.cfg) (hc : TablesReach r.cfg) (h : Collecting r d s)
    (hroom : d.length + p.length ≤ r.rx.cap) :
    ∃ u, Accepts s (p.flatMap (stuffOf r.cfg)) u ∧ Collecting r (d ++ p) u := by
  induction p generalizing s d with
  | nil => exact ⟨s, rfl, by rwa [List.append_nil]⟩
  | cons v p ih =>
    rw [List.length_cons] at hroom
    obtain ⟨hstore, hnext⟩ := h.store (by omega) v
    have hbyte := accepts_stuffOf legal hc h.cfg h.state hstore
    obtain ⟨u, hu, hall⟩ := ih hnext (by rw [List.length_append, List.length_singleton]; omega)
    rw [List.flatMap_cons]
    exact ⟨u, hbyte.append hu, by rwa [List.append_cons]⟩

/-! ### The frame -/

/-- The frame of `p` up to its EOF: SOF and the stuffed payload (R90). -/
def openFrame (c : CfgRegs) (p : List Byte) : List Byte := c.ctl.getD idSOF 0 :: p.flatMap (stuffOf c)

theorem frameOf_eq_openFrame (c : CfgRegs) (p : List Byte) : frameOf c p = openFrame c p ++ [c.ctl.getD idEOF 0] := rfl

theorem openFrame_length (c : CfgRegs) (p : List Byte) : (openFrame c p).length = p.length + escapesIn c p + 1 := by
  rw [openFrame, List.length_cons, flatMap_stuffOf_length]

theorem openFrame_concat (c : CfgRegs) (p : List Byte) (v : Byte) :
    openFrame c (p ++ [v]) = openFrame c p ++ stuffOf c v := by
  simp [openFrame]

/-- An armed receiver with room for `p` has it in its buffer before the EOF of its frame. -/
theorem accepts_openFrame (legal : CfgLegal P r.cfg) (hc : TablesReach r.cfg) (hs : r.rx.state = .sof)
    (hbuf : bufferAt r.params r.env.mem r.rx.buf r.rx.cap) (hroom : p.length ≤ r.rx.cap) :
    ∃ u, Accepts r (openFrame r.cfg p) u ∧ Collecting r p u := by
  have hsof := rxByte_of_sof_match hs (legal.control hc (i := idSOF) (by decide)).2
  have hstart : Collecting r [] { r with rx.pos := 0, rx.state := .data } :=
    ⟨rfl, rfl, rfl, rfl, rfl, rfl, fun _ hi => absurd hi (Nat.not_lt_zero _), hbuf⟩
  obtain ⟨u, hu, hall⟩ := hstart.accepts_payload legal hc (p := p) (by rwa [List.length_nil, Nat.zero_add])
  exact ⟨u, (Accepts.single hsof).append hu, hall⟩

/-- EOF in DATA is neither SOF nor ESC, and finishes the frame (R176). -/
theorem rxByte_eof_of_data (legal : CfgLegal P c) (hc : TablesReach c) (hcfg : s.cfg = c) (hs : s.rx.state = .data) :
    rxByte (c.ctl.getD idEOF 0) s =
      .next ({ s with rx.len := s.rx.pos, rx.state := .finished, written.rxLen := true }, .frameFinished) := by
  subst hcfg
  obtain ⟨n0, h0⟩ := legal.control hc (i := idSOF) (by decide)
  obtain ⟨n1, h1⟩ := legal.control hc (i := idESC) (by decide)
  obtain ⟨n2, h2⟩ := legal.control hc (i := idEOF) (by decide)
  exact rxByte_of_data_eof hs h0 h1 h2 (legal.ctl_getD_ne hc n2 n0 (by decide)) (legal.ctl_getD_ne hc n2 n1 (by decide))

/-- What TXBYTE returned for a list of bytes holds those bytes. -/
theorem filterMap_returned (bs : List Byte) :
    (bs.map fun b => ((.ok, some b) : Status × Option Byte)).filterMap (fun x => x.2) = bs := by
  simp [List.filterMap_map]

/-- Settles O57: TXBYTE sends the frame of the payload, of which RXBYTE stores the payload before the EOF. -/
theorem roundTrip : Obligations.RoundTrip := by
  intro s₀ s r data p hsubmit hok hctl hesc legal hoff hspace hholds hcfg hs _ hroom hbuf
  have hc := legal.tablesReach hctl hesc
  obtain ⟨t, hsent, -, -⟩ :=
    wireSequenceOfAFrame s₀ s data p hsubmit hok hc.controls hc.numCtl hc.numEsc hoff hspace hholds
  rw [← hcfg] at legal hc hsent ⊢
  obtain ⟨u, hopen, hall⟩ := accepts_openFrame legal hc hs hbuf hroom
  have hfeed := rxFeed_append hopen (rxFeed_single (rxByte_eof_of_data legal hc hall.cfg hall.state))
  rw [← frameOf_eq_openFrame, openFrame_length] at hfeed
  rw [← filterMap_returned (frameOf r.cfg p)] at hfeed
  exact ⟨t, _, _, _, hsent, hfeed, rfl, hall.pos, hall.holds, rfl⟩

/-- Settles O58: all but the last payload byte fill the buffer, the last one overflows, and the EOF leaves ERROR. -/
theorem overflowBoundary : Obligations.OverflowBoundary := by
  intro r p hctl hesc legal hs _ hlen hbuf
  have hc := legal.tablesReach hctl hesc
  obtain rfl | ⟨d, v, rfl⟩ := List.eq_nil_or_concat' p
  · simp at hlen
  have hfills : d.length = r.rx.cap := by simpa using hlen
  obtain ⟨u, hopen, hfull⟩ := accepts_openFrame legal hc hs hbuf hfills.le
  have hover : rxStore v u = .next (enterError u) :=
    rxStore_full (by rw [hfull.pos, hfull.cap, hfills]; exact Nat.lt_irrefl _)
  have herror := hopen.append (accepts_stuffOf legal hc hfull.cfg hfull.state hover)
  have heof : rxByte (r.cfg.ctl.getD idEOF 0) (enterError u) = .next (leaveError (enterError u), .frameFinished) := by
    refine rxByte_of_error_eof rfl ?_
    rw [enterError_cfg, hfull.cfg]
    exact (legal.control hc (by decide)).2
  have hend := rxFeed_append herror (rxFeed_single heof)
  rw [frameOf_eq_openFrame, openFrame_concat, List.dropLast_concat, ← hfills, List.take_left]
  exact ⟨⟨_, _, herror, rfl, hfull.holds⟩, _, _, hend, rfl, rfl, hfull.len, List.getLast?_concat, hfull.holds⟩

end Sys2Proof.Machine
end

section
/-! PROOFS. STEP (R210 to R212): what its halves answer, as equations, and the statements that say so. -/
namespace Sys2Proof.Machine

variable {s t u : State} {b : Byte}

/-! ### The two halves -/

theorem txReady_iff {st : TxState} : txReady st = true ↔ st = .sof ∨ st = .data ∨ st = .esc ∨ st = .eof := by
  cases st <;> simp [txReady]

theorem txReady_eq_false_iff {st : TxState} : txReady st = false ↔ st = .config ∨ st = .idle ∨ st = .finished := by
  cases st <;> simp [txReady]

/-- With a frame in flight the transmit half writes TXBYTE's byte to the transport (R211). -/
theorem txHalf_of_txByte {st : Status} (hf : TxInFlight s) (h : txByte s = .next (u, st, some b)) :
    txHalf s = .next (tpWrite b u) := by
  simp only [txHalf, txReady_iff.mpr hf, if_true, h, andThen_next]

/-- A receiver that is not idle reads once and feeds the answer (R212). -/
theorem rxHalf_of_tpRead {a : Option Byte} (hi : s.rx.state ≠ .idle) (h : tpRead s = (a, t)) :
    rxHalf s = rxFeedAnswer a t := by
  simp only [rxHalf, if_neg hi, h]

theorem rxFeedAnswer_some {st : Status} (h : rxByte b s = .next (u, st)) :
    rxFeedAnswer (some b) s = .next { u with rxLast := st } := by
  simp only [rxFeedAnswer, h, andThen_next]

/-- STEP answers OK once both halves answered (R210). -/
theorem exec_step_of_halves (ht : txHalf s = .next t) (hr : rxHalf t = .next u) :
    exec .step s = .next (respond .ok u) := by
  simp only [exec, execStep, ht, hr, andThen_next]

/-- Settles O30: neither half does anything. -/
theorem stepCommandWithNothingToDo : Obligations.StepCommandWithNothingToDo :=
  fun _ hq hi => exec_step_of_halves (txHalf_of_quiet hq) (rxHalf_of_idle hi)

/-- The transport answers a write with the next scripted answer, when there is one (R215). -/
theorem drawWrite_of_script {a : Bool} {rest : List Bool} (h : s.env.writeAnswers = a :: rest) :
    (drawWrite s).1 = a := by
  simp only [drawWrite, h]

/-- Settles O31: the transmit half writes the byte that TXBYTE handed back; the receive half does nothing. -/
theorem stepCommandTransmitHalf : Obligations.StepCommandTransmitHalf := by
  intro s u st b hi hf hu hresponse
  obtain ⟨v, st', o, hv, rfl⟩ := exec_txbyte hu
  obtain ⟨rfl, rfl⟩ : st' = st ∧ o = some b := by simpa using hresponse
  have k : TxKeeps s v := txByte_keeps hv
  have hidle : (tpWrite b v).rx.state = .idle := by rw [tpWrite_rx, k.rx, hi]
  refine ⟨_, (drawWrite v).1, exec_step_of_halves (txHalf_of_txByte hf hv) (rxHalf_of_idle hidle), ?_,
    fun a r hscript => drawWrite_of_script (k.writes.trans hscript), ?_⟩
  · simp [tpWrite, k.handle]
  · simp [k.cfg, k.bound, k.handle, k.rx, k.rxLast]

/-- Settles O32: the read follows the transmit half, which leaves the receiver as it was; a byte it brought goes to
RXBYTE. -/
theorem stepCommandReceiveHalf : Obligations.StepCommandReceiveHalf := by
  intro s t r a hi ht hread
  have htransmit := ht.eq_txHalf
  obtain ⟨-, hrx, -⟩ := txHalf_keeps htransmit
  have hreceive := rxHalf_of_tpRead (hrx ▸ hi) hread.eq_tpRead
  refine ⟨?_, ?_⟩
  · rintro rfl
    exact exec_step_of_halves htransmit hreceive
  · rintro b u st rfl hu hresponse
    obtain ⟨v, st', hv, rfl⟩ := exec_rxbyte hu
    obtain rfl : st' = st := by simpa using hresponse
    exact exec_step_of_halves htransmit (hreceive.trans (rxFeedAnswer_some hv))

end Sys2Proof.Machine
end

section
/-! PROOFS. The requests of one STEP (R213, R214). -/
namespace Sys2Proof.Machine

/-- The transmit half asks the continuation, reads memory and writes to the transport at most once each. -/
theorem txHalf_requests {s t : State} (h : txHalf s = .next t) :
    ∃ a, t.env.trace = s.env.trace ++ a ∧ (∀ e ∈ a, e.isCont = true ∨ e.isMemRead = true ∨ e.isTpWrite = true) ∧
      a.countP Event.isCont ≤ 1 ∧ a.countP Event.isMemRead ≤ 1 ∧ a.countP Event.isTpWrite ≤ 1 := by
  obtain ⟨c, m, w, hc, hm, hw, htrace⟩ := txHalf_trace h
  refine ⟨c ++ m ++ w, htrace, ?_⟩
  obtain rfl | ⟨_, rfl⟩ := hc <;> obtain rfl | ⟨_, _, rfl⟩ := hm <;> obtain rfl | ⟨_, _, _, rfl⟩ := hw <;>
    simp [List.countP_cons, Event.isCont, Event.isMemRead, Event.isTpWrite]

/-- The receive half reads from the transport and writes memory at most once each. -/
theorem rxHalf_requests {s t : State} (h : rxHalf s = .next t) :
    ∃ b, t.env.trace = s.env.trace ++ b ∧ (∀ e ∈ b, e.isTpRead = true ∨ e.isMemWrite = true) ∧
      b.countP Event.isTpRead ≤ 1 ∧ b.countP Event.isMemWrite ≤ 1 := by
  obtain ⟨r, m, hr, hm, htrace⟩ := rxHalf_trace h
  refine ⟨r ++ m, htrace, ?_⟩
  obtain rfl | ⟨_, rfl⟩ := hr <;> obtain rfl | ⟨_, _, rfl⟩ := hm <;>
    simp [List.countP_cons, Event.isTpRead, Event.isMemWrite]

/-- Settles O49: the requests of the transmit half, then those of the receive half. -/
theorem stepRequestsAreBoundedAndOrdered : Obligations.StepRequestsAreBoundedAndOrdered := by
  intro s t h
  obtain ⟨u, w, hu, hw, rfl⟩ := execStep_cases h
  obtain ⟨a, htransmit, ha, hcont, hread, hwrite⟩ := txHalf_requests hu
  obtain ⟨b, hreceive, hb, hbytes, hstore⟩ := rxHalf_requests hw
  have htrace : w.env.trace = s.env.trace ++ (a ++ b) := by rw [hreceive, htransmit, List.append_assoc]
  exact ⟨a, b, htrace, ha, hb, hcont, hread, hwrite, hbytes, hstore⟩

end Sys2Proof.Machine
end

section
/-! PROOFS. STEP completes (R210 to R212): under the invariant both halves answer in every pair of sub-states (R216). -/
namespace Sys2Proof.Machine

variable {s t : State}

/-- Under the invariant every table entry a rule may read exists. -/
theorem ChanInv.tablesReach (h : ChanInv s) (hn : Configured s) : TablesReach s.cfg :=
  ⟨h.shape.ctl ▸ h.shape.params.1, h.shape.ctl ▸ hn, h.shape.esc ▸ hn⟩

theorem txHalf_completes (h : ChanInv s) (hn : Configured s) (hr : TxReadable s) : ∃ t, txHalf s = .next t := by
  cases hready : txReady s.tx.state with
  | false => exact ⟨s, txHalf_of_quiet (txReady_eq_false_iff.mp hready)⟩
  | true =>
    have hf : TxInFlight s := txReady_iff.mp hready
    have hs : s.tx.state = .sof ∨ s.tx.state = .data ∨ s.tx.state = .esc := by
      simpa [TxInFlight, h.coherent.notEof] using hf
    obtain ⟨u, b, hu⟩ := txByte_yields h hn hr hs
    exact ⟨_, txHalf_of_txByte hf hu⟩

/-- The transmit half leaves every placed byte placed. -/
theorem txHalf_placed {a : Nat} (h : txHalf s = .next t) (ha : placed s.params s.env.mem a) :
    placed t.params t.env.mem a := by
  obtain ⟨-, rfl⟩ | ⟨-, u, st, b, hu, rfl⟩ := txHalf_cases h
  · exact ha
  · have k : TxKeeps s u := txByte_keeps hu
    have hmem : u.env.mem = memPutAll s.env.mem (contWrites s) := txByte_mem hu
    rw [tpWrite_params, tpWrite_env_mem, k.params, hmem]
    exact ⟨ha.1, memGet_memPutAll_isSome _ ha.2⟩

/-- The transmit half leaves the receiver's next store possible. -/
theorem txHalf_rxWritable (h : txHalf s = .next t) (hw : RxWritable s) : RxWritable t := by
  obtain ⟨-, hrx, -⟩ := txHalf_keeps h
  intro hp
  rw [rxStoreAddr, hrx]
  exact txHalf_placed h (hw (hrx ▸ hp))

theorem rxStore_completes (h : RxWritable s) (v : Byte) : ∃ t, rxStore v s = .next t := by
  by_cases hp : s.rx.pos < s.rx.cap
  · exact ⟨_, rxStore_room hp (h hp)⟩
  · exact ⟨_, rxStore_full hp⟩

/-- With tables that reach, the second byte of an escape pair always stands for a byte. -/
theorem unescape_completes (hc : TablesReach s.cfg) (b : Byte) : ∃ v, unescape b s = .next v := by
  refine unescape_resolves ?_
  cases hl : lookupIn s.cfg.esc s.cfg.num b with
  | none => exact .inr ⟨rfl, hc.numEsc⟩
  | some i =>
    have hi : i < s.cfg.ctl.length := (lookupIn_lt hl).1.trans_le hc.numCtl
    exact .inl ⟨i, _, rfl, List.getElem?_eq_getElem hi⟩

/-- RXBYTE takes every byte in every state, if the tables reach and the byte it would store has a place. -/
theorem rxByte_completes (hc : TablesReach s.cfg) (hw : RxWritable s) (b : Byte) :
    ∃ u st, rxByte b s = .next (u, st) := by
  have hcontrol : ∀ i < 3, ∃ x, s.cfg.ctl[i]? = some x := fun i hi =>
    ⟨_, List.getElem?_eq_getElem (hi.trans_le hc.controls)⟩
  obtain ⟨sof, h0⟩ := hcontrol idSOF (by decide)
  obtain ⟨esc, h1⟩ := hcontrol idESC (by decide)
  obtain ⟨eof, h2⟩ := hcontrol idEOF (by decide)
  cases hs : s.rx.state with
  | idle => exact ⟨_, _, rxByte_of_idle hs⟩
  | finished => exact ⟨_, _, rxByte_of_finished hs⟩
  | sof =>
    by_cases hb : b = sof
    · exact ⟨_, _, rxByte_of_sof_match hs (hb ▸ h0)⟩
    · exact ⟨_, _, rxByte_of_sof_other hs h0 hb⟩
  | data =>
    by_cases hb0 : b = sof
    · exact ⟨_, _, rxByte_of_data_sof hs (hb0 ▸ h0)⟩
    by_cases hb1 : b = esc
    · exact ⟨_, _, rxByte_of_data_esc hs h0 (hb1 ▸ h1) hb0⟩
    by_cases hb2 : b = eof
    · exact ⟨_, _, rxByte_of_data_eof hs h0 h1 (hb2 ▸ h2) hb0 hb1⟩
    obtain ⟨t, ht⟩ := rxStore_completes hw b
    exact ⟨_, _, rxByte_of_data_other hs h0 h1 h2 hb0 hb1 hb2 ht⟩
  | esc =>
    obtain ⟨v, hv⟩ := unescape_completes hc b
    obtain ⟨t, ht⟩ := rxStore_completes (s := { s with rx.state := .data }) hw v
    exact ⟨_, _, rxByte_of_esc hs hv ht⟩
  | error =>
    by_cases hb : b = eof
    · exact ⟨_, _, rxByte_of_error_eof hs (hb ▸ h2)⟩
    · exact ⟨_, _, rxByte_of_error_other hs h2 hb⟩

theorem rxHalf_completes (hc : TablesReach s.cfg) (hw : RxWritable s) : ∃ t, rxHalf s = .next t := by
  by_cases hi : s.rx.state = .idle
  · exact ⟨s, rxHalf_of_idle hi⟩
  cases ha : (tpRead s).1 with
  | none => exact ⟨_, rxHalf_of_tpRead hi (Prod.ext ha rfl)⟩
  | some b =>
    have hw_read : RxWritable (tpRead s).2 := by simpa [RxWritable, rxStoreAddr] using hw
    obtain ⟨u, st, hu⟩ := rxByte_completes ((tpRead_cfg s).symm ▸ hc) hw_read b
    exact ⟨_, (rxHalf_of_tpRead hi (Prod.ext ha rfl)).trans (rxFeedAnswer_some hu)⟩

/-- Settles O33: the transmit half completes and leaves the tables and the store's place to the receive half. -/
theorem stepCommandCompletes : Obligations.StepCommandCompletes := by
  intro s h hn hr hw
  obtain ⟨t, ht⟩ := txHalf_completes h hn hr
  obtain ⟨k, -⟩ := txHalf_keeps ht
  obtain ⟨u, hu⟩ := rxHalf_completes (k.cfg ▸ h.tablesReach hn) (txHalf_rxWritable ht hw)
  exact ⟨_, exec_step_of_halves ht hu, rfl⟩

end Sys2Proof.Machine
end

section
/-! PROOFS. The answers to the transport's writes decide nothing (R211, R234): the parts of STEP do the same whatever
answers to writes are still to come and whatever the record holds. -/
namespace Sys2Proof.Machine

/-- `s` with `ws` as the answers to writes still to come and `l` as the record. -/
def relog (ws : List Bool) (l : List Event) (s : State) : State :=
  { s with env.writeAnswers := ws, env.trace := l }

/-- From `s` the part `f` answers `t`, wrapped as its result, and adds the same requests to the record, whatever answers
to writes are still to come and whatever the record holds. -/
def IgnoresWrites {α : Type} (f : State → Res α) (s : State) (wrap : State → α) (t : State) : Prop :=
  ∃ m, ∀ ws l, f (relog ws l s) = .next (wrap (relog ws (l ++ m) t))

/-- A part that makes no request. -/
theorem IgnoresWrites.silent {α : Type} {f : State → Res α} {s t : State} {wrap : State → α}
    (h : ∀ ws l, f (relog ws l s) = .next (wrap (relog ws l t))) : IgnoresWrites f s wrap t :=
  ⟨[], fun ws l => by rw [List.append_nil, h]⟩

/-- What stands in the script and the record of a state that is a relogged one. -/
theorem fields_of_eq_relog {ws : List Bool} {l : List Event} {s : State} (h : s = relog ws l s) :
    s.env.writeAnswers = ws ∧ s.env.trace = l :=
  ⟨congrArg (fun u : State => u.env.writeAnswers) h, congrArg (fun u : State => u.env.trace) h⟩

variable {s t : State} {b : Byte}

/-! ### The receive half -/

theorem tpRead_relog {a : Option Byte} (ha : (tpRead s).1 = a) (ws : List Bool) (l : List Event) :
    tpRead (relog ws l s) = (a, relog ws (l ++ [.tpRead s.handle a]) (tpRead s).2) := by
  subst ha
  simp only [tpRead, drawRead, relog]
  cases s.env.readAnswers <;> rfl

theorem rxStore_ignoresWrites {v : Byte} (h : rxStore v s = .next t) : IgnoresWrites (rxStore v) s id t := by
  obtain ⟨hp, ha, rfl⟩ | ⟨hp, rfl⟩ := rxStore_cases h
  · exact ⟨[.memWrite (rxStoreAddr s) v], fun ws l => rxStore_room (s := relog ws l s) hp ha⟩
  · exact .silent fun ws l => rxStore_full (s := relog ws l s) hp

theorem rxData_ignoresWrites {r : RxResult} (hs : s.rx.state = .data) (h : rxData b s = .next r) :
    IgnoresWrites (rxByte b) s (·, r.2) r.1 := by
  obtain ⟨sof, h0, ⟨rfl, rfl⟩ | ⟨hb0, esc, h1, ⟨rfl, rfl⟩ | ⟨hb1, eof, h2, ⟨rfl, rfl⟩ | ⟨hb2, t, ht, rfl⟩⟩⟩⟩ :=
    rxData_cases h
  · exact .silent fun ws l => rxByte_of_data_sof (s := relog ws l s) hs (readCtl_eq_next.mp h0)
  · exact .silent fun ws l =>
      rxByte_of_data_esc (s := relog ws l s) hs (readCtl_eq_next.mp h0) (readCtl_eq_next.mp h1) hb0
  · exact .silent fun ws l => rxByte_of_data_eof (s := relog ws l s) hs (readCtl_eq_next.mp h0)
      (readCtl_eq_next.mp h1) (readCtl_eq_next.mp h2) hb0 hb1
  · obtain ⟨m, hm⟩ := rxStore_ignoresWrites ht
    exact ⟨m, fun ws l => rxByte_of_data_other (s := relog ws l s) hs (readCtl_eq_next.mp h0) (readCtl_eq_next.mp h1)
      (readCtl_eq_next.mp h2) hb0 hb1 hb2 (hm ws l)⟩

theorem rxByte_ignoresWrites {r : RxResult} (h : rxByte b s = .next r) :
    IgnoresWrites (rxByte b) s (·, r.2) r.1 := by
  obtain ⟨hs, rfl⟩ | ⟨hs, rfl⟩ | ⟨hs, c, h0, ⟨rfl, rfl⟩ | ⟨hb, rfl⟩⟩ | ⟨hs, h⟩ | ⟨hs, h⟩ |
    ⟨hs, c, h2, ⟨rfl, rfl⟩ | ⟨hb, rfl⟩⟩ := rxByte_cases h
  · exact .silent fun ws l => rxByte_of_idle (s := relog ws l s) hs
  · exact .silent fun ws l => rxByte_of_finished (s := relog ws l s) hs
  · exact .silent fun ws l => rxByte_of_sof_match (s := relog ws l s) hs (readCtl_eq_next.mp h0)
  · exact .silent fun ws l => rxByte_of_sof_other (s := relog ws l s) hs (readCtl_eq_next.mp h0) hb
  · exact rxData_ignoresWrites hs h
  · obtain ⟨v, t, hv, ht, rfl⟩ := rxEsc_cases h
    obtain ⟨m, hm⟩ := rxStore_ignoresWrites ht
    exact ⟨m, fun ws l => rxByte_of_esc (s := relog ws l s) hs hv (hm ws l)⟩
  · exact .silent fun ws l => rxByte_of_error_eof (s := relog ws l s) hs (readCtl_eq_next.mp h2)
  · exact .silent fun ws l => rxByte_of_error_other (s := relog ws l s) hs (readCtl_eq_next.mp h2) hb

theorem rxHalf_ignoresWrites (h : rxHalf s = .next t) : IgnoresWrites rxHalf s id t := by
  obtain ⟨hi, rfl⟩ | ⟨hi, ha, rfl⟩ | ⟨hi, b, u, st, ha, hu, rfl⟩ := rxHalf_cases h
  · exact .silent fun ws l => rxHalf_of_idle (s := relog ws l t) hi
  · exact ⟨[.tpRead s.handle none], fun ws l => rxHalf_of_tpRead (s := relog ws l s) hi (tpRead_relog ha ws l)⟩
  · obtain ⟨m, hm⟩ := rxByte_ignoresWrites hu
    refine ⟨.tpRead s.handle (some b) :: m, fun ws l => ?_⟩
    have hfed := (rxHalf_of_tpRead (s := relog ws l s) hi (tpRead_relog ha ws l)).trans (rxFeedAnswer_some (hm _ _))
    rw [hfed, List.append_assoc]
    rfl

/-! ### TXBYTE -/

theorem contRequest_relog (ws : List Bool) (l : List Event) (s : State) :
    contRequest (relog ws l s) = ((contRequest s).1,
      relog ws (l ++ [.cont s.tx.data s.tx.len s.tx.pos (contRequest s).1]) (contRequest s).2) := by
  simp only [contRequest, drawCont, relog]
  cases s.env.contAnswers <;> rfl

theorem contSupplied_relog (ws : List Bool) (l : List Event) (s : State) :
    contSupplied (relog ws l s) = contSupplied s := by
  simp only [contSupplied, contRequest_relog]
  rfl

theorem afterCont_relog (s : State) : ∃ m, ∀ ws l, afterCont (relog ws l s) = relog ws (l ++ m) (afterCont s) := by
  cases hc : s.params.hasCont with
  | false =>
    refine ⟨[], fun ws l => ?_⟩
    rw [afterCont_off hc, afterCont_off (s := relog ws l s) hc, List.append_nil]
  | true =>
    refine ⟨[.cont s.tx.data s.tx.len s.tx.pos (contRequest s).1], fun ws l => ?_⟩
    have hr := contRequest_relog ws l s
    cases hm : (contRequest s).1.more with
    | false => rw [afterCont_declined hc hm, afterCont_declined (s := relog ws l s) hc (by rw [hr, hm]), hr]
    | true =>
      rw [afterCont_continued hc hm, afterCont_continued (s := relog ws l s) hc (by rw [hr, hm]), hr]
      rfl

theorem txTake_ignoresWrites {r : TxResult} (h : txTake s = .next r) : IgnoresWrites txTake s (·, r.2) r.1 := by
  obtain ⟨v, ha, hm, h⟩ := txTake_cases h
  refine ⟨[.memRead (s.tx.data + s.tx.pos) v], fun ws l => ?_⟩
  obtain ⟨hl, rfl⟩ | ⟨i, e, hl, he, rfl⟩ := h
  · obtain ⟨hl, hn⟩ := lookupCtl_eq_next.mp hl
    exact txTake_plain (s := relog ws l s) ha hm hl (hn rfl)
  · obtain ⟨hl, -⟩ := lookupCtl_eq_next.mp hl
    exact txTake_esc (s := relog ws l s) ha hm hl (readCtl_eq_next.mp he)

theorem txByte_ignoresWrites {r : TxResult} (h : txByte s = .next r) : IgnoresWrites txByte s (·, r.2) r.1 := by
  obtain ⟨k, hk⟩ := afterCont_relog s
  obtain ⟨hs, rfl⟩ | ⟨hs, b, hb, rfl⟩ | ⟨hs, hp, h⟩ | ⟨hs, hp, hc, h⟩ | ⟨hs, hp, hc, h⟩ | ⟨hs, b, hb, rfl⟩ | ⟨hs, h⟩ :=
    txByte_cases h
  · exact .silent fun ws l => txByte_of_quiet (s := relog ws l s) (txReady_eq_false_iff.mp hs)
  · exact .silent fun ws l => txByte_of_sof (s := relog ws l s) hs (readCtl_eq_next.mp hb)
  · obtain ⟨m, hm⟩ := txTake_ignoresWrites h
    exact ⟨m, fun ws l => (txByte_of_remaining (s := relog ws l s) hs hp).trans (hm ws l)⟩
  · obtain ⟨m, hm⟩ := txTake_ignoresWrites h
    refine ⟨k ++ m, fun ws l => ?_⟩
    rw [txByte_of_exhausted (s := relog ws l s) hs hp, contSupplied_relog, hc, if_pos rfl, hk, hm, List.append_assoc]
  · obtain ⟨e, he, rfl⟩ := txEnd_cases h
    refine ⟨k, fun ws l => ?_⟩
    have heof : s.cfg.ctl[idEOF]? = some e := (afterCont_keeps s).cfg ▸ readCtl_eq_next.mp he
    rw [txByte_of_ended (s := relog ws l s) hs hp ((contSupplied_relog ws l s).trans hc) heof, hk]
    rfl
  · exact .silent fun ws l => txByte_of_esc (s := relog ws l s) hs (readEsc_eq_next.mp hb)
  · obtain ⟨e, he, rfl⟩ := txEof_cases h
    exact .silent fun ws l => txByte_of_eof (s := relog ws l s) hs (readCtl_eq_next.mp he)

/-! ### STEP -/

/-- The transmit half of a frame in flight takes one answer off the script; that answer stands in its write alone. -/
theorem txHalf_of_script {x : Bool} {rest : List Bool} {l : List Event} (hf : TxInFlight s)
    (h : txHalf (relog (x :: rest) l s) = .next t) :
    ∃ m b, ∀ y, txHalf (relog (y :: rest) l s) = .next (relog rest (l ++ (m ++ [.tpWrite s.handle b y])) t) := by
  obtain ⟨hq, -⟩ | ⟨-, u, st, b, hu, rfl⟩ := txHalf_cases h
  · exact absurd (hq.symm.trans (txReady_iff.mpr hf)) Bool.false_ne_true
  have k : TxKeeps (relog (x :: rest) l s) u := txByte_keeps hu
  obtain ⟨m, hm⟩ := txByte_ignoresWrites hu
  refine ⟨m, b, fun y => ?_⟩
  have hwrite : tpWrite b u = relog rest (u.env.trace ++ [.tpWrite u.handle b x]) u := by
    simp only [tpWrite, drawWrite, k.writes]
    rfl
  have hy : txByte (relog (y :: rest) l s) = .next (relog (y :: rest) (l ++ m) u, st, some b) := hm (y :: rest) l
  have hhandle : u.handle = s.handle := k.handle
  rw [txHalf_of_txByte (s := relog (y :: rest) l s) hf hy, hwrite, ← List.append_assoc, ← hhandle]
  rfl

/-- STEP with another answer first in the write script: with no frame in flight the script is not touched; with one in
flight both scripts lose that answer, and the records differ in it alone. -/
theorem exec_step_of_script {x : Bool} {rest : List Bool} (h : exec .step (relog (x :: rest) s.env.trace s) = .next t)
    (y : Bool) :
    ∃ ws l, exec .step (relog (y :: rest) s.env.trace s) = .next (relog ws l t) ∧
      ((TxQuiet s ∧ l = t.env.trace ∧ t.env.writeAnswers = x :: rest ∧ ws = y :: rest) ∨
       (TxInFlight s ∧ t.env.writeAnswers = rest ∧ ws = rest ∧
        ∃ pre b post, t.env.trace = s.env.trace ++ (pre ++ .tpWrite s.handle b x :: post) ∧
          l = s.env.trace ++ (pre ++ .tpWrite s.handle b y :: post))) := by
  obtain ⟨v, w, hv, hw, rfl⟩ := execStep_cases h
  obtain ⟨n, hn⟩ := rxHalf_ignoresWrites hw
  cases hready : txReady s.tx.state with
  | false =>
    have hq : TxQuiet s := txReady_eq_false_iff.mp hready
    have hquiet : ∀ z, txHalf (relog (z :: rest) s.env.trace s) = .next (relog (z :: rest) s.env.trace s) :=
      fun z => txHalf_of_quiet hq
    cases hv.symm.trans (hquiet x)
    obtain ⟨hscript, hrecord⟩ := fields_of_eq_relog (Host.Outcome.next.inj (hw.symm.trans (hn _ _)))
    exact ⟨y :: rest, _, exec_step_of_halves (hquiet y) (hn _ _), .inl ⟨hq, hrecord.symm, hscript, rfl⟩⟩
  | true =>
    have hf : TxInFlight s := txReady_iff.mp hready
    obtain ⟨m, b, hm⟩ := txHalf_of_script hf hv
    have hv_relog := Host.Outcome.next.inj (hv.symm.trans (hm x))
    have hw_relog := hn rest (s.env.trace ++ (m ++ [.tpWrite s.handle b x]))
    rw [← hv_relog, hw] at hw_relog
    obtain ⟨hscript, hrecord⟩ := fields_of_eq_relog (Host.Outcome.next.inj hw_relog)
    exact ⟨rest, s.env.trace ++ (m ++ [Event.tpWrite s.handle b y]) ++ n, exec_step_of_halves (hm y) (hn _ _),
      .inr ⟨hf, hscript, rfl, m, b, n, by simp [hrecord], by simp⟩⟩

/-- Settles O50: the two next states differ in the write script and the record alone. -/
theorem writeFailureIsSwallowed : Obligations.WriteFailureIsSwallowed := by
  intro s x y rest t h
  obtain ⟨ws, l, hu, hrecord⟩ := exec_step_of_script h y
  exact ⟨_, hu, rfl, rfl, rfl, rfl, rfl, rfl, rfl, rfl, rfl, rfl, rfl, rfl, rfl, rfl, hrecord⟩

end Sys2Proof.Machine
end

section
/-! PROOFS. A frame sent by STEPs (R214, R278): with the receiver idle and no continuation attached, STEPs run as the
TXBYTE calls they make, so what those calls return is what STEPs write. -/
namespace Sys2Proof.Machine

variable {s s' t u : State} {b : Byte} {bs : List Byte}

/-- `s'` differs from `s` in the environment alone, and there not in memory. -/
def SameButPorts (s s' : State) : Prop := ∃ e : Env, s' = { s with env := e } ∧ e.mem = s.env.mem

theorem SameButPorts.refl (s : State) : SameButPorts s s := ⟨s.env, rfl, rfl⟩

theorem SameButPorts.trans (h : SameButPorts s t) (k : SameButPorts t u) : SameButPorts s u := by
  obtain ⟨e, rfl, he⟩ := h
  obtain ⟨f, rfl, hf⟩ := k
  exact ⟨f, rfl, hf.trans he⟩

/-- What a STEP adds to TXBYTE stays in the environment. -/
theorem sameButPorts_respond_tpWrite (st : Status) (b : Byte) (s : State) :
    SameButPorts s (respond st (tpWrite b s)) := by
  refine ⟨(respond st (tpWrite b s)).env, ?_, tpWrite_env_mem s b⟩
  simp only [tpWrite, drawWrite]
  cases s.env.writeAnswers <;> rfl

/-- Taking a payload byte reads nothing of the environment but memory. -/
theorem txTake_congr {r : TxResult} (hs : SameButPorts s s') (h : txTake s = .next r) :
    ∃ u, txTake s' = .next (u, r.2) ∧ SameButPorts r.1 u := by
  obtain ⟨e, rfl, he⟩ := hs
  obtain ⟨v, ha, hm, h⟩ := txTake_cases h
  rw [← he] at hm
  obtain ⟨hl, rfl⟩ | ⟨i, c, hl, hc, rfl⟩ := h
  · obtain ⟨hl, hn⟩ := lookupCtl_eq_next.mp hl
    exact ⟨_, txTake_plain (s := { s with env := e }) ha hm hl (hn rfl), _, rfl, he⟩
  · obtain ⟨hl, -⟩ := lookupCtl_eq_next.mp hl
    exact ⟨_, txTake_esc (s := { s with env := e }) ha hm hl (readCtl_eq_next.mp hc), _, rfl, he⟩

/-- With no continuation attached TXBYTE reads nothing of the environment but memory. -/
theorem txByte_congr {r : TxResult} (hoff : s.params.hasCont = false) (hs : SameButPorts s s')
    (h : txByte s = .next r) : ∃ u, txByte s' = .next (u, r.2) ∧ SameButPorts r.1 u := by
  have htake : txTake s = .next r → ∃ u, txTake s' = .next (u, r.2) ∧ SameButPorts r.1 u := txTake_congr hs
  obtain ⟨e, rfl, he⟩ := hs
  have hoff' : ({ s with env := e } : State).params.hasCont = false := hoff
  obtain ⟨hs, rfl⟩ | ⟨hs, b, hb, rfl⟩ | ⟨hs, hp, h⟩ | ⟨-, -, hc, -⟩ | ⟨hs, hp, -, h⟩ | ⟨hs, b, hb, rfl⟩ | ⟨hs, h⟩ :=
    txByte_cases h
  · exact ⟨_, txByte_of_quiet (s := { s with env := e }) (txReady_eq_false_iff.mp hs), e, rfl, he⟩
  · exact ⟨_, txByte_of_sof (s := { s with env := e }) hs (readCtl_eq_next.mp hb), e, rfl, he⟩
  · rw [txByte_of_remaining (s := { s with env := e }) hs hp]
    exact htake h
  · exact absurd ((contSupplied_off hoff).symm.trans hc) Bool.false_ne_true
  · rw [afterCont_off hoff] at h
    obtain ⟨c, heof, rfl⟩ := txEnd_cases h
    have hend := txByte_of_ended (s := { s with env := e }) hs hp (contSupplied_off hoff') (readCtl_eq_next.mp heof)
    rw [afterCont_off hoff'] at hend
    exact ⟨_, hend, e, rfl, he⟩
  · exact ⟨_, txByte_of_esc (s := { s with env := e }) hs (readEsc_eq_next.mp hb), e, rfl, he⟩
  · obtain ⟨c, heof, rfl⟩ := txEof_cases h
    exact ⟨_, txByte_of_eof (s := { s with env := e }) hs (readCtl_eq_next.mp heof), e, rfl, he⟩

/-! ### The requests of such a STEP -/

theorem wireBytes_append (l m : List Event) : wireBytes (l ++ m) = wireBytes l ++ wireBytes m := by
  induction l with
  | nil => rfl
  | cons e l ih => cases e <;> simp [wireBytes, ih]

/-- A TXBYTE that hands back a byte found a frame in flight (R142). -/
theorem txInFlight_of_txByte {st : Status} (h : txByte s = .next (u, st, some b)) : TxInFlight s := by
  cases hready : txReady s.tx.state with
  | true => exact txReady_iff.mp hready
  | false =>
    rw [txByte_of_quiet (txReady_eq_false_iff.mp hready)] at h
    cases h

/-- With the receiver idle a STEP is TXBYTE and the write of its byte (R211). -/
theorem exec_step_of_txByte {st : Status} (hi : s.rx.state = .idle) (h : txByte s = .next (u, st, some b)) :
    exec .step s = .next (respond .ok (tpWrite b u)) := by
  have k : TxKeeps s u := txByte_keeps h
  exact exec_step_of_halves (txHalf_of_txByte (txInFlight_of_txByte h) h)
    (rxHalf_of_idle (by rw [tpWrite_rx, k.rx, hi]))

/-- Of the requests of TXBYTE and the write of its byte, that byte alone is on the wire. -/
theorem tpWrite_trace_of_txByte {st : Status} (h : txByte s = .next (u, st, some b)) :
    ∃ es, (tpWrite b u).env.trace = s.env.trace ++ es ∧ wireBytes es = [b] := by
  obtain ⟨l, m, hl, hm, htrace⟩ := txByte_trace h
  have htrace : u.env.trace = s.env.trace ++ (l ++ m) := htrace
  refine ⟨l ++ m ++ [.tpWrite u.handle b (drawWrite u).1], by simp [tpWrite, htrace], ?_⟩
  obtain rfl | ⟨_, rfl⟩ := hl <;> obtain rfl | ⟨_, _, rfl⟩ := hm <;> rfl

/-! ### Runs of STEP -/

/-- As many STEPs as `bs` has bytes write exactly these to the transport in order and lead from `s` to `t`; after fewer
the frame is not finished. -/
def Transmits (s : State) (bs : List Byte) (t : State) : Prop :=
  stepRun bs.length s = .next t ∧ (∃ es, t.env.trace = s.env.trace ++ es ∧ wireBytes es = bs) ∧
    ∀ k < bs.length, ∃ u, stepRun k s = .next u ∧ u.tx.state ≠ .finished

/-- A run of TXBYTE that returns a byte first returns it by a call, and goes on from there. -/
theorem Emits.uncons (h : Emits s (b :: bs) t) : ∃ u, txByte s = .next (u, .ok, some b) ∧ Emits u bs t := by
  obtain ⟨⟨u, r⟩, hr, h⟩ := andThen_eq_next.mp h
  obtain ⟨⟨v, q⟩, hq, h⟩ := andThen_eq_next.mp h
  cases h
  exact ⟨u, hr, hq⟩

/-- One more STEP in front of a run. -/
theorem Transmits.cons (hi : s.rx.state = .idle) (h : txByte s = .next (u, .ok, some b))
    (k : Transmits (respond .ok (tpWrite b u)) bs t) : Transmits s (b :: bs) t := by
  have hstep := exec_step_of_txByte hi h
  have hrun : ∀ n, stepRun (n + 1) s = stepRun n (respond .ok (tpWrite b u)) := fun n => by
    rw [stepRun, hstep, andThen_next]
  obtain ⟨hk, ⟨es, htrace, hes⟩, hfewer⟩ := k
  obtain ⟨fs, hfirst, hfs⟩ := tpWrite_trace_of_txByte h
  refine ⟨(hrun _).trans hk, ⟨fs ++ es, ?_, by rw [wireBytes_append, hfs, hes, List.singleton_append]⟩, ?_⟩
  · rw [htrace, respond_env_trace, hfirst, List.append_assoc]
  · rintro (_ | n) hn
    · refine ⟨s, rfl, fun hfin => ?_⟩
      have hf := txReady_iff.mpr (txInFlight_of_txByte h)
      rw [hfin] at hf
      cases hf
    · obtain ⟨v, hv, hne⟩ := hfewer n (Nat.lt_of_succ_lt_succ hn)
      exact ⟨v, (hrun n).trans hv, hne⟩

/-- STEPs simulate the calls of TXBYTE: what a run of these returns, as many STEPs write. -/
theorem Emits.transmits (hoff : s.params.hasCont = false) (hi : s.rx.state = .idle) (h : Emits s bs t)
    (hs : SameButPorts s s') : ∃ t', Transmits s' bs t' ∧ SameButPorts t t' := by
  induction bs generalizing s s' with
  | nil =>
    cases h
    exact ⟨s', ⟨rfl, ⟨[], (List.append_nil _).symm, rfl⟩, fun _ hk => absurd hk (Nat.not_lt_zero _)⟩, hs⟩
  | cons b bs ih =>
    obtain ⟨u, hu, hrest⟩ := h.uncons
    have k : TxKeeps s u := txByte_keeps hu
    obtain ⟨u', hu', hsame⟩ := txByte_congr hoff hs hu
    have hstepped := hsame.trans (sameButPorts_respond_tpWrite .ok b u')
    obtain ⟨t', ht', hend⟩ := ih (k.params ▸ hoff) (k.rx ▸ hi) hrest hstepped
    have hi' : s'.rx.state = .idle := by obtain ⟨e, rfl, -⟩ := hs; exact hi
    exact ⟨t', ht'.cons hi' hu', hend⟩

/-- Settles O56: the STEPs simulate the calls of TXBYTE that return the frame (R152). -/
theorem frameIsSentInExactlySoManySteps : Obligations.FrameIsSentInExactlySoManySteps := by
  intro s₀ s data p hsubmit hok h3 hctl hesc hoff hspace hholds hi
  obtain ⟨t, hpull, hfin, -⟩ := wireSequenceOfAFrame s₀ s data p hsubmit hok h3 hctl hesc hoff hspace hholds
  have hlength := (frameLength s.cfg p).1
  have hframe : Emits s (frameOf s.cfg p) t := by rwa [Emits, hlength]
  obtain ⟨t', ⟨hrun, ⟨es, htrace, hwire⟩, hfewer⟩, hend⟩ := hframe.transmits hoff hi (.refl s)
  rw [hlength] at hrun hfewer
  have hfin' : t'.tx.state = .finished := by obtain ⟨e, rfl, -⟩ := hend; exact hfin
  exact ⟨⟨t', hrun, hfin', by rw [newEvents_of_trace htrace, hwire]⟩, hfewer⟩

end Sys2Proof.Machine
end

section
/-! PROOFS. INVALID_ARGUMENT and its causes (R231): a refused command is its guard's other value, and TXBYTE, RXBYTE and
the commands without a guard never answer it. -/
namespace Sys2Proof.Machine

variable {s t u : State}

/-- The last operation answered INVALID_ARGUMENT. -/
def RespondsInvalid (t : State) : Prop := ∃ o, t.env.response = some { status := .invalidArgument, byte := o }

/-- From `s` to `t` INVALID_ARGUMENT was answered exactly for cause `c`, and then nothing but the response changed. -/
def InvalidExactlyIf (c : Prop) (s t : State) : Prop :=
  (RespondsInvalid t ↔ c) ∧ (RespondsInvalid t → t = respond .invalidArgument s)

/-- An answer with another status. -/
theorem invalidExactlyIf_false {st : Status} {o : Option Byte} (hr : t.env.response = some { status := st, byte := o })
    (hst : st ≠ .invalidArgument) : InvalidExactlyIf False s t := by
  have hno : ¬ RespondsInvalid t := by
    rintro ⟨o', ho⟩
    rw [hr, Option.some.injEq, Response.mk.injEq] at ho
    exact hst ho.1
  exact ⟨iff_false_intro hno, fun h => absurd h hno⟩

/-- A reserved opcode refuses in every state (R98). -/
theorem invalidExactlyIf_true (s : State) : InvalidExactlyIf True s (respond .invalidArgument s) :=
  ⟨iff_true_intro ⟨none, rfl⟩, fun _ => rfl⟩

/-- A command with a guard refuses exactly for the causes that deny the guard (R121, R140, R170). -/
theorem invalidExactlyIf_of_guard {c d : Prop} [Decidable c] (hd : ¬ c ↔ d)
    (h : (if c then .next (respond .ok u) else .next (respond .invalidArgument s) : Res State) = .next t) :
    InvalidExactlyIf d s t := by
  rw [← hd]
  obtain ⟨hc, rfl⟩ | ⟨hc, rfl⟩ := ite_next_cases h
  · simpa [hc] using invalidExactlyIf_false (s := s) (t := respond .ok u) rfl (by decide)
  · simpa [hc] using invalidExactlyIf_true s

/-! ### The causes -/

theorem not_bindAllowed_iff {st : TxState} :
    ¬ bindAllowed st = true ↔ st = .sof ∨ st = .data ∨ st = .esc ∨ st = .eof := by
  rw [Bool.not_eq_true, bindAllowed_eq_false_iff]

/-- The five causes for which SUBMIT is refused: the guard of R140 denied. -/
theorem not_submitGuard_iff {n : Bool} {data len : Nat} :
    ¬ (submitAllowed s.tx.state && (pduAccepted n data len && s.bound)) = true ↔
      (s.tx.state ≠ .idle ∧ s.tx.state ≠ .finished) ∨ n = true ∨ data = 0 ∨ len = 0 ∨ s.bound = false := by
  simp only [submitGuard_iff, not_and_or, not_or, Bool.not_eq_false, not_not, ne_eq, Bool.not_eq_true]

/-- The five causes for which SUPPLY is refused: the guard of R170 denied. -/
theorem not_supplyGuard_iff {n : Bool} {data cap : Nat} :
    ¬ (supplyAllowed s.rx.state && (pduAccepted n data cap && s.bound)) = true ↔
      (s.rx.state ≠ .idle ∧ s.rx.state ≠ .finished) ∨ n = true ∨ data = 0 ∨ cap = 0 ∨ s.bound = false := by
  simp only [supplyGuard_iff, not_and_or, not_or, Bool.not_eq_false, not_not, ne_eq, Bool.not_eq_true]

/-- TXBYTE returns PENDING or OK (R141). -/
theorem txByte_status {r : TxResult} (h : txByte s = .next r) : r.2.1 = .pending ∨ r.2.1 = .ok := by
  have htake {w : State} (hw : txTake w = .next r) : r.2.1 = .ok := by
    obtain ⟨-, -, -, -, -, -, b, hb⟩ := txTake_facts hw
    rw [hb]
  obtain ⟨-, rfl⟩ | ⟨-, b, -, rfl⟩ | ⟨-, -, h⟩ | ⟨-, -, -, h⟩ | ⟨-, -, -, h⟩ | ⟨-, b, -, rfl⟩ | ⟨-, h⟩ := txByte_cases h
  · exact .inl rfl
  · exact .inr rfl
  · exact .inr (htake h)
  · exact .inr (htake h)
  · obtain ⟨e, -, rfl⟩ := txEnd_cases h
    exact .inr rfl
  · exact .inr rfl
  · obtain ⟨e, -, rfl⟩ := txEof_cases h
    exact .inr rfl

/-- Settles O47: operation by operation; a failed guard is the listed causes, every other answer has another status. -/
theorem invalidArgumentCauses : Obligations.InvalidArgumentCauses := by
  intro i s t h
  cases i with
  | bind => exact invalidExactlyIf_of_guard not_bindAllowed_iff h
  | submit => exact invalidExactlyIf_of_guard not_submitGuard_iff h
  | supply => exact invalidExactlyIf_of_guard not_supplyGuard_iff h
  | reserved0 => cases h; exact invalidExactlyIf_true s
  | reservedAB => cases h; exact invalidExactlyIf_true s
  | reservedCF => cases h; exact invalidExactlyIf_true s
  | configure => cases h; exact invalidExactlyIf_false rfl (by decide)
  | gettx =>
    obtain ⟨st, hr, rfl | rfl⟩ := statusesOfEachCommand _ s t rfl h <;>
      exact invalidExactlyIf_false hr (by decide)
  | clrtx =>
    obtain ⟨st, hr, rfl⟩ := statusesOfEachCommand _ s t rfl h
    exact invalidExactlyIf_false hr (by decide)
  | getrx =>
    obtain ⟨st, hr, rfl | rfl | rfl⟩ := statusesOfEachCommand _ s t rfl h <;>
      exact invalidExactlyIf_false hr (by decide)
  | clrrx =>
    obtain ⟨st, hr, rfl⟩ := statusesOfEachCommand _ s t rfl h
    exact invalidExactlyIf_false hr (by decide)
  | step =>
    obtain ⟨st, hr, rfl⟩ := statusesOfEachCommand _ s t rfl h
    exact invalidExactlyIf_false hr (by decide)
  | txbyte =>
    obtain ⟨u, st, o, hu, rfl⟩ := exec_txbyte h
    obtain rfl | rfl : st = .pending ∨ st = .ok := txByte_status hu <;> exact invalidExactlyIf_false rfl (by decide)
  | rxbyte =>
    obtain ⟨u, st, hu, rfl⟩ := exec_rxbyte h
    obtain rfl | rfl : st = .byteReceived ∨ st = .frameFinished := rxByte_status hu <;>
      exact invalidExactlyIf_false rfl (by decide)

end Sys2Proof.Machine
end

section
/-! PROOFS. The receiver in ERROR (R239, R240): it stores nothing, and besides CONFIGURE its exit is `leaveError`. -/
namespace Sys2Proof.Machine

variable {s t : State} {b : Byte}

/-- RXBYTE in ERROR keeps everything or leaves ERROR (R180). -/
theorem rxByte_eq_or_leaveError {r : RxResult} (hs : s.rx.state = .error) (h : rxByte b s = .next r) :
    r.1 = s ∨ r.1 = leaveError s := by
  have hcases := rxByte_cases h
  simp only [hs, reduceCtorEq, false_and, false_or, true_and] at hcases
  obtain ⟨c, -, ⟨-, rfl⟩ | ⟨-, rfl⟩⟩ := hcases
  · exact .inr rfl
  · exact .inl rfl

/-- The receive half in ERROR keeps memory, and the receive group but for leaving ERROR (R180, R212). -/
theorem rxHalf_of_error (hs : s.rx.state = .error) (h : rxHalf s = .next t) :
    t.env.mem = s.env.mem ∧ (t.rx = s.rx ∨ t.rx = (leaveError s).rx) := by
  obtain ⟨hi, -⟩ | ⟨-, -, rfl⟩ | ⟨-, b, u, st, -, hu, rfl⟩ := rxHalf_cases h
  · simp [hs] at hi
  · exact ⟨tpRead_env_mem s, .inl (tpRead_rx s)⟩
  · obtain rfl | rfl : u = (tpRead s).2 ∨ u = leaveError (tpRead s).2 := rxByte_eq_or_leaveError (by simpa using hs) hu
    · exact ⟨tpRead_env_mem s, .inl (tpRead_rx s)⟩
    · exact ⟨tpRead_env_mem s, .inr (by simp)⟩

/-- The only row of the receive table out of ERROR (R181). -/
theorem RxRow.of_error {c : CfgRegs} {rx : RxRegs} {st : RxState} (h : RxRow c rx b st) (hs : rx.state = .error) :
    c.ctl[2]? = some b ∧ st = .idle := by
  simpa [RxRow, hs] using h

variable {i : Instr}

/-- RXBYTE, alone or in STEP, leaves ERROR only with the position at 0 (R239). -/
theorem exec_rx_pos_of_error_left (hs : s.rx.state = .error) (hi : i = .rxbyte b ∨ i = .step)
    (h : exec i s = .next t) (hne : t.rx.state ≠ .error) : t.rx.pos = 0 := by
  have hrx : t.rx = s.rx ∨ t.rx = (leaveError s).rx := by
    obtain rfl | rfl := hi
    · obtain ⟨u, st, hu, rfl⟩ := exec_rxbyte h
      obtain rfl | rfl : u = s ∨ u = leaveError s := rxByte_eq_or_leaveError hs hu
      · exact .inl rfl
      · exact .inr rfl
    · obtain ⟨u, w, hu, hw, rfl⟩ := execStep_cases h
      obtain ⟨-, hrx, -⟩ := txHalf_keeps hu
      obtain ⟨-, hw⟩ := rxHalf_of_error (hrx ▸ hs) hw
      simpa [hrx] using hw
  obtain hrx | hrx := hrx
  · exact absurd (hrx ▸ hs) hne
  · exact congrArg RxRegs.pos hrx

/-- In ERROR no operation writes memory but through the continuation (R240). -/
theorem exec_mem_of_error (hs : s.rx.state = .error) (h : exec i s = .next t) {a : Nat}
    (ha : ∀ w ∈ contWrites s, w.1 ≠ a) : memGet t.env.mem a = memGet s.env.mem a := by
  cases exec_effect h with
  | answers => rfl
  | configures => rfl
  | binds => rfl
  | submits => rfl
  | supplies => rfl
  | clearsTx => rfl
  | clearsRx => rfl
  | @steps _ u w hu hw =>
    obtain ⟨-, hrx, -⟩ := txHalf_keeps hu
    obtain ⟨hmem, -⟩ := rxHalf_of_error (hrx ▸ hs) hw
    exact (congrArg (memGet · a) hmem).trans (txHalf_mem hu ha)
  | @sends _ u st o hu =>
    have hmem : u.env.mem = memPutAll s.env.mem (contWrites s) := txByte_mem hu
    exact hmem ▸ memGet_memPutAll_other _ _ ha
  | receives hu => obtain rfl | rfl := rxByte_eq_or_leaveError hs hu <;> rfl

/-- Settles O51: `rx_len` has its one writer in DATA (R30), the change of state is a row of R181, and in ERROR a
row other than CONFIGURE's is that of EOF. -/
theorem errorIsLeftOnlyByEofOrConfigure : Obligations.ErrorIsLeftOnlyByEofOrConfigure := by
  intro i s t hs h
  refine ⟨?len, fun a => exec_mem_of_error hs h, fun hne => ?left⟩
  case len =>
    by_contra hlen
    obtain ⟨-, hdata, -⟩ := rxLenWrittenOnlyOnEof i s t h hlen
    simp [hs] at hdata
  case left =>
    obtain ⟨hi, hidle⟩ | ⟨-, hsup, -⟩ | ⟨-, hclr, -⟩ | ⟨b, hi, hrow⟩ := receiveTransitionsComplete i s t h (hs ▸ hne)
    · exact ⟨hidle, .inl hi⟩
    · simp [hs] at hsup
    · simp [hs] at hclr
    · obtain ⟨heof, hidle⟩ := RxRow.of_error hrow hs
      exact ⟨hidle, .inr ⟨exec_rx_pos_of_error_left hs (hi.imp_right And.left) h hne, b, heof, hi⟩⟩

end Sys2Proof.Machine
end

section
/-! PROOFS. The step of the channel on its other inputs: none, the host's write, the reset input (R245, R69, R260). -/
namespace Sys2Proof.Machine

variable {s t : State} {rest : List Input}

/-- With no input the framer holds its state (R245). -/
theorem step_of_no_input (h : s.env.inputs = []) : step s = .next s := by
  simp only [step, nextInput, h]

/-- Inside the space the host's address is the address of the byte it writes (R69). -/
theorem step_of_hostWrite {a : Nat} {v : Byte} (h : s.env.inputs = .hostWrite a v :: rest)
    (ha : a < 2 ^ s.params.addrW) :
    step s = .next { s with env.inputs := rest, env.mem := memPut s.env.mem a v } := by
  simp only [step, nextInput, h, hostWrite, Nat.mod_eq_of_lt ha]

theorem step_of_reset (h : s.env.inputs = .reset :: rest) :
    step s = .next (hwReset { s with env.inputs := rest }) := by
  simp only [step, nextInput, h]

/-- Which elements count as written is read off the marks alone (R35). -/
theorem elementWritten_congr (h : s.written = t.written) (e : Element) : elementWritten s e = elementWritten t e := by
  cases e <;> simp only [elementWritten, h]

/-- Settles O5: the three inputs, each by its equation; reset leaves the marks as State.reset has them. -/
theorem stepOnOtherInputs : Obligations.StepOnOtherInputs :=
  fun _ => ⟨step_of_no_input, fun _ _ _ => step_of_hostWrite, fun _ hin =>
    ⟨_, step_of_reset hin, elementWritten_congr rfl, rfl, rfl, rfl, rfl, rfl, rfl, rfl, rfl⟩⟩

end Sys2Proof.Machine
end

section
/-! PROOFS. Every command but STEP answers, and of the environment it changes the response alone (R230, R97). -/
namespace Sys2Proof.Machine

variable {s : State}

/-- `x` answers a next state whose environment is that of `s` but for a response without data. -/
def AnswersOnly (s : State) (x : Res State) : Prop :=
  ∃ t st, x = .next t ∧ t.env = { s.env with response := some { status := st, byte := none } }

/-- A command that writes registers and responds. -/
theorem answersOnly_respond {u : State} (st : Status) (hu : u.env = s.env) : AnswersOnly s (.next (respond st u)) :=
  ⟨_, st, rfl, by rw [respond, hu]⟩

/-- A command with a guard responds either way. -/
theorem answersOnly_guarded {c : Prop} [Decidable c] {u v : State} {st st' : Status} (hu : u.env = s.env)
    (hv : v.env = s.env) : AnswersOnly s (if c then .next (respond st u) else .next (respond st' v)) := by
  split
  · exact answersOnly_respond st hu
  · exact answersOnly_respond st' hv

/-- Settles O37: no command but STEP has a part that can stop, and each writes registers only. -/
theorem commandsOtherThanStepAnswerAndMakeNoRequest : Obligations.CommandsOtherThanStepAnswerAndMakeNoRequest := by
  intro i s hi hne
  cases i with
  | configure => exact answersOnly_respond _ rfl
  | bind => exact answersOnly_guarded rfl rfl
  | submit => exact answersOnly_guarded rfl rfl
  | supply => exact answersOnly_guarded rfl rfl
  | gettx => exact answersOnly_respond _ rfl
  | clrtx => exact answersOnly_guarded rfl rfl
  | getrx => exact answersOnly_respond _ rfl
  | clrrx => exact answersOnly_guarded rfl rfl
  | reserved0 => exact answersOnly_respond _ rfl
  | reservedAB => exact answersOnly_respond _ rfl
  | reservedCF => exact answersOnly_respond _ rfl
  | step => exact absurd rfl hne
  | txbyte => cases hi
  | rxbyte => cases hi

end Sys2Proof.Machine
end

section
/-! PROOFS. Runs of STEP under the premises of R278: the premises hold along the run. -/
namespace Sys2Proof.Machine

variable {s t : State}

theorem stepRun_succ (h : exec .step s = .next t) (n : Nat) : stepRun (n + 1) s = stepRun n t := by
  rw [stepRun, h, andThen_next]

theorem BuffersStayPlaced.step (h : BuffersStayPlaced s) (hstep : exec .step s = .next t) : BuffersStayPlaced t :=
  fun n u hu => h (n + 1) u ((stepRun_succ hstep n).trans hu)

/-- What STEP asks of a state to complete now and at every later STEP (R34, R22, U5). -/
structure CanRun (s : State) : Prop where
  inv        : ChanInv s
  configured : Configured s
  placed     : BuffersStayPlaced s

theorem CanRun.exec_step (h : CanRun s) : ∃ t, exec .step s = .next t := by
  obtain ⟨hread, hwrite⟩ := h.placed 0 s rfl
  obtain ⟨t, ht, -⟩ := stepCommandCompletes s h.inv h.configured hread hwrite
  exact ⟨t, ht⟩

theorem CanRun.step (h : CanRun s) (hstep : exec .step s = .next t) : CanRun t := by
  obtain ⟨hparams, hcfg, -⟩ := stepCommandFrame s t hstep
  refine ⟨exec_inv h.inv rfl hstep, ?_, h.placed.step hstep⟩
  rw [Configured, hcfg, hparams]
  exact h.configured

end Sys2Proof.Machine
end

section
/-! PROOFS. A frame in flight ends (R278, R146): every TXBYTE takes a byte off the payload or an answer off the
continuation's script, and one of those answers declines. -/
namespace Sys2Proof.Machine

variable {s t : State} {r : TxResult}

/-- A frame in flight whose continuation, where one is attached, has an answer left that declines. -/
structure Ending (s : State) : Prop where
  state    : s.tx.state = .sof ∨ s.tx.state = .data ∨ s.tx.state = .esc
  declines : s.params.hasCont = true → ContinuationDeclines s

theorem Ending.inFlight (h : Ending s) : TxInFlight s := h.state.imp_right (·.imp_right .inl)

/-- A bound on the calls of TXBYTE before the payload loaded now is exhausted: two for each byte, and one for the
delimiter or the substitute due first. -/
def payloadCalls (tx : TxRegs) : Nat := 2 * (tx.len - tx.pos) + if tx.state = .data then 0 else 1

/-- Nearer the end: fewer answers left to the continuation, or as many and less of the payload to send. -/
def NearerEnd (t s : State) : Prop :=
  t.env.contAnswers.length < s.env.contAnswers.length ∨
    (t.env.contAnswers.length = s.env.contAnswers.length ∧ payloadCalls t.tx < payloadCalls s.tx)

/-- A taken payload byte leaves fewer calls, the one for its substitute counted. -/
theorem txTake_payloadCalls (hs : s.tx.state = .data) (hp : s.tx.pos < s.tx.len) (h : txTake s = .next r) :
    (r.1.tx.state = .data ∨ r.1.tx.state = .esc) ∧ payloadCalls r.1.tx < payloadCalls s.tx := by
  obtain ⟨-, hlen, hpos, -, ⟨hst, -⟩ | ⟨hst, -⟩, -⟩ := txTake_facts h
  · refine ⟨.inl (hst.trans hs), ?_⟩
    simp only [payloadCalls, hlen, hpos, hst, hs]
    omega
  · refine ⟨.inr hst, ?_⟩
    simp only [payloadCalls, hlen, hpos, hst, hs, reduceCtorEq, if_true, if_false]
    omega

theorem contRequest_more_of_script {a : ContAnswer} {rest : List ContAnswer} (h : s.env.contAnswers = a :: rest) :
    (contRequest s).1.more = a.more := by
  simp only [contRequest, drawCont, h, onPort]

theorem afterCont_env_contAnswers (hc : s.params.hasCont = true) :
    (afterCont s).env.contAnswers = s.env.contAnswers.tail := by
  rw [afterCont, if_pos hc]
  split <;> exact contRequest_env_contAnswers s

/-- A continuation that supplied a byte still has the answer to give that declines. -/
theorem continuationDeclines_tail (h : ContinuationDeclines s) (hc : contSupplied s = true) :
    ContinuationDeclines (afterCont s) ∧ (afterCont s).env.contAnswers.length < s.env.contAnswers.length := by
  obtain ⟨hon, hmore, -⟩ : s.params.hasCont = true ∧ (contRequest s).1.more = true ∧ _ := by
    simpa [contSupplied] using hc
  obtain ⟨d, hd, hdeclines⟩ := h
  rw [ContinuationDeclines, afterCont_env_contAnswers hon]
  cases hscript : s.env.contAnswers with
  | nil => simp [hscript] at hd
  | cons a rest =>
    rw [contRequest_more_of_script hscript] at hmore
    have hne : d ≠ a := fun he => by simp [he, hmore] at hdeclines
    rw [hscript] at hd
    exact ⟨⟨d, List.mem_of_ne_of_mem hne hd, hdeclines⟩, Nat.lt_succ_self _⟩

/-- TXBYTE finishes the frame or brings it nearer its end. -/
theorem Ending.txByte (h : Ending s) (hr : txByte s = .next r) :
    r.1.tx.state = .finished ∨ (Ending r.1 ∧ NearerEnd r.1 s) := by
  have hparams := (txByte_keeps hr).params
  obtain ⟨hs, -⟩ | ⟨hs, b, -, rfl⟩ | ⟨hs, hp, hr⟩ | ⟨hs, hp, hc, hr⟩ | ⟨-, -, -, hr⟩ | ⟨hs, b, -, rfl⟩ | ⟨-, hr⟩ :=
    txByte_cases hr
  · have hready := txReady_iff.mpr h.inFlight
    rw [hs] at hready
    cases hready
  · exact .inr ⟨⟨.inr (.inl rfl), h.declines⟩, .inr ⟨rfl, by simp [payloadCalls, hs]⟩⟩
  · obtain ⟨-, -, -, hconts, -⟩ := txTake_facts hr
    obtain ⟨hst, hless⟩ := txTake_payloadCalls hs hp hr
    have hdeclines : r.1.params.hasCont = true → ContinuationDeclines r.1 := by
      rw [hparams, ContinuationDeclines, hconts]
      exact h.declines
    exact .inr ⟨⟨.inr hst, hdeclines⟩, .inr ⟨congrArg List.length hconts, hless⟩⟩
  · have hon : s.params.hasCont = true := by
      by_contra hoff
      simp [contSupplied, hoff] at hc
    obtain ⟨hdeclines, hless⟩ := continuationDeclines_tail (h.declines hon) hc
    obtain ⟨-, -, -, hconts, -⟩ := txTake_facts hr
    obtain ⟨hst, -⟩ := txTake_payloadCalls ((afterCont_state s).1.trans hs) (afterCont_pos_lt hc) hr
    rw [ContinuationDeclines, ← hconts] at hdeclines
    exact .inr ⟨⟨.inr hst, fun _ => hdeclines⟩, .inl (hconts ▸ hless)⟩
  · obtain ⟨e, -, rfl⟩ := txEnd_cases hr
    exact .inl rfl
  · exact .inr ⟨⟨.inr (.inl rfl), h.declines⟩, .inr ⟨rfl, by simp [payloadCalls, hs]⟩⟩
  · obtain ⟨e, -, rfl⟩ := txEof_cases hr
    exact .inl rfl

theorem rxHalf_env_contAnswers (h : rxHalf s = .next t) : t.env.contAnswers = s.env.contAnswers := by
  obtain ⟨-, rfl⟩ | ⟨-, -, rfl⟩ | ⟨-, b, u, st, -, hu, rfl⟩ := rxHalf_cases h
  · rfl
  · exact tpRead_env_contAnswers s
  · exact (rxByte_keeps hu).conts.trans (tpRead_env_contAnswers s)

/-- After a STEP with a frame in flight, transmit group and continuation are as TXBYTE left them (R211). -/
theorem exec_step_txByte (hf : TxInFlight s) (h : exec .step s = .next t) :
    ∃ r, txByte s = .next r ∧ t.params = r.1.params ∧ t.tx = r.1.tx ∧ t.env.contAnswers = r.1.env.contAnswers := by
  obtain ⟨u, w, hu, hw, rfl⟩ := execStep_cases h
  obtain ⟨k, htx, -⟩ := rxHalf_keeps hw
  have hconts := rxHalf_env_contAnswers hw
  obtain ⟨hquiet, -⟩ | ⟨-, v, st, b, hv, rfl⟩ := txHalf_cases hu
  · rw [txReady_iff.mpr hf] at hquiet
    cases hquiet
  · exact ⟨_, hv, k.params.trans (tpWrite_params v b), htx.trans (tpWrite_tx v b),
      hconts.trans (tpWrite_env_contAnswers v b)⟩

/-- STEP finishes the frame or brings it nearer its end. -/
theorem Ending.step (h : Ending s) (hstep : exec .step s = .next t) :
    t.tx.state = .finished ∨ (Ending t ∧ NearerEnd t s) := by
  obtain ⟨r, hr, hparams, htx, hconts⟩ := exec_step_txByte h.inFlight hstep
  rw [NearerEnd, htx, hconts]
  refine (h.txByte hr).imp_right fun ⟨⟨hst, hdeclines⟩, hnearer⟩ => ⟨⟨htx ▸ hst, ?_⟩, hnearer⟩
  rw [hparams, ContinuationDeclines, hconts]
  exact hdeclines

/-- An ending frame finishes, by recursion on its distance from the end. -/
theorem Ending.finishes {s : State} (h : Ending s) (hrun : CanRun s) :
    ∃ n t, stepRun n s = .next t ∧ t.tx.state = .finished := by
  obtain ⟨t, hstep⟩ := hrun.exec_step
  obtain hfin | ⟨hend, hnearer⟩ := h.step hstep
  · exact ⟨1, t, stepRun_succ hstep 0, hfin⟩
  · obtain ⟨n, v, hv, hfin⟩ := hend.finishes (hrun.step hstep)
    exact ⟨n + 1, v, (stepRun_succ hstep n).trans hv, hfin⟩
termination_by (s.env.contAnswers.length, payloadCalls s.tx)
decreasing_by exact Prod.lex_def.mpr hnearer

/-- Settles O59: each STEP completes and brings the frame nearer its end. -/
theorem frameEndsOnceTheContinuationDeclines : Obligations.FrameEndsOnceTheContinuationDeclines :=
  fun _ hinv hconf hplaced hs hdeclines => Ending.finishes ⟨hs, hdeclines⟩ ⟨hinv, hconf, hplaced⟩

end Sys2Proof.Machine
end

section
/-! PROOFS. Reception by STEPs (R278, R180, R185): whatever the transmit half does, a STEP leaves the receiver as RXBYTE
of the byte it read does, so STEPs run as the RXBYTE calls they make. -/
namespace Sys2Proof.Machine

variable {s t u v r : State} {a : Option Byte} {b : Byte} {bs : List Byte} {rest : List (Option Byte)}

/-! ### The transmit half beside a receiver -/

/-- The transmit half has nothing to do, or can run. -/
def TxCompletes (s : State) : Prop := TxQuiet s ∨ CanRun s

/-- The transmit half has nothing to do, or no continuation to write memory for it (R145). -/
def TxWritesNothing (s : State) : Prop := TxQuiet s ∨ s.params.hasCont = false

theorem TxCompletes.txHalf (h : TxCompletes s) : ∃ u, txHalf s = .next u := by
  obtain hq | hrun := h
  · exact ⟨s, txHalf_of_quiet hq⟩
  · exact txHalf_completes hrun.inv hrun.configured (hrun.placed 0 s rfl).1

/-- With no frame in flight, none is after a STEP. -/
theorem exec_step_txQuiet (h : TxQuiet s) (hstep : exec .step s = .next t) : TxQuiet t := by
  obtain ⟨u, w, hu, hw, rfl⟩ := execStep_cases hstep
  have htx : w.tx = s.tx := halves_tx_of_quiet hu hw h
  rw [TxQuiet, respond_tx, htx]
  exact h

theorem TxCompletes.step (h : TxCompletes s) (hstep : exec .step s = .next t) : TxCompletes t :=
  h.imp (exec_step_txQuiet · hstep) (·.step hstep)

theorem TxWritesNothing.step (h : TxWritesNothing s) (hstep : exec .step s = .next t) : TxWritesNothing t :=
  h.imp (exec_step_txQuiet · hstep) ((stepCommandFrame s t hstep).1 ▸ ·)

theorem TxWritesNothing.txHalf_env_mem (h : TxWritesNothing s) (hu : txHalf s = .next u) : u.env.mem = s.env.mem := by
  obtain hq | hoff := h
  · cases (txHalf_of_quiet hq).symm.trans hu
    rfl
  · obtain ⟨-, rfl⟩ | ⟨-, w, st, b, hw, rfl⟩ := txHalf_cases hu
    · rfl
    · have hmem : w.env.mem = memPutAll s.env.mem (contWrites s) := txByte_mem hw
      have hnone : contWrites s = [] := by simp [contWrites, contAsked, hoff]
      rw [tpWrite_env_mem, hmem, hnone, memPutAll]

/-! ### One STEP with a scripted read -/

/-- `v` is `s` up to the read of a STEP: transmit half and read leave setup and receiver as they were, and the answers
`rest` still to come. -/
structure HasRead (s : State) (rest : List (Option Byte)) (v : State) : Prop where
  params : v.params = s.params
  cfg    : v.cfg = s.cfg
  rx     : v.rx = s.rx
  reads  : v.env.readAnswers = rest
  mem    : TxWritesNothing s → v.env.mem = s.env.mem

theorem tpRead_of_script (h : s.env.readAnswers = a :: rest) :
    tpRead s = (a, note (.tpRead s.handle a) { s with env.readAnswers := rest }) := by
  simp only [tpRead, drawRead, h]

/-- A receiver that is not idle is fed the next scripted answer, and STEP completes if the receiver takes it (R212). -/
theorem exec_step_of_scripted_read (h : TxCompletes s) (hi : s.rx.state ≠ .idle)
    (hscript : s.env.readAnswers = a :: rest) :
    ∃ v, HasRead s rest v ∧ ∀ w, rxFeedAnswer a v = .next w → exec .step s = .next (respond .ok w) := by
  obtain ⟨u, hu⟩ := h.txHalf
  obtain ⟨k, hrx, -, hreads, -⟩ := txHalf_keeps hu
  have hread := tpRead_of_script (hreads.trans hscript)
  exact ⟨note (.tpRead u.handle a) { u with env.readAnswers := rest },
    ⟨k.params, k.cfg, hrx, rfl, fun hn => hn.txHalf_env_mem (u := u) hu⟩,
    fun w hw => exec_step_of_halves hu ((rxHalf_of_tpRead (hrx ▸ hi) hread).trans hw)⟩

/-! ### ERROR -/

/-- In ERROR an answer other than `ctl[EOF]` changes at most `rx_last` (R180). -/
theorem rxFeedAnswer_of_error (hs : s.rx.state = .error) (h2 : s.cfg.ctl[idEOF]? = some b) (ha : a ≠ some b) :
    ∃ st, rxFeedAnswer a s = .next { s with rxLast := st } := by
  cases a with
  | none => exact ⟨s.rxLast, rfl⟩
  | some c => exact ⟨_, rxFeedAnswer_some (rxByte_of_error_other hs h2 fun he => ha (congrArg some he))⟩

/-- ERROR ends with the first `ctl[EOF]` the transport brings, at the latest with its last scripted answer (R180). -/
theorem error_ends (hs : s.rx.state = .error) (h2 : s.cfg.ctl[idEOF]? = some b) (h : TxCompletes s)
    (hscript : s.env.readAnswers = rest) (hb : some b ∈ rest) :
    ∃ n t, n ≤ rest.length ∧ stepRun n s = .next t ∧ t.rx.state = .idle ∧ t.rx.len = s.rx.len ∧
      (TxWritesNothing s → t.env.mem = s.env.mem) := by
  induction rest generalizing s with
  | nil => cases hb
  | cons a rest ih =>
    obtain ⟨v, hv, hfeed⟩ := exec_step_of_scripted_read h (by simp [hs]) hscript
    have hs_v : v.rx.state = .error := hv.rx ▸ hs
    have h2_v : v.cfg.ctl[idEOF]? = some b := hv.cfg ▸ h2
    have hlen_v : v.rx.len = s.rx.len := congrArg RxRegs.len hv.rx
    by_cases ha : a = some b
    · subst ha
      have hstep := hfeed _ (rxFeedAnswer_some (rxByte_of_error_eof hs_v h2_v))
      exact ⟨1, _, Nat.succ_pos _, stepRun_succ hstep 0, rfl, hlen_v, hv.mem⟩
    · obtain ⟨st, hst⟩ := rxFeedAnswer_of_error hs_v h2_v ha
      have hstep := hfeed _ hst
      obtain ⟨n, t, hn, hrun, hidle, hlen, hmem⟩ := ih (s := respond .ok { v with rxLast := st }) hs_v h2_v
        (h.step hstep) hv.reads (List.mem_of_ne_of_mem (Ne.symm ha) hb)
      exact ⟨n + 1, t, Nat.succ_le_succ hn, (stepRun_succ hstep n).trans hrun, hidle,
        hlen.trans hlen_v, fun hw => (hmem (hw.step hstep)).trans (hv.mem hw)⟩

/-! ### STEPs run as RXBYTE calls -/

/-- `s` has all of `r` that RXBYTE reads. -/
structure SameReceiver (r s : State) : Prop where
  params : s.params = r.params
  cfg    : s.cfg = r.cfg
  rx     : s.rx = r.rx
  mem    : s.env.mem = r.env.mem

theorem SameReceiver.trans (h : SameReceiver r s) (k : SameReceiver s t) : SameReceiver r t :=
  ⟨k.params.trans h.params, k.cfg.trans h.cfg, k.rx.trans h.rx, k.mem.trans h.mem⟩

theorem HasRead.sameReceiver (h : HasRead s rest v) (hw : TxWritesNothing s) : SameReceiver s v :=
  ⟨h.params, h.cfg, h.rx, h.mem hw⟩

theorem rxStore_congr {x : Byte} (h : SameReceiver r s) (hr : rxStore x r = .next u) :
    ∃ w, rxStore x s = .next w ∧ SameReceiver u w := by
  have haddr : rxStoreAddr s = rxStoreAddr r := by rw [rxStoreAddr, h.rx, rxStoreAddr]
  obtain ⟨hroom, hplaced, rfl⟩ | ⟨hfull, rfl⟩ := rxStore_cases hr
  · refine ⟨_, rxStore_room (h.rx ▸ hroom) (by rwa [h.params, h.mem, haddr]), h.params, h.cfg, ?_, ?_⟩
    · simp only [storedByte, note_rx, h.rx]
    · simp only [storedByte, note_env_mem, h.mem, haddr]
  · exact ⟨_, rxStore_full (h.rx ▸ hfull), h.params, h.cfg, by simp only [enterError, h.rx], h.mem⟩

theorem unescape_congr (h : SameReceiver r s) (b : Byte) : unescape b s = unescape b r := by
  simp only [unescape, lookupEsc, readCtl, h.cfg]

/-- RXBYTE does the same to two receivers that agree in what it reads. -/
theorem rxByte_congr {st : Status} (h : SameReceiver r s) (hr : rxByte b r = .next (u, st)) :
    ∃ w, rxByte b s = .next (w, st) ∧ SameReceiver u w := by
  have hstore {x : Byte} {st : RxState} {w : State} : rxStore x { r with rx.state := st } = .next w →
      ∃ w', rxStore x { s with rx.state := st } = .next w' ∧ SameReceiver w w' :=
    rxStore_congr ⟨h.params, h.cfg, by rw [h.rx], h.mem⟩
  have hunescape := unescape_congr h b
  have hcases := rxByte_cases hr
  simp only [readCtl_eq_next] at hcases
  obtain ⟨P, c, bound, handle, tx, rx, last, written, env⟩ := s
  obtain ⟨rfl, rfl, rfl, hmem⟩ := h
  obtain ⟨hs, ⟨⟩⟩ | ⟨hs, ⟨⟩⟩ | ⟨hs, x, hx, ⟨rfl, ⟨⟩⟩ | ⟨hb, ⟨⟩⟩⟩ | ⟨hs, hr⟩ | ⟨hs, hr⟩ |
    ⟨hs, x, hx, ⟨rfl, ⟨⟩⟩ | ⟨hb, ⟨⟩⟩⟩ := hcases
  · exact ⟨_, rxByte_of_idle hs, rfl, rfl, rfl, hmem⟩
  · exact ⟨_, rxByte_of_finished hs, rfl, rfl, rfl, hmem⟩
  · exact ⟨_, rxByte_of_sof_match hs hx, rfl, rfl, rfl, hmem⟩
  · exact ⟨_, rxByte_of_sof_other hs hx hb, rfl, rfl, rfl, hmem⟩
  · have hdata := rxData_cases hr
    simp only [readCtl_eq_next] at hdata
    obtain ⟨sof, h0, ⟨rfl, ⟨⟩⟩ | ⟨hb0, esc, h1, ⟨rfl, ⟨⟩⟩ | ⟨hb1, eof, h2, ⟨rfl, ⟨⟩⟩ | ⟨hb2, w, hw, ⟨⟩⟩⟩⟩⟩ :=
      hdata
    · exact ⟨_, rxByte_of_data_sof hs h0, rfl, rfl, rfl, hmem⟩
    · exact ⟨_, rxByte_of_data_esc hs h0 h1 hb0, rfl, rfl, rfl, hmem⟩
    · exact ⟨_, rxByte_of_data_eof hs h0 h1 h2 hb0 hb1, rfl, rfl, rfl, hmem⟩
    · obtain ⟨w', hw', hsame⟩ := hstore (st := r.rx.state) hw
      exact ⟨w', rxByte_of_data_other hs h0 h1 h2 hb0 hb1 hb2 hw', hsame⟩
  · obtain ⟨x, w, hx, hw, ⟨⟩⟩ := rxEsc_cases hr
    obtain ⟨w', hw', hsame⟩ := hstore hw
    exact ⟨w', rxByte_of_esc hs (hunescape.trans hx) hw', hsame⟩
  · exact ⟨_, rxByte_of_error_eof hs hx, rfl, rfl, rfl, hmem⟩
  · exact ⟨_, rxByte_of_error_other hs hx hb, rfl, rfl, rfl, hmem⟩

/-- An idle receiver takes every byte and stays as it is (R172). -/
theorem rxFeed_of_idle {l : List Status} (hs : r.rx.state = .idle) (h : rxFeed bs r = .next (u, l)) : u = r := by
  induction bs generalizing l with
  | nil => cases h; rfl
  | cons b bs ih =>
    rw [rxFeed, rxByte_of_idle hs, andThen_next] at h
    obtain ⟨q, hq, h⟩ := andThen_eq_next.mp h
    cases h
    exact ih hq

/-- Where RXBYTE fed the bytes brought by the transport ends armed or finished, STEPs end too, one for each scripted
answer: a failed read changes nothing of the receiver (R212). -/
theorem stepRun_of_rxFeed {l : List Status} (hfeed : rxFeed (rest.filterMap id) r = .next (u, l))
    (hu : u.rx.state ≠ .idle) (hscript : s.env.readAnswers = rest) (hsame : SameReceiver r s) (h : TxCompletes s)
    (hw : TxWritesNothing s) : ∃ t, stepRun rest.length s = .next t ∧ SameReceiver u t := by
  induction rest generalizing r s l with
  | nil =>
    cases hfeed
    exact ⟨s, rfl, hsame⟩
  | cons a rest ih =>
    have hi : s.rx.state ≠ .idle := by
      intro hi
      rw [hsame.rx] at hi
      exact hu (rxFeed_of_idle hi hfeed ▸ hi)
    obtain ⟨v, hv, hstep⟩ := exec_step_of_scripted_read h hi hscript
    have hsame_v := hsame.trans (hv.sameReceiver hw)
    cases a with
    | none =>
      have hstep := hstep v rfl
      obtain ⟨t, ht, hend⟩ := ih hfeed (s := respond .ok v) hv.reads (hsame_v.trans ⟨rfl, rfl, rfl, rfl⟩)
        (h.step hstep) (hw.step hstep)
      exact ⟨t, (stepRun_succ hstep _).trans ht, hend⟩
    | some b =>
      obtain ⟨⟨x, st⟩, hx, hfeed⟩ := andThen_eq_next.mp hfeed
      obtain ⟨⟨y, m⟩, hy, hfeed⟩ := andThen_eq_next.mp hfeed
      cases hfeed
      obtain ⟨w, hw_byte, hsame_w⟩ := rxByte_congr hsame_v hx
      have hreads : w.env.readAnswers = v.env.readAnswers := (rxByte_keeps hw_byte).reads
      have hstep := hstep _ (rxFeedAnswer_some hw_byte)
      obtain ⟨t, ht, hend⟩ := ih hy (s := respond .ok { w with rxLast := st }) (hreads.trans hv.reads)
        (hsame_w.trans ⟨rfl, rfl, rfl, rfl⟩) (h.step hstep) (hw.step hstep)
      exact ⟨t, (stepRun_succ hstep _).trans ht, hend⟩

/-- RXBYTE fed the frame of a payload the buffer has room for ends in FINISHED with it (R185). -/
theorem rxFeed_frameOf {p : List Byte} (legal : CfgLegal r.params r.cfg) (hc : TablesReach r.cfg)
    (hs : r.rx.state = .sof) (hbuf : bufferAt r.params r.env.mem r.rx.buf r.rx.cap) (hroom : p.length ≤ r.rx.cap) :
    ∃ u l, rxFeed (frameOf r.cfg p) r = .next (u, l) ∧ u.rx.state = .finished ∧ u.rx.len = p.length ∧
      holdsAt u.env.mem r.rx.buf p := by
  obtain ⟨v, hopen, hall⟩ := accepts_openFrame legal hc hs hbuf hroom
  have hfeed := rxFeed_append hopen (rxFeed_single (rxByte_eof_of_data legal hc hall.cfg hall.state))
  exact ⟨_, _, hfeed, rfl, hall.pos, hall.holds⟩

/-- Settles O60: ERROR ends by induction on the answers still to come; the frame is received by the STEPs as RXBYTE
receives it. -/
theorem receptionEndsOnceTheTransportBringsEof : Obligations.ReceptionEndsOnceTheTransportBringsEof := by
  intro s h
  have hcompletes : TxCompletes s := h.imp_right fun ⟨hinv, hconf, hplaced⟩ => ⟨hinv, hconf, hplaced⟩
  refine ⟨fun e hs h2 hb => error_ends hs h2 hcompletes rfl hb, ?_⟩
  intro p hs _ hctl hesc legal hroom hbuf hw hbrought
  obtain ⟨u, l, hfeed, hfin, hlen, hholds⟩ := rxFeed_frameOf legal (legal.tablesReach hctl hesc) hs hbuf hroom
  rw [← hbrought] at hfeed
  obtain ⟨t, ht, hsame⟩ := stepRun_of_rxFeed hfeed (by simp [hfin]) rfl ⟨rfl, rfl, rfl, rfl⟩ hcompletes hw
  exact ⟨t, ht, hsame.rx ▸ hfin, hsame.rx ▸ hlen, hsame.mem ▸ hholds⟩

end Sys2Proof.Machine
end

section
/-! PROOFS. Commands out of the start-up order (R261): BIND is what SUBMIT and SUPPLY wait for, CONFIGURE is not. -/
namespace Sys2Proof.Machine

variable {s : State} {data size : Nat} {b sof : Byte} {rest : List (Option Byte)}

theorem tpWrite_env_trace (b : Byte) (s : State) :
    (tpWrite b s).env.trace = s.env.trace ++ [.tpWrite s.handle b (drawWrite s).1] := by
  simp [tpWrite]

/-- Bound and idle, SUBMIT is accepted, and with the receiver idle the next STEP sends `ctl[SOF]` (R140, R143, R211). -/
theorem exec_submit_step (hs : s.tx.state = .idle) (hbound : s.bound = true) (hi : s.rx.state = .idle)
    (h0 : s.cfg.ctl[idSOF]? = some sof) (hdata : data ≠ 0) (hsize : size ≠ 0) :
    ∃ u v ok, exec (.submit false data size) s = .next u ∧ u.env.response = some { status := .ok, byte := none } ∧
      exec .step u = .next v ∧ v.tx.state = .data ∧ v.env.trace = s.env.trace ++ [.tpWrite s.handle sof ok] :=
  ⟨_, _, _, (submitResult s false data size).1 ⟨.inl hs, rfl, hdata, hsize, hbound⟩, rfl,
    exec_step_of_txByte hi (txByte_of_sof rfl h0), congrArg TxRegs.state (tpWrite_tx _ sof), tpWrite_env_trace _ _⟩

/-- With no frame in flight STEP gives an armed receiver the byte it reads: SOF, or one to skip (R173, R212). -/
theorem exec_step_of_armed (hs : s.rx.state = .sof) (hq : TxQuiet s) (h0 : s.cfg.ctl[idSOF]? = some sof)
    (hscript : s.env.readAnswers = some b :: rest) :
    ∃ v, exec .step s = .next v ∧ v.env.trace = s.env.trace ++ [.tpRead s.handle (some b)] ∧
      v.rx.state = if b = sof then .data else .sof := by
  have hread := rxHalf_of_tpRead (by simp [hs]) (tpRead_of_script hscript)
  by_cases hb : b = sof
  · have hfeed := hread.trans (rxFeedAnswer_some (rxByte_of_sof_match hs (hb ▸ h0)))
    exact ⟨_, exec_step_of_halves (txHalf_of_quiet hq) hfeed, rfl, (if_pos hb).symm⟩
  · have hfeed := hread.trans (rxFeedAnswer_some (rxByte_of_sof_other hs h0 hb))
    exact ⟨_, exec_step_of_halves (txHalf_of_quiet hq) hfeed, rfl, hs.trans (if_neg hb).symm⟩

/-- Bound and idle, SUPPLY is accepted, and with no frame in flight the next STEP hunts for SOF (R170). -/
theorem exec_supply_step (hs : s.rx.state = .idle) (hbound : s.bound = true) (hq : TxQuiet s)
    (h0 : s.cfg.ctl[idSOF]? = some sof) (hdata : data ≠ 0) (hsize : size ≠ 0) :
    ∃ u, exec (.supply false data size) s = .next u ∧ u.env.response = some { status := .ok, byte := none } ∧
      ∀ b rest, s.env.readAnswers = some b :: rest →
        ∃ v, exec .step u = .next v ∧ v.env.trace = s.env.trace ++ [.tpRead s.handle (some b)] ∧
          v.rx.state = if b = sof then .data else .sof := by
  refine ⟨_, (supplyResult s false data size).1 ⟨.inl hs, rfl, hdata, hsize, hbound⟩, rfl, fun b rest hscript => ?_⟩
  apply exec_step_of_armed
  exacts [rfl, hq, h0, hscript]

/-- Settles O35: before BIND both are refused; BIND leaves the tables and the receiver as they stand. -/
theorem startUpOutOfOrder : Obligations.StartUpOutOfOrder := by
  intro s h data size sof hs hi hunbound h0 hdata hsize
  exact ⟨exec_submit_of_unbound hunbound _ _ _, exec_supply_of_unbound hunbound _ _ _,
    _, exec_bind_of_allowed (bindAllowed_iff.mpr (.inl hs)) h, rfl,
    exec_submit_step rfl rfl hi h0 hdata hsize, exec_supply_step hi rfl (.inr (.inl rfl)) h0 hdata hsize⟩

end Sys2Proof.Machine
end
